-- ==== Sys2Proof/Word.lean ====
section
/-! DEFINITION. The bus word, the bus address and the register number of 00_scope.md R8 and R18. -/

namespace Sys2Proof

/-- A 32-bit bus word: command words, limbs, CSR values, RNG words (R8 `LIMB_BITS` = 32). -/
abbrev Word := BitVec 32

/-- A 17-bit byte address of the register map (R8 `ADDR_BITS` = 17, 20_memory.md R50). -/
abbrev Addr := BitVec 17

/-- The number k of big register Bk, 0 to 15 (R8 `NREGS` = 16, 10_state.md R21). -/
abbrev RegNum := Fin 16

end Sys2Proof
end

