-- ==== Sys2Proof/Syntax.lean ====
section
/-! DEFINITION. The six commands of 30_encoding.md R84, with the operand roles of R82. -/

namespace Sys2Proof

/-- A command. Operands stand in the field order of R82: destinations first, then sources. -/
inductive Instr where
  /-- `CMP Ba, Bb` (40_bigint_comparator.md R101). -/
  | cmp (ra rb : RegNum)
  /-- `MUL Bd, Ba, Bb` (41_bigint_multiplier.md R111). -/
  | mul (rd ra rb : RegNum)
  /-- `MODEXP Bd, Ba, Bb, Bc`: base, exponent, modulus (42_modular_exponentiation.md R121). -/
  | modexp (rd ra rb rc : RegNum)
  /-- `EGCD Bg, Bx, By, Ba, Bb` (43_extended_gcd_modinv.md R136). -/
  | egcd (rg rx ry ra rb : RegNum)
  /-- `MODINV Bd, Ba, Bb`: value, modulus (43_extended_gcd_modinv.md R141). -/
  | modinv (rd ra rb : RegNum)
  /-- `MRTEST Ba` (44_miller_rabin.md R160). -/
  | mrtest (ra : RegNum)
deriving DecidableEq, Repr

end Sys2Proof
end

