-- ==== Sys2Proof/WellFormed.lean ====
section
/-! DEFINITION. Which command terms have an encoding: the EGCD destination constraint of 30_encoding.md R87. -/

namespace Sys2Proof

/-- R87: "EGCD writes three registers; its three destination fields must name three different registers".
Every other command takes any register in any field (R81, R92). -/
def Instr.wellFormed : Instr → Bool
  | .egcd rg rx ry _ _ => decide (rg ≠ rx) && decide (rg ≠ ry) && decide (rx ≠ ry)
  | .cmp _ _ => true
  | .mul _ _ _ => true
  | .modexp _ _ _ _ => true
  | .modinv _ _ _ => true
  | .mrtest _ => true

end Sys2Proof
end

