-- ==== Sys2Proof/Decode.lean ====
section
/-! DEFINITION. The decoder of 30_encoding.md R91, total on 32-bit words, and the encoder of R84. -/

namespace Sys2Proof

/-- Why `Decode` answers ILLEGAL (R85, R86, R87), by name. -/
inductive Reject where
  /-- R86: the opcode is none of 0x01 to 0x06. -/
  | unknownOpcode (op : Nat)
  /-- R85: a known opcode with a 1 in a must-be-zero bit. -/
  | reservedBits (op : Nat)
  /-- R87: EGCD with two equal destination fields. -/
  | equalDestinations (rg rx ry : RegNum)
  /-- Bytes that do not make up one 32-bit word (R80, R88). -/
  | notOneWord
deriving DecidableEq, Repr

/-- The opcode `op`, bits 31:24 (R81). -/
def opcodeField (w : Word) : Nat := w.toNat / 2 ^ 24

/-- The 4-bit register field whose lowest bit is `lo` (R81, R83). -/
def regField (w : Word) (lo : Nat) : RegNum :=
  ⟨w.toNat / 2 ^ lo % 16, Nat.mod_lt _ (by decide)⟩

/-- Bits n-1:0, the must-be-zero bits of a format (R82). -/
def lowBits (w : Word) (n : Nat) : Nat := w.toNat % 2 ^ n

/-- `Decode(w)` of R91. -/
def decode (w : Word) : Except Reject Instr :=
  let op := opcodeField w
  let f1 := regField w 20
  let f2 := regField w 16
  let f3 := regField w 12
  let f4 := regField w 8
  let f5 := regField w 4
  if op = 0x01 then
    if lowBits w 16 = 0 then .ok (.cmp f1 f2) else .error (.reservedBits op)
  else if op = 0x02 then
    if lowBits w 12 = 0 then .ok (.mul f1 f2 f3) else .error (.reservedBits op)
  else if op = 0x03 then
    if lowBits w 8 = 0 then .ok (.modexp f1 f2 f3 f4) else .error (.reservedBits op)
  else if op = 0x04 then
    if lowBits w 4 = 0 then
      if f1 ≠ f2 ∧ f1 ≠ f3 ∧ f2 ≠ f3 then .ok (.egcd f1 f2 f3 f4 f5)
      else .error (.equalDestinations f1 f2 f3)
    else .error (.reservedBits op)
  else if op = 0x05 then
    if lowBits w 12 = 0 then .ok (.modinv f1 f2 f3) else .error (.reservedBits op)
  else if op = 0x06 then
    if lowBits w 20 = 0 then .ok (.mrtest f1) else .error (.reservedBits op)
  else .error (.unknownOpcode op)

/-- The encoding formula of R84: `op*2^24 + f1*2^20 + f2*2^16 + f3*2^12 + f4*2^8 + f5*2^4`. -/
def assemble (op : Nat) (f1 f2 f3 f4 f5 : RegNum) : Word :=
  BitVec.ofNat 32 (op * 2 ^ 24 + f1.val * 2 ^ 20 + f2.val * 2 ^ 16 + f3.val * 2 ^ 12
    + f4.val * 2 ^ 8 + f5.val * 2 ^ 4)

/-- The word of a command (R82, R84). A field a format does not use is 0. -/
def encode : Instr → Word
  | .cmp ra rb => assemble 0x01 ra rb 0 0 0
  | .mul rd ra rb => assemble 0x02 rd ra rb 0 0
  | .modexp rd ra rb rc => assemble 0x03 rd ra rb rc 0
  | .egcd rg rx ry ra rb => assemble 0x04 rg rx ry ra rb
  | .modinv rd ra rb => assemble 0x05 rd ra rb 0 0
  | .mrtest ra => assemble 0x06 ra 0 0 0 0

/-- The number four bytes make, the byte at the lowest address first (20_memory.md R53: byte address
`A+0` carries bits 7:0). -/
def wordOfBytes (b0 b1 b2 b3 : BitVec 8) : Word :=
  BitVec.ofNat 32 (b0.toNat + b1.toNat * 2 ^ 8 + b2.toNat * 2 ^ 16 + b3.toNat * 2 ^ 24)

/-- The byte lanes of a word, lowest address first (R53). -/
def bytesOfWord (w : Word) : List (BitVec 8) :=
  [BitVec.ofNat 8 w.toNat, BitVec.ofNat 8 (w.toNat / 2 ^ 8), BitVec.ofNat 8 (w.toNat / 2 ^ 16),
    BitVec.ofNat 8 (w.toNat / 2 ^ 24)]

/-- The decoder on a stream of bytes, with the bytes left over: every command is four bytes (R80, R88). -/
def decodeBytes : List (BitVec 8) → Except Reject (Instr × List (BitVec 8))
  | b0 :: b1 :: b2 :: b3 :: rest =>
    match decode (wordOfBytes b0 b1 b2 b3) with
    | .ok i => .ok (i, rest)
    | .error r => .error r
  | _ => .error .notOneWord

/-- The 32-bit word that a table word of `nbits` bits stands for: the bits above `nbits` are 0, and a
number that is wider than one word is no command (R80) (log 18). -/
def tableWord (nbits w : Nat) : Option Word :=
  if w % 2 ^ nbits < 2 ^ 32 then some (BitVec.ofNat 32 (w % 2 ^ nbits)) else none

/-- What the decoder reads from a table word, laid out in bytes as R53 stores it. -/
def decodeTableWord (nbits w : Nat) : Option Instr :=
  match tableWord nbits w with
  | none => none
  | some x =>
    match decodeBytes (bytesOfWord x) with
    | .ok (i, _) => some i
    | .error _ => none

end Sys2Proof
end

