-- ==== Sys2Proof/Config.lean ====
section
/-! DEFINITION. The implementation parameters of 00_scope.md R8. -/

namespace Sys2Proof

/-- The one parameter the spec leaves OPEN for the block itself: `NLIMBS` (R8).
State holds it, because PARAM reads it back, and no step changes it (10_state.md R39).
Its value is in no definition: statements hold for every value (log 1, DESIGN CHOICE). -/
structure Config where
  nlimbs : Nat
deriving DecidableEq, Repr

/-- The magnitude width `W = 32 * NLIMBS` (R8). -/
def Config.width (c : Config) : Nat := 32 * c.nlimbs

/-- The range R8 gives: `1 <= NLIMBS <= 1024`. -/
def Config.legal (c : Config) : Bool := decide (1 ≤ c.nlimbs) && decide (c.nlimbs ≤ 1024)

/-- The default the spec gives: `NLIMBS = 64` (R8), which State.reset takes (log 1). -/
def Config.standard : Config := ⟨64⟩

/-- `ROUNDS` reset value 28 (R8, 10_state.md R30). -/
def Config.resetRounds : Word := 28#32

/-- `PARAM.VERSION` = 1 (R8, 10_state.md R31). -/
def Config.version : Nat := 1

/-- `PARAM.NREGS` = 16 (R8, 10_state.md R31). -/
def Config.nregs : Nat := 16

end Sys2Proof
end

