-- ==== Sys2Proof/Machine/State.lean ====
section
/-! DEFINITION. The state of the block (10_state.md R20) as plain data, the outcomes of a step that are no next
state, and the state after reset (R38). -/

namespace Sys2Proof.Machine

/-- No event of the spec stops the machine: errors are completions (60_exceptions.md R203), refused accesses are
answers (20_memory.md R57), a hang keeps BUSY = 1 and is a next state (70_reset_and_hazards.md R243).
So there is no fault, and the type is empty. -/
inductive Fault where
deriving DecidableEq, Repr

/-- Why a step gives no meaning. -/
inductive Refusal where
  /-- Raised by exec alone, for an instruction that has no meaning in this model yet (none today). Safe: the
  model stops where the hardware goes on. -/
  | notModelled (mnemonic : String)
deriving DecidableEq, Repr

/-- A big register: a sign bit and a magnitude (R21). The magnitude is a number, and the invariant
`State.regsInRange` keeps it below `2^W` (log 10). -/
structure BigReg where
  sign : Bool
  mag  : Nat
deriving DecidableEq, Repr

/-- The error codes of STATUS.ERR (60_exceptions.md R200). Codes 6 to 15 are never produced, so they have no name. -/
inductive ErrCode where
  | noError
  | illegalCommand
  | invalidModulus
  | notInvertible
  | operandRange
  | overflow
deriving DecidableEq, Repr

/-- The fields of STATUS (R27). BUSY is also the engine phase (R37). The reserved bits read 0 and have no storage. -/
structure Status where
  busy   : Bool
  done   : Bool
  accErr : Bool
  err    : ErrCode
deriving DecidableEq, Repr

/-- The fields of FLAGS (R29). -/
structure Flags where
  eq    : Bool
  lt    : Bool
  gt    : Bool
  prime : Bool
deriving DecidableEq, Repr

/-- The working registers of MODEXP: result, base, exponent, modulus (R35, 42_modular_exponentiation.md R120). -/
structure ModExpRegs where
  res : Nat
  b   : Nat
  e   : Nat
  m   : Nat
deriving DecidableEq, Repr

/-- The working registers of EGCD and MODINV: remainders, two coefficient pairs, quotient (R35,
43_extended_gcd_modinv.md R135). -/
structure EgcdRegs where
  oldR : Nat
  r    : Nat
  oldS : Int
  s    : Int
  oldT : Int
  t    : Int
  q    : Nat
deriving DecidableEq, Repr

/-- The working registers of MRTEST (R35, 44_miller_rabin.md R157 to R160). `i` counts the rounds already passed;
`c` and `l` are the partial candidate of DrawWitness and the number of words taken for it, the engine's position
inside that loop (R37, log 9). -/
structure MrRegs where
  n  : Nat
  r  : Nat
  s  : Nat
  a  : Nat
  xw : Nat
  i  : Nat
  j  : Nat
  c  : Nat
  l  : Nat
deriving DecidableEq, Repr

/-- All working registers, with the product register `P` (R35, 41_bigint_multiplier.md R114). -/
structure Work where
  modexp : ModExpRegs
  egcd   : EgcdRegs
  mr     : MrRegs
  p      : Nat
deriving DecidableEq, Repr

/-- The answer word of a bus access (20_memory.md R55, R56). -/
inductive Response where
  | ok
  | err
deriving DecidableEq, Repr

/-- What the block answered to a host access: a read returns data too (R55), a write does not (R56). -/
inductive Answer where
  | read (resp : Response) (data : Word)
  | write (resp : Response)
deriving DecidableEq, Repr

/-- What can happen next (00_scope.md R10, R19). The list of these in State is the model's own: it says in which
order the host, the RNG source, the environment and the engine act (log 3). -/
inductive Event where
  /-- The host reads `n` bytes at `addr` (R55). -/
  | memRead (addr : Addr) (n : Nat)
  /-- The host writes `n` bytes at `addr` (R56). -/
  | memWrite (addr : Addr) (n : Nat) (v : Word)
  /-- The RNG source offers one more word (10_state.md R36, 60_exceptions.md R213). -/
  | rngOffer (w : Word)
  /-- The engine goes on: the completion of the running command, or its wait for RNG words. -/
  | engine
  /-- Reset (70_reset_and_hazards.md R230). -/
  | reset
deriving DecidableEq, Repr

/-- The complete state of the block (R20), and the model's own fields at its end. -/
structure State where
  /-- The parameter NLIMBS (R8, R31, R39); no step changes it (log 1). -/
  cfg      : Config
  /-- B0 to B15 (R21). -/
  regs     : Vector BigReg 16
  /-- CMD, the latched command word (R26). -/
  cmd      : Word
  /-- STATUS (R27). -/
  status   : Status
  /-- CTRL.IE (R28). -/
  ie       : Bool
  /-- FLAGS (R29). -/
  flags    : Flags
  /-- ROUNDS (R30). -/
  rounds   : Word
  /-- `rounds_l`, the round count latched at acceptance (R34). -/
  roundsL  : Word
  /-- The working registers and the product register (R35). -/
  work     : Work
  /-- The position of the next unconsumed word of the witness word stream (R36). -/
  rngpos   : Nat
  /-- The words the RNG source has offered and the engine has not taken, next word first (R36, R213, log 2). -/
  rngQueue : List Word
  /-- The model's own: what happens next, first event first (log 3). -/
  events   : List Event
  /-- The model's own: the answer to the latest host access, if there was one (R55, R56, R68, log 7). -/
  bus      : Option Answer
deriving DecidableEq, Repr

/-- The working registers of State.reset. The spec leaves them unspecified and no rule reads one before it is
written (R35, R38): DESIGN CHOICE 0 (log 6). -/
def Work.zero : Work where
  modexp := { res := 0, b := 0, e := 0, m := 0 }
  egcd := { oldR := 0, r := 0, oldS := 0, s := 0, oldT := 0, t := 0, q := 0 }
  mr := { n := 0, r := 0, s := 0, a := 0, xw := 0, i := 0, j := 0, c := 0, l := 0 }
  p := 0

/-- The state right after reset, in the initial state of a run (R38). -/
def State.reset : State where
  cfg := Config.standard
  regs := Vector.replicate 16 { sign := false, mag := 0 }
  cmd := 0#32
  status := { busy := false, done := false, accErr := false, err := .noError }
  ie := false
  flags := { eq := false, lt := false, gt := false, prime := false }
  rounds := Config.resetRounds
  roundsL := 0#32
  work := Work.zero
  rngpos := 0
  rngQueue := []
  events := []
  bus := none

end Sys2Proof.Machine
end

