-- ==== Sys2Proof/Machine/Ops.lean ====
section
/-! DEFINITION. The named operations over the registers: reading and writing big registers, the word views of the
CSRs, acceptance of a command, its two kinds of completion, the acknowledgement, the RNG port and reset. -/

namespace Sys2Proof.Machine

/-! ### Big registers (10_state.md R21 to R23, 20_memory.md R52) -/

/-- The value of a big register as a signed integer; a zero magnitude reads as 0 under either sign (R21, R23). -/
def BigReg.value (r : BigReg) : Int := if r.sign then -(r.mag : Int) else (r.mag : Int)

/-- The contents that `x[i] <- v` stores: `mag = abs(v)`, `sign = 1` exactly for a negative `v` (R22). -/
def BigReg.ofInt (v : Int) : BigReg := { sign := decide (v < 0), mag := v.natAbs }

/-- Limb `i` of a magnitude, bits `32*i+31` to `32*i`, limb 0 the least significant (R52, R53). -/
def BigReg.limb (r : BigReg) (i : Nat) : Word := BitVec.ofNat 32 (r.mag / 2 ^ (32 * i))

/-- Replace exactly limb `i` (R52): the bits below, the new limb, the bits above. The sign stays. -/
def BigReg.setLimb (r : BigReg) (i : Nat) (v : Word) : BigReg :=
  { r with mag := r.mag % 2 ^ (32 * i) + v.toNat * 2 ^ (32 * i) + r.mag / 2 ^ (32 * (i + 1)) * 2 ^ (32 * (i + 1)) }

/-- The contents of big register `Bk`. -/
def State.reg (s : State) (k : RegNum) : BigReg := s.regs[k]

/-- Replace the contents of big register `Bk`. -/
def State.setReg (s : State) (k : RegNum) (r : BigReg) : State := { s with regs := s.regs.set k r }

/-- `x[k]` read (00_scope.md R13). -/
def State.x (s : State) (k : RegNum) : Int := (s.reg k).value

/-- `x[k] <- v` (R13, R22). The rule asks for `abs(v) < 2^W`; the commands only write such values (log 10). -/
def State.writeX (s : State) (k : RegNum) (v : Int) : State := s.setReg k (BigReg.ofInt v)

/-- The magnitude width W of this block (R8). -/
def State.width (s : State) : Nat := s.cfg.width

/-! ### Word views of the CSRs (10_state.md R25 to R32, 20_memory.md R55) -/

/-- The 4-bit code of STATUS.ERR (60_exceptions.md R200). -/
def ErrCode.code : ErrCode → Nat
  | .noError => 0
  | .illegalCommand => 1
  | .invalidModulus => 2
  | .notInvertible => 3
  | .operandRange => 4
  | .overflow => 5

/-- STATUS as it is read: BUSY bit 0, DONE bit 1, ACCERR bit 2, ERR bits 11:8, the rest 0 (R27). -/
def Status.word (t : Status) : Word :=
  BitVec.ofNat 32 (t.busy.toNat + 2 * t.done.toNat + 4 * t.accErr.toNat + 256 * t.err.code)

/-- CTRL as it is read: IE bit 0, the rest 0 (R28). -/
def ctrlWord (ie : Bool) : Word := BitVec.ofNat 32 ie.toNat

/-- FLAGS as it is read: EQ bit 0, LT bit 1, GT bit 2, PRIME bit 3, the rest 0 (R29). -/
def Flags.word (f : Flags) : Word :=
  BitVec.ofNat 32 (f.eq.toNat + 2 * f.lt.toNat + 4 * f.gt.toNat + 8 * f.prime.toNat)

/-- The number whose bit `i` is the sign of the `i`-th register of the list. -/
def signBits : List BigReg → Nat
  | [] => 0
  | r :: rs => r.sign.toNat + 2 * signBits rs

/-- SIGN as it is read: bit `i` is `Bi.sign`, bits 31:16 are 0 (R32). -/
def State.signWord (s : State) : Word := BitVec.ofNat 32 (signBits s.regs.toList)

/-- The sixteen registers with their sign bits taken from data bits 15:0 (R32). -/
@[irreducible] def signedRegs (regs : Vector BigReg 16) (v : Word) : Vector BigReg 16 :=
  Vector.ofFn fun k => { regs[k] with sign := v.getLsbD k.val }

/-- A write of SIGN sets all sixteen sign bits from data bits 15:0 (R32). -/
def State.setSigns (s : State) (v : Word) : State := { s with regs := signedRegs s.regs v }

/-- PARAM: version, register count, NLIMBS (R31). -/
def paramWord (c : Config) : Word :=
  BitVec.ofNat 32 (Config.version * 2 ^ 24 + Config.nregs * 2 ^ 16 + c.nlimbs % 2 ^ 16)

/-- The interrupt output `irq = CTRL.IE and STATUS.DONE`, a level (60_exceptions.md R207). -/
def State.irq (s : State) : Bool := s.ie && s.status.done

/-! ### The life of a command (60_exceptions.md R201 to R203, R208) -/

/-- Acceptance of a command word (R201, 10_state.md R26, R34): CMD and `rounds_l` are latched, BUSY is set, DONE and
ERR are cleared. MRTEST's position is put at its start, since a command initialises its working registers before
it reads them (R35, log 9). -/
def State.accept (s : State) (v : Word) : State :=
  { s with
    cmd := v
    roundsL := s.rounds
    status := { s.status with busy := true, done := false, err := .noError }
    work := { s.work with mr := { s.work.mr with i := 0, c := 0, l := 0 } } }

/-- Normal completion, the rule's `done` (R202): ERR 0, DONE 1, BUSY 0. The destination and flag writes of the same
event stand before it in each meaning. -/
def State.finish (s : State) : State :=
  { s with status := { s.status with busy := false, done := true, err := .noError } }

/-- Error completion, the rule's `raise` (R203, 00_scope.md R15): ERR gets the code, DONE 1, BUSY 0, nothing else. -/
def State.raise (s : State) (e : ErrCode) : State :=
  { s with status := { s.status with busy := false, done := true, err := e } }

/-- The return from a completion is the host's acknowledgement, a STATUS write (R208): a written 1 in bit 1 clears
DONE and a written 1 in bit 2 clears ACCERR, all other written bits are ignored (10_state.md R27). -/
def State.acknowledge (s : State) (v : Word) : State :=
  { s with
    status := { s.status with
      done := s.status.done && !v.getLsbD 1
      accErr := s.status.accErr && !v.getLsbD 2 } }

/-- A refused bus access sets ACCERR and nothing else (20_memory.md R57). -/
def State.refuseAccess (s : State) : State := { s with status := { s.status with accErr := true } }

/-! ### The RNG port and reset -/

/-- The RNG source offers one more word (60_exceptions.md R213). -/
def State.offerWord (s : State) (w : Word) : State := { s with rngQueue := s.rngQueue ++ [w] }

/-- Reset (70_reset_and_hazards.md R230, R232): every register takes its reset value. The stream position, and the
words the source has offered and the block has not taken, belong to the source and stay (10_state.md R36, R38); the
working registers are not reset (R35, log 6); the parameter and the rest of the event list are no registers. -/
def State.applyReset (s : State) : State :=
  { State.reset with
    cfg := s.cfg
    work := s.work
    rngpos := s.rngpos
    rngQueue := s.rngQueue
    events := s.events }

end Sys2Proof.Machine
end

