-- ==== Sys2Proof/Machine/Operands.lean ====
section
/-! DEFINITION. The operand form and the shared arithmetic primitives: register operands (30_encoding.md R82, R83),
`bitlen` (00_scope.md R12), MulExact, DivMod and MulMod (41_bigint_multiplier.md R110, R113, R114), and the operand
checks of 60_exceptions.md R205. -/

namespace Sys2Proof.Machine

/-- `bitlen(v)` for `v >= 0` (R12): the number of binary digits, 0 for 0. -/
def bitlen (v : Nat) : Nat := if v = 0 then 0 else Nat.log2 v + 1

/-- `ceil(a / b)` for positive `b` (R12). -/
def ceilDiv (a b : Nat) : Nat := (a + b - 1) / b

/-- `MulExact(u, v)`, the exact signed product (R110). -/
def mulExact (u v : Int) : Int := u * v

/-- Does a value fit `W` magnitude bits (10_state.md R22)? -/
def State.fits (s : State) (v : Int) : Bool := decide (v.natAbs < 2 ^ s.width)

/-- `DivMod(u, m)` for `u >= 0`, `m > 0` (R113). -/
def divMod (u m : Nat) : Nat × Nat := (u / m, u % m)

/-- `MulMod(u, v, m)` (R114): the product goes to `P`, and the result is `P mod m`. -/
def mulMod (u v m : Nat) (w : Work) : Nat × Work := (u * v % m, { w with p := u * v })

/-- The modulus check: `x[k] <= 0` is InvalidModulus (42_modular_exponentiation.md R124, 43_extended_gcd_modinv.md R143). -/
def State.badModulus (s : State) (k : RegNum) : Bool := decide (s.x k ≤ 0)

/-- The range check: `x[k] < 0` is OperandRange (42_modular_exponentiation.md R125, 43_extended_gcd_modinv.md R137). -/
def State.negative (s : State) (k : RegNum) : Bool := decide (s.x k < 0)

/-- The value of a register operand that passed the range check, as a natural number. -/
def State.xNat (s : State) (k : RegNum) : Nat := (s.x k).toNat

end Sys2Proof.Machine
end

