-- ==== Sys2Proof/Machine/Flags.lean ====
section
/-! DEFINITION. The comparison function of 40_bigint_comparator.md R100 and every flag write of 10_state.md R29. -/

namespace Sys2Proof.Machine

/-- The three answers of `Compare` (R100). -/
inductive Cmp where
  | lt
  | eq
  | gt
deriving DecidableEq, Repr

/-- Unsigned comparison of two magnitudes (R100). -/
def compareMag (a b : Nat) : Cmp := if a < b then .lt else if a = b then .eq else .gt

/-- The answer with the operands' order turned round. -/
def Cmp.reverse : Cmp → Cmp
  | .lt => .gt
  | .eq => .eq
  | .gt => .lt

/-- `Compare` on sign-magnitude operands, as R100 says it: a zero magnitude counts as sign 0; with different signs
the negative one is smaller; two non-negative operands compare by magnitude, two negative ones the other way round. -/
def compareRegs (a b : BigReg) : Cmp :=
  let sa := a.sign && decide (a.mag ≠ 0)
  let sb := b.sign && decide (b.mag ≠ 0)
  match sa, sb with
  | true, false => .lt
  | false, true => .gt
  | false, false => compareMag a.mag b.mag
  | true, true => (compareMag a.mag b.mag).reverse

/-- CMP writes EQ, LT and GT, exactly one of them 1, and leaves PRIME (R29, R101). -/
def Flags.setCompare (f : Flags) (c : Cmp) : Flags :=
  { f with eq := decide (c = .eq), lt := decide (c = .lt), gt := decide (c = .gt) }

/-- MRTEST writes PRIME and leaves EQ, LT and GT (R29, 44_miller_rabin.md R160). -/
def Flags.setPrime (f : Flags) (b : Bool) : Flags := { f with prime := b }

/-- The flag write of a completing CMP. -/
def State.setCompare (s : State) (c : Cmp) : State := { s with flags := s.flags.setCompare c }

/-- The flag write of a completing MRTEST. -/
def State.setPrime (s : State) (b : Bool) : State := { s with flags := s.flags.setPrime b }

end Sys2Proof.Machine
end

