-- ==== Sys2Proof/Machine/Comparator.lean ====
section
/-! DEFINITION. CMP (40_bigint_comparator.md R101). -/

namespace Sys2Proof.Machine

/-- CMP: `c = Compare(x[ra], x[rb])`, the three flags, `done` (R101). -/
def execCmp (ra rb : RegNum) (s : State) : Host.Outcome State Fault Refusal :=
  .next (s.setCompare (compareRegs (s.reg ra) (s.reg rb))).finish

end Sys2Proof.Machine
end

