-- ==== Sys2Proof/Machine/ExtendedGcd.lean ====
section
/-! DEFINITION. The extended GCD and modular inverse unit: EGCD and MODINV (43_extended_gcd_modinv.md). -/

namespace Sys2Proof.Machine

/-- The start values of `ExtGcd(a, b)` (R135); the quotient register has no value yet and keeps its old one. -/
def egcdInit (a b : Nat) (w : Work) : Work :=
  { w with egcd := { w.egcd with oldR := a, r := b, oldS := 1, s := 0, oldT := 0, t := 1 } }

/-- One iteration of the loop of R135: one quotient, and the three pair assignments from the values before it. -/
def egcdStep (w : Work) : Work :=
  let x := w.egcd
  let (q, rem) := divMod x.oldR x.r
  { w with egcd :=
    { oldR := x.r, r := rem
      oldS := x.s, s := x.oldS - (q : Int) * x.s
      oldT := x.t, t := x.oldT - (q : Int) * x.t
      q := q } }

/-- At most `k` iterations of `while r != 0` (R135). -/
def egcdLoop : Nat → Work → Work
  | 0, w => w
  | k + 1, w => if w.egcd.r ≠ 0 then egcdLoop k (egcdStep w) else w

/-- `ExtGcd(a, b)` (R135); its result is the triple `oldR`, `oldS`, `oldT`. `r` starts at `b` and falls in every
iteration (R138), so `b` iterations are enough. -/
def extGcd (a b : Nat) (w : Work) : Work := egcdLoop b (egcdInit a b w)

/-- EGCD: the destination constraint (R87), the range check (R137), then the triple to `rg`, `rx`, `ry` (R136).
The decoder never gives a term with two equal destinations; such a term is IllegalCommand, as its word is (log 11). -/
def execEgcd (rg rx ry ra rb : RegNum) (s : State) : Host.Outcome State Fault Refusal :=
  if (Instr.egcd rg rx ry ra rb).wellFormed then
    if s.negative ra || s.negative rb then .next (s.raise .operandRange)
    else
      let w := extGcd (s.xNat ra) (s.xNat rb) s.work
      .next (((({ s with work := w }).writeX rg (w.egcd.oldR : Int)).writeX rx w.egcd.oldS).writeX ry w.egcd.oldT).finish
  else .next (s.raise .illegalCommand)

/-- MODINV: the modulus check (R143), the range check (R137), the loop with `a` first and the modulus second;
NotInvertible where the gcd is not 1 (R142), else `x[rd] <- (xc + m) mod m` (R140, R141). -/
def execModinv (rd ra rb : RegNum) (s : State) : Host.Outcome State Fault Refusal :=
  if s.badModulus rb then .next (s.raise .invalidModulus)
  else if s.negative ra then .next (s.raise .operandRange)
  else
    let w := extGcd (s.xNat ra) (s.xNat rb) s.work
    let s1 : State := { s with work := w }
    if w.egcd.oldR ≠ 1 then .next (s1.raise .notInvertible)
    else .next (s1.writeX rd ((w.egcd.oldS + s.x rb) % s.x rb)).finish

end Sys2Proof.Machine
end

