-- ==== Sys2Proof/Machine/ModExp.lean ====
section
/-! DEFINITION. The modular exponentiation engine and MODEXP (42_modular_exponentiation.md). -/

namespace Sys2Proof.Machine

/-- The start of `ModExp`: `m`, `b`, `e` from the arguments and `res = 1 mod m` (R120, R123). -/
def modExpInit (base exponent modulus : Nat) (w : Work) : Work :=
  { w with modexp := { res := 1 % modulus, b := base, e := exponent, m := modulus } }

/-- One iteration of the loop of R120: the conditional multiply with the not yet squared `b`, the squaring, the shift. -/
def modExpStep (w : Work) : Work :=
  let x := w.modexp
  let (res, w1) := if x.e % 2 = 1 then mulMod x.res x.b x.m w else (x.res, w)
  let (b, w2) := mulMod x.b x.b x.m w1
  { w2 with modexp := { res := res, b := b, e := x.e / 2, m := x.m } }

/-- At most `k` iterations of `while e > 0` (R120). -/
def modExpLoop : Nat → Work → Work
  | 0, w => w
  | k + 1, w => if 0 < w.modexp.e then modExpLoop k (modExpStep w) else w

/-- `ModExp(base, exponent, modulus)` (R120); its result is the register `res`. `bitlen(exponent)` iterations are
exactly what the loop takes (R127). -/
def modExp (base exponent modulus : Nat) (w : Work) : Work :=
  modExpLoop (bitlen exponent) (modExpInit base exponent modulus w)

/-- MODEXP: the modulus check, the range check, then `x[rd] <- ModExp(x[ra], x[rb], x[rc])` (R121, R124, R125). -/
def execModexp (rd ra rb rc : RegNum) (s : State) : Host.Outcome State Fault Refusal :=
  if s.badModulus rc then .next (s.raise .invalidModulus)
  else if s.negative ra || s.negative rb then .next (s.raise .operandRange)
  else
    let w := modExp (s.xNat ra) (s.xNat rb) (s.xNat rc) s.work
    .next (({ s with work := w }).writeX rd (w.modexp.res : Int)).finish

end Sys2Proof.Machine
end

