-- ==== Sys2Proof/Machine/MillerRabin.lean ====
section
/-! DEFINITION. The Miller-Rabin sequencer and MRTEST (44_miller_rabin.md). The RNG port gives words one at a time
(10_state.md R36); the test runs until it has an answer or needs a word the source has not offered (log 5). -/

namespace Sys2Proof.Machine

/-- At most `k` iterations of `while even(s): s = s >> 1; r = r + 1` (R157). -/
def decomposeLoop : Nat → MrRegs → MrRegs
  | 0, m => m
  | k + 1, m => if m.s % 2 = 0 then decomposeLoop k { m with s := m.s / 2, r := m.r + 1 } else m

/-- `n`, and `n - 1 = 2^r * s` with `s` odd (R157), for `n >= 2`. -/
def decompose (n : Nat) (m : MrRegs) : MrRegs :=
  decomposeLoop (bitlen (n - 1)) { m with n := n, r := 0, s := n - 1 }

/-- `k = bitlen(n - 1)` of DrawWitness (R158). -/
def witnessBits (n : Nat) : Nat := bitlen (n - 1)

/-- `L = ceil(k / 32)`, the words of one candidate (R158). -/
def witnessWords (n : Nat) : Nat := ceilDiv (witnessBits n) 32

/-- The search over `j` of R159, `k = r - j` values of `j` still to try: stop at the first `xw = n - 1`; square only
where another `j` follows. -/
def searchLoop : Nat → Work → Work × Bool
  | 0, w => (w, false)
  | k + 1, w =>
    if w.mr.xw = w.mr.n - 1 then (w, true)
    else
      let (xw, w1) := if w.mr.j < w.mr.r - 1 then mulMod w.mr.xw w.mr.xw w.mr.n w else (w.mr.xw, w)
      searchLoop k { w1 with mr := { w1.mr with xw := xw, j := w.mr.j + 1 } }

/-- One round after its witness `a` is drawn (R159): true for `pass`, false for `composite`. -/
def round (a : Nat) (w : Work) : Work × Bool :=
  let w1 := modExp a w.mr.s w.mr.n { w with mr := { w.mr with a := a } }
  let w2 := { w1 with mr := { w1.mr with xw := w1.modexp.res, j := 0 } }
  if w2.mr.xw = 1 then (w2, true) else searchLoop w2.mr.r w2

/-- The round of an accepted witness `a`: `composite` ends the test with false, the last of `rounds` passes ends it
with true (R160, R161). -/
def playRound (rounds a : Nat) (w : Work) : Work × Option Bool :=
  let (w1, pass) := round a w
  if pass then
    let w2 := { w1 with mr := { w1.mr with i := w1.mr.i + 1 } }
    if rounds ≤ w2.mr.i then (w2, some true) else (w2, none)
  else (w1, some false)

/-- A complete candidate `c` (R158): keep its low `k` bits; outside `1 .. n-1` it is discarded, else it is the witness
of a round. -/
def takeCandidate (rounds : Nat) (w : Work) : Work × Option Bool :=
  let c := w.mr.c % 2 ^ witnessBits w.mr.n
  let w1 := { w with mr := { w.mr with c := 0, l := 0 } }
  if 1 ≤ c ∧ c ≤ w.mr.n - 1 then playRound rounds c w1 else (w1, none)

/-- One `rng()` word `x` inside DrawWitness (R158): `c = c + x * 2^(32*l)`, the first word the least significant. -/
def takeWord (rounds : Nat) (x : Word) (w : Work) : Work × Option Bool :=
  let w1 := { w with mr := { w.mr with c := w.mr.c + x.toNat * 2 ^ (32 * w.mr.l), l := w.mr.l + 1 } }
  if w1.mr.l < witnessWords w1.mr.n then (w1, none) else takeCandidate rounds w1

/-- Where the rounds have got to: the working registers, the words left, how many were taken, and the answer if the
test has one. -/
structure MrProgress where
  work   : Work
  rest   : List Word
  used   : Nat
  answer : Option Bool
deriving DecidableEq, Repr

/-- The rounds over the words that are offered (R160): a word is taken only while the test has no answer, in stream
order, none skipped and none read ahead (R163). -/
def runRounds (rounds : Nat) : List Word → Work → MrProgress
  | [], w => { work := w, rest := [], used := 0, answer := none }
  | x :: q, w =>
    match takeWord rounds x w with
    | (w1, some b) => { work := w1, rest := q, used := 1, answer := some b }
    | (w1, none) =>
      let m := runRounds rounds q w1
      { m with used := m.used + 1 }

/-- The completion of MRTEST: `FLAGS.PRIME <- b; done` (R160). -/
def State.answerPrime (s : State) (b : Bool) : State := (s.setPrime b).finish

/-- MRTEST (R160): the early decisions in their order (R156), the decomposition (R157), then the rounds. With all
rounds passed already (`rounds_l = 0`, R162) the answer is true. Where the offered words end before the test has an
answer the engine waits: BUSY stays 1 and the position is kept (R166, 70_reset_and_hazards.md R243). -/
def execMrtest (ra : RegNum) (s : State) : Host.Outcome State Fault Refusal :=
  let n := s.x ra
  if n < 2 then .next (s.answerPrime false)
  else if n = 2 then .next (s.answerPrime true)
  else if n % 2 = 0 then .next (s.answerPrime false)
  else
    let w := { s.work with mr := decompose n.toNat s.work.mr }
    if s.roundsL.toNat ≤ w.mr.i then .next (({ s with work := w }).answerPrime true)
    else
      let m := runRounds s.roundsL.toNat s.rngQueue w
      let s1 := { s with work := m.work, rngQueue := m.rest, rngpos := s.rngpos + m.used }
      match m.answer with
      | some b => .next (s1.answerPrime b)
      | none => .next s1

end Sys2Proof.Machine
end

