-- ==== Sys2Proof/Machine/Multiplier.lean ====
section
/-! DEFINITION. MUL (41_bigint_multiplier.md R111, R112). -/

namespace Sys2Proof.Machine

/-- MUL: the exact product, Overflow where its magnitude needs more than W bits, else `x[rd] <- p` (R111). -/
def execMul (rd ra rb : RegNum) (s : State) : Host.Outcome State Fault Refusal :=
  let p := mulExact (s.x ra) (s.x rb)
  if s.fits p then .next (s.writeX rd p).finish else .next (s.raise .overflow)

end Sys2Proof.Machine
end

