-- ==== Sys2Proof/Machine/Dispatch.lean ====
section
/-! DEFINITION. One arm per command of 30_encoding.md R84. -/

namespace Sys2Proof.Machine

def exec (i : Instr) (s : State) : Host.Outcome State Fault Refusal :=
  match i with
  | .cmp ra rb => Sys2Proof.Machine.execCmp ra rb s
  | .mul rd ra rb => Sys2Proof.Machine.execMul rd ra rb s
  | .modexp rd ra rb rc => Sys2Proof.Machine.execModexp rd ra rb rc s
  | .egcd rg rx ry ra rb => Sys2Proof.Machine.execEgcd rg rx ry ra rb s
  | .modinv rd ra rb => Sys2Proof.Machine.execModinv rd ra rb s
  | .mrtest ra => Sys2Proof.Machine.execMrtest ra s

end Sys2Proof.Machine
end

