-- ==== Sys2Proof/Machine/RegisterMap.lean ====
section
/-! DEFINITION. The register map and the host's two access primitives (20_memory.md R50 to R60). -/

namespace Sys2Proof.Machine

/-- What an aligned address reaches (R51). -/
inductive Target where
  | cmd
  | status
  | ctrl
  | flags
  | rounds
  | sign
  | param
  | limb (k : RegNum) (i : Nat)
  | unmapped
deriving DecidableEq, Repr

/-- The map of R51 on aligned addresses; a limb index `i >= NLIMBS` is unmapped. -/
def mapTarget (c : Config) (addr : Addr) : Target :=
  let a := addr.toNat
  if a = 0x00000 then .cmd
  else if a = 0x00004 then .status
  else if a = 0x00008 then .ctrl
  else if a = 0x0000C then .flags
  else if a = 0x00010 then .rounds
  else if a = 0x00014 then .sign
  else if a = 0x00018 then .param
  else if a < 0x10000 then .unmapped
  else
    let i := a % 0x1000 / 4
    if i < c.nlimbs then .limb (Fin.ofNat 16 (a / 0x1000)) i else .unmapped

/-- What an address reaches on this block. -/
def State.target (s : State) (addr : Addr) : Target := mapTarget s.cfg addr

/-- `LimbAddr(k, i) = 0x10000 + 0x1000*k + 4*i` (R52). -/
def limbAddr (k : RegNum) (i : Nat) : Addr := BitVec.ofNat 17 (0x10000 + 0x1000 * k.val + 4 * i)

/-- Every access is 4 bytes at a multiple of 4 (R54). -/
def accessForm (addr : Addr) (n : Nat) : Bool := decide (n = 4) && decide (addr.toNat % 4 = 0)

/-- Reads the engine's ownership refuses while BUSY: the limbs (R55, R57 (d)). -/
def Target.readOwned : Target → Bool
  | .limb _ _ => true
  | .cmd => false
  | .status => false
  | .ctrl => false
  | .flags => false
  | .rounds => false
  | .sign => false
  | .param => false
  | .unmapped => false

/-- Writes the engine's ownership refuses while BUSY: CMD, SIGN and the limbs (R56, R57 (d) to (f)). -/
def Target.writeOwned : Target → Bool
  | .limb _ _ => true
  | .cmd => true
  | .sign => true
  | .status => false
  | .ctrl => false
  | .flags => false
  | .rounds => false
  | .param => false
  | .unmapped => false

/-- Is a read answered ERR? The complete list of R57, for reads. -/
def State.readRefused (s : State) (addr : Addr) (n : Nat) : Bool :=
  !accessForm addr n || decide (s.target addr = .unmapped) || (s.status.busy && (s.target addr).readOwned)

/-- Is a write answered ERR? The complete list of R57, for writes. -/
def State.writeRefused (s : State) (addr : Addr) (n : Nat) : Bool :=
  !accessForm addr n || decide (s.target addr = .unmapped) || (s.status.busy && (s.target addr).writeOwned)

/-- The data of a read answered OK (R55). An unmapped target is never read with OK; its data is 0. -/
def State.readTarget (s : State) : Target → Word
  | .cmd => s.cmd
  | .status => s.status.word
  | .ctrl => ctrlWord s.ie
  | .flags => s.flags.word
  | .rounds => s.rounds
  | .sign => s.signWord
  | .param => paramWord s.cfg
  | .limb k i => (s.reg k).limb i
  | .unmapped => 0#32

/-- The effect of a write answered OK (R56): read-only registers ignore it. -/
def State.writeTarget (s : State) (v : Word) : Target → State
  | .cmd => s.accept v
  | .status => s.acknowledge v
  | .ctrl => { s with ie := v.getLsbD 0 }
  | .flags => s
  | .rounds => { s with rounds := v }
  | .sign => s.setSigns v
  | .param => s
  | .limb k i => s.setReg k ((s.reg k).setLimb i v)
  | .unmapped => s

/-- Put the answer where the host sees it (log 7). -/
def State.answer (s : State) (a : Answer) : State := { s with bus := some a }

/-- `MemRead(addr, n)` (R55): an OK read changes nothing, a refused one sets ACCERR and gives data 0. -/
def State.memRead (s : State) (addr : Addr) (n : Nat) : State :=
  if s.readRefused addr n then s.refuseAccess.answer (.read .err 0#32)
  else s.answer (.read .ok (s.readTarget (s.target addr)))

/-- `MemWrite(addr, n, v)` (R56). -/
def State.memWrite (s : State) (addr : Addr) (n : Nat) (v : Word) : State :=
  if s.writeRefused addr n then s.refuseAccess.answer (.write .err)
  else (s.writeTarget v (s.target addr)).answer (.write .ok)

end Sys2Proof.Machine
end

