-- ==== Sys2Proof/Machine/Engine.lean ====
section
/-! DEFINITION. The engine's event (the latched command runs) and the events of the host, the RNG source and the
environment (00_scope.md R10, R19). -/

namespace Sys2Proof.Machine

/-- The engine goes on (10_state.md R34, R37). While BUSY it runs the latched word: `Decode` gives a command, or the
word is illegal and is completed with IllegalCommand (30_encoding.md R86). While IDLE it waits for the next CMD write
and changes nothing (60_exceptions.md R216, 70_reset_and_hazards.md R234). -/
def engineEvent (s : State) : Host.Outcome State Fault Refusal :=
  if s.status.busy then
    match Sys2Proof.decode s.cmd with
    | .ok i => exec i s
    | .error _ => .next (s.raise .illegalCommand)
  else .next s

/-- One atomic event (R10, 20_memory.md R62). -/
def applyEvent (e : Event) (s : State) : Host.Outcome State Fault Refusal :=
  match e with
  | .memRead addr n => .next (s.memRead addr n)
  | .memWrite addr n v => .next (s.memWrite addr n v)
  | .rngOffer w => .next (s.offerWord w)
  | .engine => engineEvent s
  | .reset => .next s.applyReset

/-- The first event of the list happens; with none listed the engine goes on (log 3). -/
def nextEvent (s : State) : Host.Outcome State Fault Refusal :=
  match s.events with
  | [] => engineEvent s
  | e :: rest => applyEvent e { s with events := rest }

/-- The state with a command word loaded so that the very next event runs it: the accepted CMD write (R201) and the
engine's turn at the head of the event list (log 4). -/
def State.loadCommand (s : State) (v : Word) : State :=
  { s.accept v with events := .engine :: s.events }

end Sys2Proof.Machine
end

