-- ==== Sys2Proof/Machine/Step.lean ====
section
/-! DEFINITION. One step of the machine is one event (00_scope.md R10), and how a command word is placed. -/

namespace Sys2Proof.Machine

/-- One step: the next event of the run. -/
def step (s : State) : Host.Outcome State Fault Refusal := nextEvent s

/-- The state with a table word stored where the next step runs it: the block fetches nothing, its command comes with
an accepted CMD write (10_state.md R24, R26, log 4). -/
def State.withFetchWord (s : State) (nbits w : Nat) : State :=
  s.loadCommand (BitVec.ofNat 32 (w % 2 ^ nbits))

end Sys2Proof.Machine
end

