-- ==== Sys2Proof/Machine/HostSequences.lean ====
section
/-! DEFINITION. Host software beside the block: the pseudo-instructions of 30_encoding.md R90 and the host programs of
45_host_sequences.md. Nothing here is called by a step (00_scope.md R6, log 16). -/

namespace Sys2Proof.Machine

/-! ### Pseudo-instructions (R90) -/

/-- The data of the latest read, 0 where the latest access was no read. -/
def busData : Option Answer → Word
  | some (.read _ d) => d
  | some (.write _) => 0#32
  | none => 0#32

/-- `WR addr, v`. -/
def State.wr (s : State) (addr : Addr) (v : Word) : State := s.memWrite addr 4 v

/-- `RD addr`: the data, and the state after the access. -/
def State.rd (s : State) (addr : Addr) : Word × State :=
  let t := s.memRead addr 4
  (busData t.bus, t)

/-- `(abs(v) div 2^(32*i)) mod 2^32`, the word SETBIG writes to limb `i`. -/
def limbOf (v : Int) (i : Nat) : Word := BitVec.ofNat 32 (v.natAbs / 2 ^ (32 * i))

/-- The first `n` limb writes of SETBIG. -/
def State.setLimbs (s : State) (k : RegNum) (v : Int) : Nat → State
  | 0 => s
  | i + 1 => (s.setLimbs k v i).wr (limbAddr k i) (limbOf v i)

/-- A SIGN word with bit `k` put to `b`. -/
def withSign (w : Word) (k : RegNum) (b : Bool) : Word :=
  let bit : Word := BitVec.ofNat 32 (2 ^ k.val)
  if b then w ||| bit else w &&& ~~~bit

/-- `SETBIG Bk, v`: every limb, then SIGN read, changed in bit `k` and written back. -/
def State.setBig (s : State) (k : RegNum) (v : Int) : State :=
  let s1 := s.setLimbs k v s.cfg.nlimbs
  let (w, s2) := s1.rd 0x00014#17
  s2.wr 0x00014#17 (withSign w k (decide (v < 0)))

/-- The first `n` limb reads of GETBIG: the number they make, and the state after them. -/
def State.getLimbs (s : State) (k : RegNum) : Nat → Nat × State
  | 0 => (0, s)
  | i + 1 =>
    let (m, s1) := s.getLimbs k i
    let (d, s2) := s1.rd (limbAddr k i)
    (m + d.toNat * 2 ^ (32 * i), s2)

/-- `GETBIG Bk`: the limbs, then bit `k` of SIGN. -/
def State.getBig (s : State) (k : RegNum) : Int × State :=
  let (m, s1) := s.getLimbs k s.cfg.nlimbs
  let (w, s2) := s1.rd 0x00014#17
  (if w.getLsbD k.val then -(m : Int) else (m : Int), s2)

/-- `ISSUE <command>`. -/
def State.issue (s : State) (i : Instr) : State := s.wr 0x00000#17 (Sys2Proof.encode i)

/-- `ACK`. -/
def State.ack (s : State) : State := s.wr 0x00004#17 0x00000002#32

/-- What a host program has come to: its answer, none while it still waits for the block or for a random integer of
its own source, and in both cases the state it has brought the block to (log 16). -/
abbrev HostProgress (α : Type) : Type := Option α × State

/-- Go on with the answer of one part of a host program; a part without one ends there, in the state it reached. -/
def andThen {α β : Type} (p : HostProgress α) (f : α → State → HostProgress β) : HostProgress β :=
  match p with
  | (some a, t) => f a t
  | (none, t) => (none, t)

/-- The engine's turn between two host accesses. No turn ends in a fault or a refusal; the two arms keep the state, so
that BUSY would still be 1. -/
def State.engineTurn (s : State) : State :=
  match engineEvent s with
  | .next t => t
  | .fault _ => s
  | .refused _ => s

/-- `RUN <command>`: ISSUE, then WAIT until a STATUS read shows BUSY = 0; its result is that STATUS value.
Where the command has not completed with the RNG words offered so far the host is still in WAIT: there is no result
yet, and the state is that of the running command, with CMD latched, BUSY = 1 and the words taken (R243). -/
def State.run (s : State) (i : Instr) : HostProgress Word :=
  let (w, t) := (s.issue i).engineTurn.rd 0x00004#17
  (if w.getLsbD 0 then none else some w, t)

/-- The ERR field of a STATUS value (10_state.md R27). -/
def errField (w : Word) : Nat := w.toNat / 2 ^ 8 % 2 ^ 4

/-! ### generateKeyPair (45_host_sequences.md R181 to R190, R193) -/

/-- The public exponent 65537 (R182). -/
def publicExponent : Nat := 65537

/-- A prime candidate of `s` bits from the host's random integer `r`: the two highest bits and the lowest bit forced
to 1 (R181). -/
def candidateOf (s r : Nat) : Nat := r % 2 ^ s ||| 2 ^ (s - 1) ||| 2 ^ (s - 2) ||| 1

/-- What the key generator has come to. -/
inductive KeyResult where
  /-- R190: `bits < 4`, signalled before any command is issued. -/
  | degenerateKeySize
  /-- `bits > W`: R183 requires `bits <= W` and does not say what a host does otherwise. DESIGN CHOICE (log 16): it is
  signalled like the other unusable size, before any command is issued. -/
  | keySizeAboveWidth
  /-- The search goes on: the host's random integers given so far are used up, or the command the block runs has not
  completed (R188). The state beside it is the one reached. -/
  | searching
  /-- The key pair `public: (n, e)`, `private: (n, d)`, with `e = 65537` (R182). -/
  | keyPair (n d : Nat)
deriving DecidableEq, Repr

/-- `FindPrime(s, Bk)` of R193: candidates until one passes MRTEST and is not 1 modulo 65537 (R185, R186).
The answer is the prime and the random integers left.
R193's comment beside RUN MRTEST says ROUNDS = 28, the value ROUNDS has after reset (R38), and its program writes no
ROUNDS. DESIGN CHOICE (log 23): the host neither writes nor checks ROUNDS; MRTEST makes as many rounds as it holds. -/
def State.findPrime (size : Nat) (k : RegNum) : List Nat → State → HostProgress (Nat × List Nat)
  | [], s => (none, s)
  | r :: rs, s =>
    let c := candidateOf size r
    andThen ((s.setBig k (c : Int)).run (.mrtest k)) fun _ s1 =>
      let (f1, s2) := s1.rd 0x0000C#17
      if f1.getLsbD 3 then
        andThen (s2.run (.modexp 13 k 14 15)) fun _ s3 =>
          andThen (s3.run (.cmp 13 14)) fun _ s4 =>
            let (f2, s5) := s4.rd 0x0000C#17
            if f2.getLsbD 0 then State.findPrime size k rs s5 else (some (c, rs), s5)
      else State.findPrime size k rs s2

/-- `repeat: q = FindPrime(s2, B1); RUN CMP B1, B0 until FLAGS.EQ = 0` (R187, R193), at most `fuel` times. -/
def State.findOther (size : Nat) : Nat → List Nat → State → HostProgress (Nat × List Nat)
  | 0, _, s => (none, s)
  | fuel + 1, rs, s =>
    andThen (State.findPrime size 1 rs s) fun (q, rs1) s1 =>
      andThen (s1.run (.cmp 1 0)) fun _ s2 =>
        let (f, s3) := s2.rd 0x0000C#17
        if f.getLsbD 0 then State.findOther size fuel rs1 s3 else (some (q, rs1), s3)

/-- One pass from `restart` of R193, and the restart on NotInvertible (R189), at most `fuel` times: the answer is
`n` and `d`. For `bits <= W` both products fit their registers and the modulus is above 0, so that NotInvertible is the
only error a command of the pass can end with. -/
def State.keyPass (size1 size2 : Nat) : Nat → List Nat → State → HostProgress (Nat × Nat)
  | 0, _, s => (none, s)
  | fuel + 1, rs, s =>
    andThen (State.findPrime size1 0 rs s) fun (p, rs1) s1 =>
      andThen (State.findOther size2 (rs1.length + 1) rs1 s1) fun (q, rs2) s2 =>
        andThen (s2.run (.mul 2 0 1)) fun _ s3 =>
          andThen (((s3.setBig 3 ((p : Int) - 1)).setBig 4 ((q : Int) - 1)).run (.mul 5 3 4)) fun _ s4 =>
            andThen (s4.run (.modinv 6 15 5)) fun st s5 =>
              if errField st = 3 then State.keyPass size1 size2 fuel rs2 s5.ack
              else
                let (n, s6) := s5.getBig 2
                let (d, s7) := s6.getBig 6
                (some (n.toNat, d.toNat), s7)

/-- `GenerateKeyPair(bits)` of R193 on an idle block, with the random integers the host's own source gives (R184).
Sizes outside `4 .. W` are signalled before any command is issued (R190, R183). The key's primes pass the 28 rounds of
R193's comment where ROUNDS holds 28 at the start, as after reset (log 23). -/
def State.generateKeyPair (s : State) (bits : Nat) (randoms : List Nat) : KeyResult × State :=
  if bits < 4 then (.degenerateKeySize, s)
  else if s.width < bits then (.keySizeAboveWidth, s)
  else
    match State.keyPass (bits / 2) (bits - bits / 2) (randoms.length + 1) randoms
      ((s.setBig 15 (publicExponent : Int)).setBig 14 1) with
    | (some (n, d), t) => (.keyPair n d, t)
    | (none, t) => (.searching, t)

/-! ### signDigest (45_host_sequences.md R191) -/

/-- The value of a hexadecimal digit. -/
def hexDigit (c : Char) : Option Nat :=
  if '0' ≤ c ∧ c ≤ '9' then some (c.toNat - '0'.toNat)
  else if 'a' ≤ c ∧ c ≤ 'f' then some (c.toNat - 'a'.toNat + 10)
  else if 'A' ≤ c ∧ c ≤ 'F' then some (c.toNat - 'A'.toNat + 10)
  else none

/-- A digit string read as base 16, most significant digit first (R191, 20_memory.md R53); both cases of the letters
are taken and no digit at all is 0 (log 22). -/
def hexValue : List Char → Nat → Option Nat
  | [], acc => some acc
  | c :: cs, acc =>
    match hexDigit c with
    | none => none
    | some d => hexValue cs (16 * acc + d)

/-- What signDigest has come to. R191 names the result alone; the others are the model's (log 22). -/
inductive SignResult where
  /-- The string holds a character that is no hexadecimal digit. No access is made. -/
  | notHexadecimal
  /-- The digest's value, the exponent or the modulus needs more than W magnitude bits, so that no register of this
  block holds it. No access is made. -/
  | argumentTooWide
  /-- The command ended with this error code: 2 for a modulus not above 0, 4 for a negative exponent (R124, R125). -/
  | commandError (code : Nat)
  /-- The command has not completed. -/
  | waiting
  /-- The result as a lowercase hexadecimal string behind the prefix. -/
  | signature (text : String)
deriving DecidableEq, Repr

/-- `signDigest(digestHex, modulus, exponent)` on an idle block: one MODEXP with the digest as base, the result in
lowercase hexadecimal behind the prefix the host's convention dictates (R191, U17).

THIS IS NOT A CRYPTOGRAPHICALLY SOUND SIGNATURE OPERATION: no padding, no domain separation, a toy primitive (R191,
R192).

R191 names no registers. DESIGN CHOICE (log 21): B0 holds the digest, B1 the exponent, B2 the modulus, B3 the result.
An argument of `2^W` or more is not loaded cut: the host signals it before any access (log 22). -/
def State.signDigest (s : State) (hexPrefix digestHex : String) (modulus exponent : Int) : SignResult × State :=
  match hexValue digestHex.toList 0 with
  | none => (.notHexadecimal, s)
  | some v =>
    if 2 ^ s.width ≤ v ∨ 2 ^ s.width ≤ exponent.natAbs ∨ 2 ^ s.width ≤ modulus.natAbs then (.argumentTooWide, s)
    else
      match (((s.setBig 0 (v : Int)).setBig 1 exponent).setBig 2 modulus).run (.modexp 3 0 1 2) with
      | (none, t) => (.waiting, t)
      | (some st, t) =>
        if errField st = 0 then
          let (r, u) := t.getBig 3
          (.signature (hexPrefix ++ String.ofList (Nat.toDigits 16 r.toNat)), u)
        else (.commandError (errField st), t)

end Sys2Proof.Machine
end

