-- ==== Sys2Proof/Safety.lean ====
section
/-! DEFINITION. The terms statements about this machine are made in: the invariant of a run (10_state.md), and the
Miller-Rabin test of 44_miller_rabin.md as relations on a word stream, apart from the machine's own functions. -/

namespace Sys2Proof.Machine

/-- Every magnitude is below `2^W` (R21): the width of the sixteen big registers. -/
abbrev State.regsInRange (s : State) : Prop := ∀ k : RegNum, (s.reg k).mag < 2 ^ s.width

/-- `BUSY` and `DONE` are never both 1, and ERR reads 0 while a command runs (R26, R27). -/
abbrev State.statusLegal (s : State) : Prop :=
  ¬(s.status.busy = true ∧ s.status.done = true) ∧ (s.status.busy = true → s.status.err = .noError)

/-- At most one of EQ, LT, GT is 1: all 0 before the first CMP, exactly one 1 after it (R29). -/
abbrev Flags.legal (f : Flags) : Prop := f.eq.toNat + f.lt.toNat + f.gt.toNat ≤ 1

/-- MODEXP's working registers and the product register fit their widths (R35, 42_modular_exponentiation.md R122). -/
abbrev Work.modexpInRange (w : Work) (width : Nat) : Prop :=
  w.modexp.res < 2 ^ width ∧ w.modexp.b < 2 ^ width ∧ w.modexp.e < 2 ^ width ∧ w.modexp.m < 2 ^ width ∧
    w.p < 2 ^ (2 * width)

/-- The working registers of EGCD and MODINV fit W magnitude bits and a sign (R35, 43_extended_gcd_modinv.md R139). -/
abbrev Work.egcdInRange (w : Work) (width : Nat) : Prop :=
  w.egcd.oldR < 2 ^ width ∧ w.egcd.r < 2 ^ width ∧ w.egcd.q < 2 ^ width ∧
    w.egcd.oldS.natAbs < 2 ^ width ∧ w.egcd.s.natAbs < 2 ^ width ∧
    w.egcd.oldT.natAbs < 2 ^ width ∧ w.egcd.t.natAbs < 2 ^ width

/-- MRTEST's working registers fit their widths, and its partial candidate holds the words taken (R35, R157, R158). -/
abbrev Work.mrInRange (w : Work) (c : Config) : Prop :=
  w.mr.n < 2 ^ c.width ∧ w.mr.s < 2 ^ c.width ∧ w.mr.a < 2 ^ c.width ∧ w.mr.xw < 2 ^ c.width ∧
    w.mr.r < 2 ^ 32 ∧ w.mr.j < 2 ^ 32 ∧ w.mr.i < 2 ^ 32 ∧
    w.mr.c < 2 ^ (32 * w.mr.l) ∧ w.mr.l < c.nlimbs

/-- All working registers fit the hardware widths (R35). -/
abbrev Work.inRange (w : Work) (c : Config) : Prop :=
  w.modexpInRange c.width ∧ w.egcdInRange c.width ∧ w.mrInRange c

/-- The invariant of a run. -/
structure State.Inv (s : State) : Prop where
  cfg : s.cfg.legal = true
  regs : s.regsInRange
  status : s.statusLegal
  flags : s.flags.legal
  work : s.work.inRange s.cfg

/-! ### What a command leaves alone -/

/-- What no command changes (60_exceptions.md R202, R203): the parameter, CMD, CTRL, ROUNDS, the latched round count,
ACCERR, and the model's own event list and bus answer. -/
structure SameControl (s t : State) : Prop where
  cfg : t.cfg = s.cfg
  cmd : t.cmd = s.cmd
  ie : t.ie = s.ie
  rounds : t.rounds = s.rounds
  roundsL : t.roundsL = s.roundsL
  accErr : t.status.accErr = s.status.accErr
  events : t.events = s.events
  bus : t.bus = s.bus

/-- The position in the witness word stream and the words offered are as before (10_state.md R36). -/
structure SameStream (s t : State) : Prop where
  rngpos : t.rngpos = s.rngpos
  rngQueue : t.rngQueue = s.rngQueue

/-- The STATUS fields of a completion with error code `e` (R202, R203). -/
structure Completed (t : State) (e : ErrCode) : Prop where
  busy : t.status.busy = false
  done : t.status.done = true
  err : t.status.err = e

/-- Every big register but those of the list is as before. -/
abbrev SameRegsBut (ks : List RegNum) (s t : State) : Prop := ∀ k, k ∉ ks → t.reg k = s.reg k

/-- An error completion (R203): STATUS gets the code, and no big register, no sign bit, no flag, no control register and
no RNG word changes. -/
structure ErrorCompletion (s t : State) (e : ErrCode) : Prop where
  completed : Completed t e
  regs : t.regs = s.regs
  flags : t.flags = s.flags
  control : SameControl s t
  stream : SameStream s t

/-- The triple of the extended Euclidean algorithm in the recursive form of 43_extended_gcd_modinv.md R145:
`E(a, 0) = (a, 1, 0)`; for `b > 0`, with `(g, x1, y1) = E(b, a mod b)`, `E(a, b) = (g, y1, x1 - (a div b) * y1)`. -/
inductive EuclidTriple : Nat → Nat → Nat → Int → Int → Prop where
  | base (a : Nat) : EuclidTriple a 0 a 1 0
  | step (a b g : Nat) (x1 y1 : Int) :
      0 < b → EuclidTriple b (a % b) g x1 y1 → EuclidTriple a b g y1 (x1 - ((a / b : Nat) : Int) * y1)

/-! ### Events and host accesses -/

/-- The engine has the turn: the event list is empty, or the engine's event is its first. -/
abbrev EngineTurn (s : State) : Prop := s.events = [] ∨ ∃ rest, s.events = .engine :: rest

/-- The event list once the engine has had its turn. -/
def eventsAfterEngine : List Event → List Event
  | [] => []
  | _ :: rest => rest

/-- An aligned address that the map of 20_memory.md R51 does not list. -/
abbrev Unmapped (c : Config) (addr : Addr) : Prop :=
  (0x0001C ≤ addr.toNat ∧ addr.toNat < 0x10000) ∨ (0x10000 ≤ addr.toNat ∧ c.nlimbs ≤ addr.toNat % 0x1000 / 4)

/-- An aligned address of a limb (R51, R52). -/
abbrev LimbAddress (c : Config) (addr : Addr) : Prop :=
  0x10000 ≤ addr.toNat ∧ addr.toNat % 0x1000 / 4 < c.nlimbs

/-- A host read of `addr` as the next event is answered OK with data that meets `P`, and changes nothing else (R55, R60). -/
def ReadGives (s : State) (addr : Addr) (P : Word → Prop) : Prop :=
  ∀ rest, s.events = .memRead addr 4 :: rest →
    ∃ d, P d ∧ step s = .next { s with events := rest, bus := some (.read .ok d) }

/-- A host write of `v` to `addr` as the next event is answered OK and gives the state `t`, but for the event taken and
the answer (R56). -/
def WriteGives (s : State) (addr : Addr) (v : Word) (t : State) : Prop :=
  ∀ rest, s.events = .memWrite addr 4 v :: rest →
    step s = .next { t with events := rest, bus := some (.write .ok) }

/-! ### The Miller-Rabin test -/

/-- MRTEST stands at its start, as acceptance leaves it (log 9). -/
abbrev State.mrFresh (s : State) : Prop := s.work.mr.i = 0 ∧ s.work.mr.c = 0 ∧ s.work.mr.l = 0

/-- `n - 1 = 2^r * s` with `s` odd (44_miller_rabin.md R157). -/
abbrev Decomposed (n r s : Nat) : Prop := n - 1 = 2 ^ r * s ∧ s % 2 = 1

/-- The witness `a` does not disprove that `n` is prime, in the words of R159: `a^s mod n` is 1, or
`a^(2^j * s) mod n = n - 1` for some `j` in `[0, r-1]`. -/
def WitnessPasses (n a : Nat) : Prop :=
  ∃ r s, Decomposed n r s ∧ (a ^ s % n = 1 ∨ ∃ j, j < r ∧ a ^ (2 ^ j * s) % n = n - 1)

/-- The number the words of a list make, the first word the least significant (R158). -/
def wordsValue : List Word → Nat
  | [] => 0
  | w :: ws => w.toNat + 2 ^ 32 * wordsValue ws

/-- The candidate that `L` words make: the low `k` bits (R158). -/
def candidateValue (n : Nat) (ws : List Word) : Nat := wordsValue ws % 2 ^ bitlen (n - 1)

/-- `L = ceil(k / 32)` with `k = bitlen(n - 1)` (R158). -/
def candidateWords (n : Nat) : Nat := (bitlen (n - 1) + 31) / 32

/-- `DrawWitness(n)` on a word stream (R158): `Draws n q a q'` says that the words of `q` give the witness `a` and
leave `q'`. -/
inductive Draws (n : Nat) : List Word → Nat → List Word → Prop where
  | accept (ws q : List Word) :
      ws.length = candidateWords n → 1 ≤ candidateValue n ws → candidateValue n ws ≤ n - 1 →
      Draws n (ws ++ q) (candidateValue n ws) q
  | reject (ws q q' : List Word) (a : Nat) :
      ws.length = candidateWords n → ¬(1 ≤ candidateValue n ws ∧ candidateValue n ws ≤ n - 1) →
      Draws n q a q' → Draws n (ws ++ q) a q'

/-- The rounds of R160 and R161 on a word stream: `Rounds n k q b q'` says that `k` rounds on the words of `q` give the
answer `b` and leave `q'`. -/
inductive Rounds (n : Nat) : Nat → List Word → Bool → List Word → Prop where
  | none (q : List Word) : Rounds n 0 q true q
  | composite (k : Nat) (q q' : List Word) (a : Nat) :
      Draws n q a q' → ¬WitnessPasses n a → Rounds n (k + 1) q false q'
  | pass (k : Nat) (q q' q'' : List Word) (a : Nat) (b : Bool) :
      Draws n q a q' → WitnessPasses n a → Rounds n k q' b q'' → Rounds n (k + 1) q b q''

/-- No attempt of DrawWitness on these words is accepted: they are a sequence of whole rejected candidates
(70_reset_and_hazards.md R243 (b)). -/
inductive AllRejected (n : Nat) : List Word → Prop where
  | nil : AllRejected n []
  | cons (ws q : List Word) :
      ws.length = candidateWords n → ¬(1 ≤ candidateValue n ws ∧ candidateValue n ws ≤ n - 1) →
      AllRejected n q → AllRejected n (ws ++ q)

end Sys2Proof.Machine
end

