-- ==== Sys2Proof/Certificates/Slice0/Obligations.lean ====
section
/-! DEFINITION. The statements about this machine that are to be proved. -/

open Sys2Proof Sys2Proof.Machine

/-! ### Encoding (30_encoding.md) -/

/-- R84, R91: decoding the word of a well-formed command gives the command back, with every operand. -/
def Obligations.DecodeOfEncodeIsTheCommand : Prop :=
  ∀ i : Instr, i.wellFormed = true → decode (encode i) = .ok i

/-- R84, R86, R91: a word that decodes to a command is the word of that command, and the command is well-formed. -/
def Obligations.EncodeOfDecodeIsTheWord : Prop :=
  ∀ (w : Word) (i : Instr), decode w = .ok i → encode i = w ∧ i.wellFormed = true

/-- R84, R87: a word is a command exactly when `w and mask = match` (for EGCD with three different destination fields). -/
def Obligations.CommandsAreTheMaskedWords : Prop :=
  ∀ w : Word,
    ((∃ ra rb, decode w = .ok (.cmp ra rb)) ↔ w &&& 0xFF00FFFF#32 = 0x01000000#32) ∧
    ((∃ rd ra rb, decode w = .ok (.mul rd ra rb)) ↔ w &&& 0xFF000FFF#32 = 0x02000000#32) ∧
    ((∃ rd ra rb rc, decode w = .ok (.modexp rd ra rb rc)) ↔ w &&& 0xFF0000FF#32 = 0x03000000#32) ∧
    ((∃ rg rx ry ra rb, decode w = .ok (.egcd rg rx ry ra rb)) ↔
      w &&& 0xFF00000F#32 = 0x04000000#32 ∧
        (w >>> 20) &&& 0xF#32 ≠ (w >>> 16) &&& 0xF#32 ∧
        (w >>> 20) &&& 0xF#32 ≠ (w >>> 12) &&& 0xF#32 ∧
        (w >>> 16) &&& 0xF#32 ≠ (w >>> 12) &&& 0xF#32) ∧
    ((∃ rd ra rb, decode w = .ok (.modinv rd ra rb)) ↔ w &&& 0xFF000FFF#32 = 0x05000000#32) ∧
    ((∃ ra, decode w = .ok (.mrtest ra)) ↔ w &&& 0xFF0FFFFF#32 = 0x06000000#32)

/-- A few command words written out from R84 and the examples of the command files, and illegal words of R85 to R87. -/
def Obligations.WrittenOutWordsDecode : Prop :=
  decode 0x01010000#32 = .ok (.cmp 0 1) ∧
  decode 0x02201000#32 = .ok (.mul 2 0 1) ∧
  decode 0x03301200#32 = .ok (.modexp 3 0 1 2) ∧
  decode 0x04012340#32 = .ok (.egcd 0 1 2 3 4) ∧
  decode 0x05201000#32 = .ok (.modinv 2 0 1) ∧
  decode 0x06100000#32 = .ok (.mrtest 1) ∧
  decode 0x00000000#32 = .error (.unknownOpcode 0) ∧
  decode 0x01010001#32 = .error (.reservedBits 1) ∧
  decode 0x04002340#32 = .error (.equalDestinations 0 0 2)

/-! ### The step -/

/-- While a command runs and the engine has the turn, a step is `exec` of the decoded command, after the engine's event
is taken from the list (10_state.md R34, R37; 60_exceptions.md R202). The event list, and that an empty one gives the
engine the turn, are the model's choice (log 3). -/
def Obligations.StepRunsTheDecodedCommand : Prop :=
  ∀ (s : State) (i : Instr), EngineTurn s → s.status.busy = true → decode s.cmd = .ok i →
    step s = exec i { s with events := eventsAfterEngine s.events }

/-- A command word placed by withFetchWord is what the next step runs: as after the accepted CMD write (R26, R201).
Placing a word so is the model's choice (log 4). -/
def Obligations.PlacedCommandRunsNext : Prop :=
  ∀ (s : State) (i : Instr), i.wellFormed = true →
    step (s.withFetchWord 32 (encode i).toNat) = exec i (s.accept (encode i))

/-- R85 to R87, R91: an illegal word that has been accepted is completed by the engine with IllegalCommand, and no
register, flag or RNG word changes. -/
def Obligations.IllegalWordEndsWithIllegalCommand : Prop :=
  ∀ (s : State) (r : Reject), EngineTurn s → s.status.busy = true → decode s.cmd = .error r →
    ∃ t, step s = .next t ∧
      ErrorCompletion { s with events := eventsAfterEngine s.events } t .illegalCommand

/-- An idle engine that has the turn waits: the step changes nothing but that an engine event is taken from the list
(60_exceptions.md R216, 70_reset_and_hazards.md R234; the event list is the model's choice, log 3). -/
def Obligations.IdleEngineWaits : Prop :=
  ∀ s : State, EngineTurn s → s.status.busy = false → step s = .next { s with events := eventsAfterEngine s.events }

/-- Every step answers a next state: no word makes the machine stop (30_encoding.md R86), an error is a completion
(R203), a refused access an answer (R57). The rest is the model's form: with an empty list, or while idle, the engine's
turn is a step (log 3), and an MRTEST that waits for words, which R243 calls stuck, is a next state with BUSY = 1
(log 5). -/
def Obligations.EveryStepGoesOn : Prop := ∀ s : State, ∃ t, step s = .next t

/-! ### CMP (40_bigint_comparator.md) -/

/-- R100, R101: CMP completes on every state; EQ, LT, GT are the signed comparison, PRIME and every register stay. -/
def Obligations.CmpWritesTheSignedComparison : Prop :=
  ∀ (ra rb : RegNum) (s : State), ∃ t, exec (.cmp ra rb) s = .next t ∧
    t.flags = { s.flags with
      eq := decide (s.x ra = s.x rb), lt := decide (s.x ra < s.x rb), gt := decide (s.x rb < s.x ra) } ∧
    t.regs = s.regs ∧ Completed t .noError ∧ SameControl s t ∧ SameStream s t

/-- R103: the laws of Compare, and exactly one flag after a completed CMP. -/
def Obligations.CompareLaws : Prop :=
  (∀ a : BigReg, compareRegs a a = .eq) ∧
  (∀ a b : BigReg, compareRegs a b = .lt ↔ compareRegs b a = .gt) ∧
  (∀ (a b c : BigReg) (o : Cmp), compareRegs a b = o → compareRegs b c = o → compareRegs a c = o) ∧
  (∀ (ra rb : RegNum) (s t : State), exec (.cmp ra rb) s = .next t →
    t.flags.eq.toNat + t.flags.lt.toNat + t.flags.gt.toNat = 1)

/-! ### MUL (41_bigint_multiplier.md) -/

/-- R111: where the exact product fits W magnitude bits, MUL completes and writes it; nothing else changes. -/
def Obligations.MulWritesTheExactProduct : Prop :=
  ∀ (rd ra rb : RegNum) (s : State), (s.x ra * s.x rb).natAbs < 2 ^ s.width →
    ∃ t, exec (.mul rd ra rb) s = .next t ∧ t.x rd = s.x ra * s.x rb ∧
      ((t.reg rd).sign = true ↔ s.x ra * s.x rb < 0) ∧ SameRegsBut [rd] s t ∧ t.flags = s.flags ∧
      Completed t .noError ∧ SameControl s t ∧ SameStream s t

/-- R112: where the exact product needs more than W magnitude bits, MUL ends with Overflow and writes nothing; it ends
with Overflow in no other case; and the two sums of bit lengths that decide it without the product. -/
def Obligations.MulOverflows : Prop :=
  (∀ (rd ra rb : RegNum) (s : State), 2 ^ s.width ≤ (s.x ra * s.x rb).natAbs →
    ∃ t, exec (.mul rd ra rb) s = .next t ∧ ErrorCompletion s t .overflow) ∧
  (∀ (rd ra rb : RegNum) (s t : State), exec (.mul rd ra rb) s = .next t →
    (t.status.err = .overflow ↔ 2 ^ s.width ≤ (s.x ra * s.x rb).natAbs)) ∧
  (∀ (rd ra rb : RegNum) (s t : State), bitlen (s.x ra).natAbs + bitlen (s.x rb).natAbs ≤ s.width →
    exec (.mul rd ra rb) s = .next t → t.status.err = .noError) ∧
  (∀ (rd ra rb : RegNum) (s t : State), s.regsInRange →
    s.width + 2 ≤ bitlen (s.x ra).natAbs + bitlen (s.x rb).natAbs →
    exec (.mul rd ra rb) s = .next t → t.status.err = .overflow)

/-- R115: MUL is commutative in its sources; after a normal MUL the destination is the product, and 0 exactly when a
source is 0; an overflowing MUL leaves the register file, SIGN and FLAGS as they were. -/
def Obligations.MulLaws : Prop :=
  (∀ (rd ra rb : RegNum) (s : State), exec (.mul rd ra rb) s = exec (.mul rd rb ra) s) ∧
  (∀ (rd ra rb : RegNum) (s t : State), exec (.mul rd ra rb) s = .next t → t.status.err = .noError →
    t.x rd = s.x ra * s.x rb ∧ (t.x rd = 0 ↔ s.x ra = 0 ∨ s.x rb = 0)) ∧
  (∀ (rd ra rb : RegNum) (s t : State), exec (.mul rd ra rb) s = .next t → t.status.err = .overflow →
    t.regs = s.regs ∧ t.signWord = s.signWord ∧ t.flags = s.flags)

/-! ### MODEXP (42_modular_exponentiation.md) -/

/-- R121, R123, R126: with a modulus above 0, a base and an exponent not negative, MODEXP completes and writes
`base^exponent mod modulus`, with sign bit 0; nothing else changes. -/
def Obligations.ModexpWritesThePowerResidue : Prop :=
  ∀ (rd ra rb rc : RegNum) (s : State), 0 < s.x rc → 0 ≤ s.x ra → 0 ≤ s.x rb →
    ∃ t, exec (.modexp rd ra rb rc) s = .next t ∧ t.x rd = s.x ra ^ (s.x rb).toNat % s.x rc ∧
      (t.reg rd).sign = false ∧ SameRegsBut [rd] s t ∧ t.flags = s.flags ∧
      Completed t .noError ∧ SameControl s t ∧ SameStream s t

/-- R126: for every modulus above 0 the engine's function is `(base^exponent) mod modulus`, the unique value in
`0 .. modulus-1`, with `base^0 = 1` for every base. -/
def Obligations.ModExpIsThePowerResidue : Prop :=
  ∀ (b e m : Nat) (w : Work), 0 < m →
    (modExp b e m w).modexp.res = b ^ e % m ∧ (modExp b e m w).modexp.res < m

/-- R127: the loop of R120 runs exactly `bitlen(exponent)` times: the exponent is above 0 before each of these
iterations and 0 after them. -/
def Obligations.ModExpRunsBitlenIterations : Prop :=
  ∀ (b e m : Nat) (w : Work),
    (∀ k, k < bitlen e → 0 < (modExpLoop k (modExpInit b e m w)).modexp.e) ∧
    (∀ k, bitlen e ≤ k → modExpLoop k (modExpInit b e m w) = modExp b e m w) ∧
    (modExp b e m w).modexp.e = 0

/-- R122: at every point of the loop the working registers fit W bits and the product fits P; from the first
reduction on `res` is below the modulus, from the first squaring on `b` is. MODEXP never raises Overflow. -/
def Obligations.ModexpNeverOverflows : Prop :=
  (∀ (b e m width k : Nat) (w : Work), b < 2 ^ width → e < 2 ^ width → 0 < m → m < 2 ^ width → w.p < 2 ^ (2 * width) →
    (modExpLoop k (modExpInit b e m w)).modexpInRange width ∧
    (modExpLoop k (modExpInit b e m w)).modexp.e ≤ e ∧
    (modExpLoop k (modExpInit b e m w)).modexp.res < m ∧
    (0 < k → e ≠ 0 → (modExpLoop k (modExpInit b e m w)).modexp.b < m)) ∧
  (∀ (rd ra rb rc : RegNum) (s t : State), exec (.modexp rd ra rb rc) s = .next t → t.status.err ≠ .overflow)

/-! ### EGCD and MODINV (43_extended_gcd_modinv.md) -/

/-- R136, R145: with operands not negative, EGCD completes and writes the triple of the extended Euclidean algorithm to
its three destinations, each with sign bit 1 exactly for a negative value (R22: a zero has sign 0); nothing else
changes. -/
def Obligations.EgcdWritesTheEuclidTriple : Prop :=
  ∀ (rg rx ry ra rb : RegNum) (s : State), (Instr.egcd rg rx ry ra rb).wellFormed = true → 0 ≤ s.x ra → 0 ≤ s.x rb →
    ∃ t, exec (.egcd rg rx ry ra rb) s = .next t ∧
      EuclidTriple (s.x ra).toNat (s.x rb).toNat (t.x rg).toNat (t.x rx) (t.x ry) ∧ 0 ≤ t.x rg ∧
      (t.reg rg).sign = false ∧ ((t.reg rx).sign = true ↔ t.x rx < 0) ∧ ((t.reg ry).sign = true ↔ t.x ry < 0) ∧
      SameRegsBut [rg, rx, ry] s t ∧ t.flags = s.flags ∧
      Completed t .noError ∧ SameControl s t ∧ SameStream s t

/-- R138 (a), (b): the values EGCD writes satisfy the Bézout identity, and the first is the greatest common divisor. -/
def Obligations.EgcdGivesBezoutCoefficients : Prop :=
  ∀ (rg rx ry ra rb : RegNum) (s t : State), exec (.egcd rg rx ry ra rb) s = .next t → t.status.err = .noError →
    t.x rg = s.x ra * t.x rx + s.x rb * t.x ry ∧ t.x rg = (Int.gcd (s.x ra) (s.x rb) : Int)

/-- R138: the laws of ExtGcd: the identity, the gcd with its three zero cases, and the end of the loop, whose
remainder falls and stays non-negative. -/
def Obligations.ExtGcdLaws : Prop :=
  (∀ (a b : Nat) (w : Work),
    ((extGcd a b w).egcd.oldR : Int) = a * (extGcd a b w).egcd.oldS + b * (extGcd a b w).egcd.oldT ∧
    (extGcd a b w).egcd.oldR = Nat.gcd a b ∧ (extGcd a b w).egcd.r = 0) ∧
  (∀ (a : Nat) (w : Work), (extGcd a 0 w).egcd.oldR = a ∧ (extGcd 0 a w).egcd.oldR = a) ∧
  (∀ w : Work, w.egcd.r ≠ 0 → (egcdStep w).egcd.r < w.egcd.r)

/-- R139: at every point of the loop the coefficients and remainders are bounded, and so is the quotient once the loop
has divided; until then, and for `b = 0` always, the quotient register keeps its old value (the model's choice,
log 20). -/
def Obligations.ExtGcdCoefficientsAreBounded : Prop :=
  ∀ (a b k : Nat) (w : Work),
    (egcdLoop k (egcdInit a b w)).egcd.oldS.natAbs ≤ max 1 b ∧ (egcdLoop k (egcdInit a b w)).egcd.s.natAbs ≤ max 1 b ∧
    (egcdLoop k (egcdInit a b w)).egcd.oldT.natAbs ≤ max 1 a ∧ (egcdLoop k (egcdInit a b w)).egcd.t.natAbs ≤ max 1 a ∧
    (egcdLoop k (egcdInit a b w)).egcd.oldR ≤ max a b ∧ (egcdLoop k (egcdInit a b w)).egcd.r ≤ max a b ∧
    (0 < k → b ≠ 0 → (egcdLoop k (egcdInit a b w)).egcd.q ≤ max a b) ∧
    (k = 0 ∨ b = 0 → (egcdLoop k (egcdInit a b w)).egcd.q = w.egcd.q)

/-- R145: the loop of R135 gives the triple of the recursive form, which is unique. -/
def Obligations.ExtGcdLoopIsTheRecursion : Prop :=
  (∀ (a b : Nat) (w : Work),
    EuclidTriple a b (extGcd a b w).egcd.oldR (extGcd a b w).egcd.oldS (extGcd a b w).egcd.oldT) ∧
  (∀ (a b g g' : Nat) (x x' y y' : Int), EuclidTriple a b g x y → EuclidTriple a b g' x' y' →
    g = g' ∧ x = x' ∧ y = y')

/-- R140, R141: with a modulus above 0, a value not negative and gcd 1, MODINV completes and writes the inverse, the
only value in `0 .. m-1` whose product with `a` is 1 modulo `m`; nothing else changes. -/
def Obligations.ModinvWritesTheInverse : Prop :=
  ∀ (rd ra rb : RegNum) (s : State), 0 < s.x rb → 0 ≤ s.x ra → Int.gcd (s.x ra) (s.x rb) = 1 →
    ∃ t, exec (.modinv rd ra rb) s = .next t ∧
      0 ≤ t.x rd ∧ t.x rd < s.x rb ∧ s.x ra * t.x rd % s.x rb = 1 % s.x rb ∧
      (∀ y : Int, 0 ≤ y → y < s.x rb → s.x ra * y % s.x rb = 1 % s.x rb → y = t.x rd) ∧
      (t.reg rd).sign = false ∧ SameRegsBut [rd] s t ∧ t.flags = s.flags ∧
      Completed t .noError ∧ SameControl s t ∧ SameStream s t

/-! ### MRTEST (44_miller_rabin.md) -/

/-- R156: the early decisions, in their order and before any word is drawn; MRTEST completes with them. -/
def Obligations.MrtestEarlyDecisions : Prop :=
  ∀ (ra : RegNum) (s : State), (s.x ra < 2 ∨ s.x ra = 2 ∨ s.x ra % 2 = 0) →
    ∃ t, exec (.mrtest ra) s = .next t ∧ t.flags = { s.flags with prime := decide (s.x ra = 2) } ∧
      t.regs = s.regs ∧ Completed t .noError ∧ SameControl s t ∧ SameStream s t

/-- R157: the decomposition `n - 1 = 2^r * s` with `s` odd; `r >= 1`, `s >= 1`, `r <= bitlen(n-1) - 1`, and for an `n`
that fits a register `bitlen(n-1) - 1 < W` and `r` fits 32 bits. -/
def Obligations.DecompositionIsExact : Prop :=
  ∀ (n : Nat) (m : MrRegs), 3 ≤ n → n % 2 = 1 →
    n - 1 = 2 ^ (decompose n m).r * (decompose n m).s ∧ (decompose n m).s % 2 = 1 ∧
    1 ≤ (decompose n m).r ∧ 1 ≤ (decompose n m).s ∧ (decompose n m).r ≤ bitlen (n - 1) - 1 ∧
    ∀ c : Config, c.legal = true → n < 2 ^ c.width → bitlen (n - 1) - 1 < c.width ∧ (decompose n m).r < 2 ^ 32

/-- R158 to R161, R163: at its start on an odd `n >= 3` with at least one round, where the words offered let the rounds
of R159 come to an answer, MRTEST completes with that answer and has taken exactly the words of those rounds. The words
offered as a list, and the start of the draw, are the model's form (log 2, log 9). -/
def Obligations.MrtestAnswersByItsRounds : Prop :=
  ∀ (ra : RegNum) (s : State) (n : Nat) (b : Bool) (rest : List Word),
    s.x ra = (n : Int) → 3 ≤ n → n % 2 = 1 → s.mrFresh → 1 ≤ s.roundsL.toNat →
    Rounds n s.roundsL.toNat s.rngQueue b rest →
    ∃ t, exec (.mrtest ra) s = .next t ∧ t.flags = { s.flags with prime := b } ∧ t.rngQueue = rest ∧
      t.rngpos + rest.length = s.rngpos + s.rngQueue.length ∧
      t.regs = s.regs ∧ Completed t .noError ∧ SameControl s t

/-- R158 to R161, R243: the other way round: from its start a running MRTEST completes only with an answer the rounds
give on the words offered (log 2, log 5, log 9 for the form this has in the model). -/
def Obligations.MrtestCompletesOnlyByItsRounds : Prop :=
  ∀ (ra : RegNum) (s t : State) (n : Nat), s.x ra = (n : Int) → 3 ≤ n → n % 2 = 1 → s.mrFresh →
    1 ≤ s.roundsL.toNat → s.status.busy = true → exec (.mrtest ra) s = .next t → t.status.busy = false →
    Rounds n s.roundsL.toNat s.rngQueue t.flags.prime t.rngQueue

/-- R162: with `rounds_l = 0` every odd `n >= 3` gets PRIME = 1 without any witness. -/
def Obligations.MrtestWithZeroRounds : Prop :=
  ∀ (ra : RegNum) (s : State), 3 ≤ s.x ra → s.x ra % 2 = 1 → s.roundsL = 0#32 →
    ∃ t, exec (.mrtest ra) s = .next t ∧ t.flags = { s.flags with prime := true } ∧
      t.regs = s.regs ∧ Completed t .noError ∧ SameControl s t ∧ SameStream s t

/-- R164: a prime is answered "probable prime" for every word stream on which the test completes; so an answer 0 is
certain. The start of the draw is as acceptance leaves it (log 9). -/
def Obligations.MrtestNeverRejectsAPrime : Prop :=
  ∀ (ra : RegNum) (s t : State) (p : Nat), p.Prime → s.x ra = (p : Int) → s.mrFresh → s.status.busy = true →
    exec (.mrtest ra) s = .next t → t.status.busy = false → t.flags.prime = true

/-- R166, R243: a running MRTEST that has not completed, wherever in a candidate or a round the words offered ended, has
taken all of them, and STATUS, the registers and the flags are as before; only an odd `n >= 3` with rounds to pass
waits. Where the source offers no words from the start, or only words that make up rejected candidates, MRTEST does
wait, and the draw stands at its start. That a waiting engine is a next state with its position kept is the model's
form (log 2, log 5, log 9). -/
def Obligations.MrtestWaitsForAcceptableWords : Prop :=
  (∀ (ra : RegNum) (s t : State), s.status.busy = true → exec (.mrtest ra) s = .next t → t.status.busy = true →
    t.status = s.status ∧ t.regs = s.regs ∧ t.flags = s.flags ∧ SameControl s t ∧ t.rngQueue = [] ∧
      t.rngpos = s.rngpos + s.rngQueue.length ∧ 3 ≤ s.x ra ∧ s.x ra % 2 = 1 ∧ s.work.mr.i < s.roundsL.toNat) ∧
  (∀ (ra : RegNum) (s : State) (n : Nat), s.x ra = (n : Int) → 3 ≤ n → n % 2 = 1 → s.mrFresh →
    1 ≤ s.roundsL.toNat → AllRejected n s.rngQueue →
    ∃ t, exec (.mrtest ra) s = .next t ∧ t.status = s.status ∧ t.regs = s.regs ∧ t.flags = s.flags ∧
      SameControl s t ∧ t.rngQueue = [] ∧ t.rngpos = s.rngpos + s.rngQueue.length ∧ t.mrFresh)

/-- R163: the answer and the words taken are a function of the operand, the round count and the stream: words that
come while the engine waits, or that stand behind the last word taken, make no difference (log 2 and log 5 for the list
of words offered and the waiting engine). -/
def Obligations.MrtestReadsTheStreamInOrder : Prop :=
  ∀ (ra : RegNum) (s t : State) (more : List Word), s.status.busy = true → exec (.mrtest ra) s = .next t →
    (t.status.busy = true →
      exec (.mrtest ra) { t with rngQueue := t.rngQueue ++ more } =
        exec (.mrtest ra) { s with rngQueue := s.rngQueue ++ more }) ∧
    (t.status.busy = false →
      exec (.mrtest ra) { s with rngQueue := s.rngQueue ++ more } = .next { t with rngQueue := t.rngQueue ++ more })

/-! ### Errors and completion (60_exceptions.md) -/

/-- R203: a command that ends with an error changes STATUS and nothing else. -/
def Obligations.ErrorsChangeNothingElse : Prop :=
  ∀ (i : Instr) (s t : State), s.status.err = .noError → exec i s = .next t → t.status.err ≠ .noError →
    ErrorCompletion s t t.status.err

/-- R205: which error a command reports, in the order of checks; CMP and MRTEST report none of their own. An EGCD term
with two equal destinations, which no word decodes to, reports IllegalCommand as its word does (R87, log 11). -/
def Obligations.ErrorsInTheOrderOfChecks : Prop :=
  (∀ (ra rb : RegNum) (s t : State), exec (.cmp ra rb) s = .next t → t.status.err = .noError) ∧
  (∀ (rd ra rb : RegNum) (s t : State), exec (.mul rd ra rb) s = .next t →
    t.status.err = if 2 ^ s.width ≤ (s.x ra * s.x rb).natAbs then .overflow else .noError) ∧
  (∀ (rd ra rb rc : RegNum) (s t : State), exec (.modexp rd ra rb rc) s = .next t →
    t.status.err = if s.x rc ≤ 0 then .invalidModulus
      else if s.x ra < 0 ∨ s.x rb < 0 then .operandRange else .noError) ∧
  (∀ (rg rx ry ra rb : RegNum) (s t : State), exec (.egcd rg rx ry ra rb) s = .next t →
    t.status.err = if rg = rx ∨ rg = ry ∨ rx = ry then .illegalCommand
      else if s.x ra < 0 ∨ s.x rb < 0 then .operandRange else .noError) ∧
  (∀ (rd ra rb : RegNum) (s t : State), exec (.modinv rd ra rb) s = .next t →
    t.status.err = if s.x rb ≤ 0 then .invalidModulus
      else if s.x ra < 0 then .operandRange
      else if Int.gcd (s.x ra) (s.x rb) ≠ 1 then .notInvertible else .noError) ∧
  (∀ (ra : RegNum) (s t : State), s.status.err = .noError → exec (.mrtest ra) s = .next t → t.status.err = .noError)

/-- R202, R243: CMP, MUL, MODEXP, EGCD and MODINV always complete. -/
def Obligations.AllButMrtestAlwaysComplete : Prop :=
  ∀ (i : Instr) (s : State), (∀ ra, i ≠ .mrtest ra) →
    ∃ t, exec i s = .next t ∧ t.status.busy = false ∧ t.status.done = true

/-- R202: what no command changes, whatever its outcome: CTRL, ROUNDS, CMD, ACCERR, the latched round count, the
parameter. -/
def Obligations.CommandsLeaveControlAlone : Prop :=
  ∀ (i : Instr) (s t : State), exec i s = .next t → SameControl s t

/-- R29: only CMP writes EQ, LT, GT, and only MRTEST writes PRIME. -/
def Obligations.FlagsHaveOneWriterEach : Prop :=
  ∀ (i : Instr) (s t : State), exec i s = .next t →
    ((∀ ra rb, i ≠ .cmp ra rb) → t.flags.eq = s.flags.eq ∧ t.flags.lt = s.flags.lt ∧ t.flags.gt = s.flags.gt) ∧
    ((∀ ra, i ≠ .mrtest ra) → t.flags.prime = s.flags.prime)

/-- R36, R163: only MRTEST takes words of the stream; the words taken and the words left are those offered (the list of
words offered is the model's form, log 2). -/
def Obligations.OnlyMrtestTakesWords : Prop :=
  ∀ (i : Instr) (s t : State), exec i s = .next t →
    ((∀ ra, i ≠ .mrtest ra) → SameStream s t) ∧
    t.rngpos + t.rngQueue.length = s.rngpos + s.rngQueue.length ∧ ∃ taken, s.rngQueue = taken ++ t.rngQueue

/-- 10_state.md R23: no command's result depends on the sign bit of a zero. That the hidden working registers do not
either is the model's form of them (log 20). -/
def Obligations.SignOfZeroNeverMatters : Prop :=
  ∀ (i : Instr) (s t t' : State) (k : RegNum) (b : Bool), (s.reg k).mag = 0 →
    exec i s = .next t → exec i (s.setReg k { sign := b, mag := 0 }) = .next t' →
    t'.status = t.status ∧ t'.flags = t.flags ∧ t'.rngpos = t.rngpos ∧ t'.rngQueue = t.rngQueue ∧
      t'.work = t.work ∧ ∀ j, t'.x j = t.x j

/-- R34, R161: a running command uses the round count latched at acceptance: a ROUNDS write changes only ROUNDS. -/
def Obligations.RoundsWriteDoesNotReachTheRunningCommand : Prop :=
  ∀ (i : Instr) (s t : State) (v : Word), exec i s = .next t → exec i { s with rounds := v } = .next { t with rounds := v }

/-! ### Host accesses (20_memory.md). That an access is the first event of a list, and that its answer is kept in the
state, is the model's form (log 3, log 7). -/

/-- R57: the complete list of accesses answered ERR; each sets ACCERR, gives data 0 to a read, and does nothing else;
every other access is answered OK, and an OK read changes nothing. -/
def Obligations.RefusedAccessesAreThoseOfTheList : Prop :=
  (∀ (s : State) (addr : Addr) (n : Nat) (rest : List Event), s.events = .memRead addr n :: rest →
    ((n ≠ 4 ∨ addr.toNat % 4 ≠ 0 ∨ Unmapped s.cfg addr ∨ (s.status.busy = true ∧ LimbAddress s.cfg addr)) →
      step s = .next { s with
        status := { s.status with accErr := true }, events := rest, bus := some (.read .err 0#32) }) ∧
    (¬(n ≠ 4 ∨ addr.toNat % 4 ≠ 0 ∨ Unmapped s.cfg addr ∨ (s.status.busy = true ∧ LimbAddress s.cfg addr)) →
      ∃ d, step s = .next { s with events := rest, bus := some (.read .ok d) })) ∧
  (∀ (s : State) (addr : Addr) (n : Nat) (v : Word) (rest : List Event), s.events = .memWrite addr n v :: rest →
    ((n ≠ 4 ∨ addr.toNat % 4 ≠ 0 ∨ Unmapped s.cfg addr ∨
        (s.status.busy = true ∧ (LimbAddress s.cfg addr ∨ addr = 0x00000#17 ∨ addr = 0x00014#17))) →
      step s = .next { s with
        status := { s.status with accErr := true }, events := rest, bus := some (.write .err) }) ∧
    (¬(n ≠ 4 ∨ addr.toNat % 4 ≠ 0 ∨ Unmapped s.cfg addr ∨
        (s.status.busy = true ∧ (LimbAddress s.cfg addr ∨ addr = 0x00000#17 ∨ addr = 0x00014#17))) →
      ∃ t, step s = .next t ∧ t.bus = some (.write .ok)))

/-- R51, R52, R55: what each mapped address reads, at any time but for the limbs, which read while idle. -/
def Obligations.ReadsGiveTheRegisters : Prop :=
  ∀ s : State, s.cfg.legal = true →
    ReadGives s 0x00000#17 (fun d => d = s.cmd) ∧
    ReadGives s 0x00004#17 (fun d => d.toNat = s.status.busy.toNat + 2 * s.status.done.toNat +
      4 * s.status.accErr.toNat + 2 ^ 8 * s.status.err.code) ∧
    ReadGives s 0x00008#17 (fun d => d.toNat = s.ie.toNat) ∧
    ReadGives s 0x0000C#17 (fun d => d.toNat = s.flags.eq.toNat + 2 * s.flags.lt.toNat + 4 * s.flags.gt.toNat +
      8 * s.flags.prime.toNat) ∧
    ReadGives s 0x00010#17 (fun d => d = s.rounds) ∧
    ReadGives s 0x00014#17 (fun d => d.toNat < 2 ^ 16 ∧ ∀ k : RegNum, d.getLsbD k.val = (s.reg k).sign) ∧
    ReadGives s 0x00018#17 (fun d => d.toNat = 0x01 * 2 ^ 24 + 0x10 * 2 ^ 16 + s.cfg.nlimbs) ∧
    (s.status.busy = false → ∀ (k : RegNum) (i : Nat), i < s.cfg.nlimbs →
      ReadGives s (limbAddr k i) (fun d => d.toNat = (s.reg k).mag / 2 ^ (32 * i) % 2 ^ 32))

/-- R27, R28, R30, R56: writes of STATUS, CTRL and ROUNDS are answered OK at any time and do what the register says;
writes of FLAGS and PARAM are answered OK and ignored. -/
def Obligations.ControlWritesAtAnyTime : Prop :=
  ∀ (s : State) (v : Word),
    WriteGives s 0x00004#17 v { s with status := { s.status with
      done := if v.getLsbD 1 = true then false else s.status.done
      accErr := if v.getLsbD 2 = true then false else s.status.accErr } } ∧
    WriteGives s 0x00008#17 v { s with ie := v.getLsbD 0 } ∧
    WriteGives s 0x0000C#17 v s ∧
    WriteGives s 0x00010#17 v { s with rounds := v } ∧
    WriteGives s 0x00018#17 v s

/-- R52: while idle, a write of limb `i` of `Bk` replaces exactly those 32 bits: no other limb, no sign, no other
register, nothing else of the state. -/
def Obligations.LimbWriteReplacesOneLimb : Prop :=
  ∀ (s : State) (k : RegNum) (i : Nat) (v : Word), s.cfg.legal = true → s.status.busy = false → i < s.cfg.nlimbs →
    ∃ r : BigReg, WriteGives s (limbAddr k i) v (s.setReg k r) ∧ r.sign = (s.reg k).sign ∧
      r.mag / 2 ^ (32 * i) % 2 ^ 32 = v.toNat ∧
      (∀ j, j ≠ i → r.mag / 2 ^ (32 * j) % 2 ^ 32 = (s.reg k).mag / 2 ^ (32 * j) % 2 ^ 32) ∧
      ((s.reg k).mag < 2 ^ s.width → r.mag < 2 ^ s.width)

/-- R32: while idle, a write of SIGN sets all sixteen sign bits from data bits 15:0 and no magnitude. -/
def Obligations.SignWriteSetsSixteenSigns : Prop :=
  ∀ (s : State) (v : Word), s.status.busy = false →
    ∃ t, WriteGives s 0x00014#17 v t ∧ (∀ k : RegNum, t.reg k = { s.reg k with sign := v.getLsbD k.val }) ∧
      t.status = s.status ∧ t.flags = s.flags ∧ t.cmd = s.cmd ∧ t.ie = s.ie ∧ t.rounds = s.rounds ∧
      t.roundsL = s.roundsL ∧ t.work = s.work ∧ t.cfg = s.cfg ∧ SameStream s t

/-- R201: while idle, a CMD write of any word is accepted: the word and the round count are latched, BUSY is set, DONE
and ERR are cleared, irq falls; FLAGS, the big registers and ACCERR stay. MRTEST's position is put at its start (the
model's form of R35, log 9). -/
def Obligations.CmdWriteIsAccepted : Prop :=
  ∀ (s : State) (v : Word), s.status.busy = false →
    ∃ t, WriteGives s 0x00000#17 v t ∧ t.cmd = v ∧ t.roundsL = s.rounds ∧
      t.status = { busy := true, done := false, accErr := s.status.accErr, err := .noError } ∧ t.irq = false ∧
      t.mrFresh ∧ t.flags = s.flags ∧ t.regs = s.regs ∧ t.ie = s.ie ∧ t.rounds = s.rounds ∧ t.cfg = s.cfg ∧
      SameStream s t

/-- R58: while a command runs no host access changes a big register, a sign bit, CMD, FLAGS, the latched round count or
the engine's working registers, and none reads a limb. -/
def Obligations.RunningCommandIsOutOfReach : Prop :=
  ∀ (s t : State) (e : Event), s.status.busy = true →
    ((∃ addr n, e = .memRead addr n) ∨ ∃ addr n v, e = .memWrite addr n v) →
    (∃ rest, s.events = e :: rest) → step s = .next t →
    t.regs = s.regs ∧ t.cmd = s.cmd ∧ t.flags = s.flags ∧ t.roundsL = s.roundsL ∧ t.work = s.work ∧
      t.status.busy = true ∧ SameStream s t ∧
      ∀ (addr : Addr) (d : Word), e = .memRead addr 4 → LimbAddress s.cfg addr → t.bus ≠ some (.read .ok d)

/-! ### Reset (10_state.md R38, 70_reset_and_hazards.md) -/

/-- R38: the values after reset. -/
def Obligations.ResetStateValues : Prop :=
  (∀ k : RegNum, State.reset.reg k = { sign := false, mag := 0 }) ∧ State.reset.cmd = 0#32 ∧
  State.reset.status = { busy := false, done := false, accErr := false, err := .noError } ∧
  State.reset.ie = false ∧ State.reset.irq = false ∧
  State.reset.flags = { eq := false, lt := false, gt := false, prime := false } ∧
  State.reset.rounds.toNat = 28 ∧ State.reset.roundsL = 0#32 ∧ State.reset.rngpos = 0

/-- R230, R232, R38: reset at any point, also while a command runs, gives every register its reset value, abandons the
command without a completion, and leaves the stream position. That it leaves the words offered too is the model's
(log 2, log 17). -/
def Obligations.ResetEventClearsAllButTheStream : Prop :=
  ∀ (s : State) (rest : List Event), s.events = .reset :: rest →
    ∃ t, step s = .next t ∧ (∀ k : RegNum, t.reg k = { sign := false, mag := 0 }) ∧ t.cmd = 0#32 ∧
      t.status = { busy := false, done := false, accErr := false, err := .noError } ∧ t.ie = false ∧ t.irq = false ∧
      t.flags = { eq := false, lt := false, gt := false, prime := false } ∧ t.rounds.toNat = 28 ∧ t.roundsL = 0#32 ∧
      t.cfg = s.cfg ∧ SameStream s t

/-! ### Rules about the whole machine -/

/-- The state after reset meets the invariant of a run (R38; NLIMBS = 64 and the working registers' zeros are the
model's choice, log 1 and log 6). -/
def Obligations.ResetMeetsTheInvariant : Prop := State.reset.Inv

/-- Every step keeps the invariant: magnitudes below `2^W` (R21, R22), BUSY and DONE never both 1 and ERR 0 while BUSY
(R26, R27), at most one of EQ, LT, GT (R29), every working register in its width (R35). -/
def Obligations.EveryStepKeepsTheInvariant : Prop :=
  ∀ s t : State, s.Inv → step s = .next t → t.Inv

/-- R22, R61: a big register changes only in a completion, by a host write while idle, or by reset. -/
def Obligations.RegistersChangeOnlyByTheirWriters : Prop :=
  ∀ (s t : State) (k : RegNum), step s = .next t → t.reg k ≠ s.reg k →
    (EngineTurn s ∧ s.status.busy = true ∧ t.status.busy = false ∧ t.status.done = true ∧ t.status.err = .noError) ∨
    (s.status.busy = false ∧ ∃ addr v rest, s.events = .memWrite addr 4 v :: rest ∧
      (addr = 0x00014#17 ∨ LimbAddress s.cfg addr)) ∨
    (∃ rest, s.events = .reset :: rest)

/-- R29: FLAGS change only when a CMP or an MRTEST completes, or by reset. -/
def Obligations.FlagsChangeOnlyByCmpAndMrtest : Prop :=
  ∀ s t : State, step s = .next t → t.flags ≠ s.flags →
    (EngineTurn s ∧ s.status.busy = true ∧ t.status.busy = false ∧
      ((∃ ra rb, decode s.cmd = .ok (.cmp ra rb)) ∨ ∃ ra, decode s.cmd = .ok (.mrtest ra))) ∨
    (∃ rest, s.events = .reset :: rest)

/-- R26, R27, R233: BUSY rises only by an accepted CMD write and falls only by a completion or by reset: reset is the
only way to stop a command. -/
def Obligations.BusyChangesOnlyByAcceptanceCompletionReset : Prop :=
  ∀ s t : State, step s = .next t →
    (s.status.busy = false → t.status.busy = true →
      ∃ v rest, s.events = .memWrite 0x00000#17 4 v :: rest ∧ t.cmd = v) ∧
    (s.status.busy = true → t.status.busy = false →
      (EngineTurn s ∧ t.status.done = true) ∨ ∃ rest, s.events = .reset :: rest)

/-- R27, R245: ACCERR is sticky: it falls only by writing 1 to bit 2 of STATUS or by reset, and rises only with an
answer ERR. -/
def Obligations.AccErrIsSticky : Prop :=
  ∀ s t : State, step s = .next t →
    (s.status.accErr = true → t.status.accErr = false →
      (∃ v rest, s.events = .memWrite 0x00004#17 4 v :: rest ∧ v.getLsbD 2 = true) ∨ ∃ rest, s.events = .reset :: rest) ∧
    (s.status.accErr = false → t.status.accErr = true →
      t.bus = some (.read .err 0#32) ∨ t.bus = some (.write .err))

/-- R207: irq rises only by a completion, or by a CTRL write that enables it while DONE is 1. -/
def Obligations.IrqRisesOnlyByCompletionOrEnable : Prop :=
  ∀ s t : State, step s = .next t → s.irq = false → t.irq = true →
    (EngineTurn s ∧ s.status.busy = true ∧ t.status.busy = false ∧ t.status.done = true ∧ t.ie = true) ∨
    ∃ v rest, s.events = .memWrite 0x00008#17 4 v :: rest ∧ v.getLsbD 0 = true ∧ s.status.done = true

/-- R36, R39, R232: the parameter never changes; the stream position never goes back, a reset included, and advances
only while the engine runs an MRTEST; words come only from the source (the list of words offered: log 2). -/
def Obligations.StreamOnlyGoesForward : Prop :=
  ∀ s t : State, step s = .next t →
    t.cfg = s.cfg ∧ s.rngpos ≤ t.rngpos ∧
    (t.rngpos ≠ s.rngpos → EngineTurn s ∧ s.status.busy = true ∧ ∃ ra, decode s.cmd = .ok (.mrtest ra)) ∧
    ((∃ w rest, s.events = .rngOffer w :: rest ∧ t.rngQueue = s.rngQueue ++ [w] ∧ t.rngpos = s.rngpos) ∨
      ∃ taken, s.rngQueue = taken ++ t.rngQueue ∧ t.rngpos = s.rngpos + taken.length)

/-! ### The block in use (30_encoding.md R90, 45_host_sequences.md) -/

/-- R52, R90 (host software beside the block, log 16): on an idle block SETBIG loads a value that fits into its register, and GETBIG reads the value of a register
in range; no other register changes. -/
def Obligations.SetBigLoadsAndGetBigReads : Prop :=
  (∀ (s : State) (k : RegNum) (v : Int), s.cfg.legal = true → s.status.busy = false → s.regsInRange →
    v.natAbs < 2 ^ s.width →
    (s.setBig k v).x k = v ∧ SameRegsBut [k] s (s.setBig k v) ∧ (s.setBig k v).status = s.status) ∧
  (∀ (s : State) (k : RegNum), s.cfg.legal = true → s.status.busy = false → s.regsInRange →
    (s.getBig k).1 = s.x k ∧ (s.getBig k).2.regs = s.regs ∧ (s.getBig k).2.status = s.status)

/-- R187: the product of two prime candidates of sizes s1 and s2, as R181 forms them, has exactly s1 + s2 bits. -/
def Obligations.CandidateProductHasAllItsBits : Prop :=
  ∀ s1 s2 r1 r2 : Nat, 2 ≤ s1 → 2 ≤ s2 →
    bitlen (candidateOf s1 r1) = s1 ∧ candidateOf s1 r1 % 2 = 1 ∧
    bitlen (candidateOf s1 r1 * candidateOf s2 r2) = s1 + s2

/-- R196: the RSA round trip: with `n = p * q` for two distinct primes and `e * d ≡ 1 (mod (p-1)(q-1))`, two MODEXP
commands give back every `x` in `[0, n)`. -/
def Obligations.RsaRoundTrip : Prop :=
  ∀ (p q e d : Nat) (s : State) (r1 r2 rx re rd rn : RegNum),
    p.Prime → q.Prime → p ≠ q → e * d % ((p - 1) * (q - 1)) = 1 % ((p - 1) * (q - 1)) →
    s.x rn = (p : Int) * q → s.x re = e → s.x rd = d → 0 ≤ s.x rx → s.x rx < s.x rn → r1 ≠ rd → r1 ≠ rn →
    ∃ t u, exec (.modexp r1 rx re rn) s = .next t ∧ exec (.modexp r2 r1 rd rn) t = .next u ∧ u.x r2 = s.x rx
end

