-- ==== Sys2Proof/Laws/Decode.lean ====
section
/-! SUPPORT. The fields of an assembled command word (30_encoding.md R81, R84). -/

namespace Sys2Proof

theorem toNat_assemble {op : Nat} (h : op < 256) (f1 f2 f3 f4 f5 : RegNum) :
    (assemble op f1 f2 f3 f4 f5).toNat = op * 2 ^ 24 + f1.val * 2 ^ 20 + f2.val * 2 ^ 16 + f3.val * 2 ^ 12
      + f4.val * 2 ^ 8 + f5.val * 2 ^ 4 := by
  rw [assemble, BitVec.toNat_ofNat]
  apply Nat.mod_eq_of_lt
  omega

theorem opcodeField_assemble {op : Nat} (h : op < 256) (f1 f2 f3 f4 f5 : RegNum) :
    opcodeField (assemble op f1 f2 f3 f4 f5) = op := by
  rw [opcodeField, toNat_assemble h]; omega

theorem regField_assemble {op : Nat} (h : op < 256) (f1 f2 f3 f4 f5 : RegNum) :
    regField (assemble op f1 f2 f3 f4 f5) 20 = f1 ∧ regField (assemble op f1 f2 f3 f4 f5) 16 = f2 ∧
    regField (assemble op f1 f2 f3 f4 f5) 12 = f3 ∧ regField (assemble op f1 f2 f3 f4 f5) 8 = f4 ∧
    regField (assemble op f1 f2 f3 f4 f5) 4 = f5 := by
  refine ⟨?_, ?_, ?_, ?_, ?_⟩ <;>
  · apply Fin.ext
    simp only [regField, toNat_assemble h]
    omega

theorem lowBits_assemble {op : Nat} (h : op < 256) (f1 f2 f3 f4 f5 : RegNum) :
    lowBits (assemble op f1 f2 f3 f4 f5) 4 = 0 ∧
    (f5 = 0 → lowBits (assemble op f1 f2 f3 f4 f5) 8 = 0) ∧
    (f5 = 0 → f4 = 0 → lowBits (assemble op f1 f2 f3 f4 f5) 12 = 0) ∧
    (f5 = 0 → f4 = 0 → f3 = 0 → lowBits (assemble op f1 f2 f3 f4 f5) 16 = 0) ∧
    (f5 = 0 → f4 = 0 → f3 = 0 → f2 = 0 → lowBits (assemble op f1 f2 f3 f4 f5) 20 = 0) := by
  refine ⟨?_, ?_, ?_, ?_, ?_⟩ <;> intros <;> subst_vars <;> simp only [lowBits, toNat_assemble h] <;> omega

/-- A word is put together again from its fields. -/
theorem assemble_fields (w : Word) (h : lowBits w 4 = 0) :
    assemble (opcodeField w) (regField w 20) (regField w 16) (regField w 12) (regField w 8) (regField w 4) = w := by
  have hw := w.isLt
  have hop : opcodeField w < 256 := by rw [opcodeField]; omega
  apply BitVec.eq_of_toNat_eq
  rw [toNat_assemble hop]
  simp only [opcodeField, regField, lowBits] at *
  omega

/-- The opcode bit by bit (R81). -/
theorem opcodeField_eq_iff (w : Word) (op : Nat) (h : op < 256) :
    opcodeField w = op ↔ ∀ i, i < 8 → w.getLsbD (24 + i) = op.testBit i := by
  have hw := w.isLt
  constructor
  · rintro rfl i hi
    rw [opcodeField, Nat.testBit_div_two_pow, add_comm]; rfl
  · intro hb
    apply Nat.eq_of_testBit_eq
    intro i
    by_cases hi : i < 8
    · rw [← hb i hi, opcodeField, Nat.testBit_div_two_pow, add_comm]; rfl
    · have h1 : opcodeField w < 2 ^ i := by
        have : 2 ^ 8 ≤ 2 ^ i := Nat.pow_le_pow_right (by decide) (by omega)
        rw [opcodeField]; omega
      have h2 : op < 2 ^ i := by
        have : 2 ^ 8 ≤ 2 ^ i := Nat.pow_le_pow_right (by decide) (by omega)
        omega
      rw [Nat.testBit_lt_two_pow h1, Nat.testBit_lt_two_pow h2]

/-- The must-be-zero bits one by one (R85). -/
theorem lowBits_eq_zero_iff (w : Word) (n : Nat) : lowBits w n = 0 ↔ ∀ i, i < n → w.getLsbD i = false := by
  rw [lowBits]
  constructor
  · intro h i hi
    have := Nat.testBit_mod_two_pow w.toNat n i
    rw [h, Nat.zero_testBit, decide_eq_true hi, Bool.true_and] at this
    exact this.symm
  · intro h
    apply Nat.eq_of_testBit_eq
    intro i
    rw [Nat.testBit_mod_two_pow, Nat.zero_testBit]
    by_cases hi : i < n
    · have := h i hi
      rw [BitVec.getLsbD] at this
      simp [this]
    · simp [hi]

/-- `w and mask = match` for a mask of the opcode and the low `n` bits (R84). -/
theorem mask_match_iff (w M C : Word) (op n : Nat) (hop : op < 256) (hn : n ≤ 24)
    (hM : ∀ i : Fin 32, M.getLsbD i = (decide (24 ≤ i.val) || decide (i.val < n)))
    (hC : ∀ i : Fin 32, C.getLsbD i = (decide (24 ≤ i.val) && op.testBit (i.val - 24))) :
    w &&& M = C ↔ opcodeField w = op ∧ lowBits w n = 0 := by
  rw [opcodeField_eq_iff w op hop, lowBits_eq_zero_iff]
  constructor
  · intro h
    have hb : ∀ i : Fin 32, (w.getLsbD i && M.getLsbD i) = C.getLsbD i := by
      intro i; rw [← h, BitVec.getLsbD_and]
    refine ⟨fun i hi => ?_, fun i hi => ?_⟩
    · have := hb ⟨24 + i, by omega⟩
      rw [hM, hC] at this
      simpa using this
    · have := hb ⟨i, by omega⟩
      rw [hM, hC] at this
      simpa [hi, show ¬ 24 ≤ i by omega] using this
  · rintro ⟨h1, h2⟩
    apply BitVec.eq_of_getLsbD_eq
    intro i hi
    have hm := hM ⟨i, hi⟩
    have hc := hC ⟨i, hi⟩
    simp only at hm hc
    rw [BitVec.getLsbD_and, hm, hc]
    by_cases h24 : 24 ≤ i
    · have := h1 (i - 24) (by omega)
      rw [show 24 + (i - 24) = i by omega] at this
      simp [h24, this]
    · by_cases hin : i < n
      · simp [h24, hin, h2 i hin]
      · simp [h24, hin]

/-- A register field as shifted and masked bits (R81). -/
theorem toNat_shifted_field (w : Word) (lo : Nat) : ((w >>> lo) &&& 0xF#32).toNat = (regField w lo).val := by
  rw [BitVec.toNat_and, BitVec.toNat_ushiftRight, Nat.shiftRight_eq_div_pow]
  exact Nat.and_two_pow_sub_one_eq_mod _ 4

theorem shifted_field_ne_iff (w : Word) (a b : Nat) : (w >>> a) &&& 0xF#32 ≠ (w >>> b) &&& 0xF#32 ↔ regField w a ≠ regField w b := by
  rw [Ne, ← BitVec.toNat_inj, toNat_shifted_field, toNat_shifted_field, Fin.val_inj]

/-- Must-be-zero bits that take in a register field make the field 0. -/
theorem fields_of_lowBits (w : Word) : (lowBits w 8 = 0 → lowBits w 4 = 0 ∧ regField w 4 = 0) ∧
   (lowBits w 12 = 0 → lowBits w 4 = 0 ∧ regField w 4 = 0 ∧ regField w 8 = 0) ∧
   (lowBits w 16 = 0 → lowBits w 4 = 0 ∧ regField w 4 = 0 ∧ regField w 8 = 0 ∧ regField w 12 = 0) ∧
   (lowBits w 20 = 0 → lowBits w 4 = 0 ∧ regField w 4 = 0 ∧ regField w 8 = 0 ∧ regField w 12 = 0 ∧ regField w 16 = 0) := by
  simp only [lowBits, regField, Fin.ext_iff, Fin.val_zero]
  refine ⟨?_, ?_, ?_, ?_⟩ <;> intro h <;> refine ⟨?_, ?_⟩ <;> (try refine ⟨?_, ?_⟩) <;> (try refine ⟨?_, ?_⟩) <;> omega

end Sys2Proof
end

