-- ==== Sys2Proof/Laws/ExtendedGcd.lean ====
section
/-! SUPPORT. What the extended Euclidean loop computes (43_extended_gcd_modinv.md R135, R138, R139, R145). -/

namespace Sys2Proof.Machine

@[simp] theorem egcdStep_oldR (w : Work) : (egcdStep w).egcd.oldR = w.egcd.r := rfl
@[simp] theorem egcdStep_r (w : Work) : (egcdStep w).egcd.r = w.egcd.oldR % w.egcd.r := rfl
@[simp] theorem egcdStep_oldS (w : Work) : (egcdStep w).egcd.oldS = w.egcd.s := rfl
@[simp] theorem egcdStep_s (w : Work) :
    (egcdStep w).egcd.s = w.egcd.oldS - ((w.egcd.oldR / w.egcd.r : Nat) : Int) * w.egcd.s := rfl
@[simp] theorem egcdStep_oldT (w : Work) : (egcdStep w).egcd.oldT = w.egcd.t := rfl
@[simp] theorem egcdStep_t (w : Work) :
    (egcdStep w).egcd.t = w.egcd.oldT - ((w.egcd.oldR / w.egcd.r : Nat) : Int) * w.egcd.t := rfl
@[simp] theorem egcdStep_q (w : Work) : (egcdStep w).egcd.q = w.egcd.oldR / w.egcd.r := rfl
@[simp] theorem egcdStep_modexp (w : Work) : (egcdStep w).modexp = w.modexp := rfl
@[simp] theorem egcdStep_mr (w : Work) : (egcdStep w).mr = w.mr := rfl
@[simp] theorem egcdStep_p (w : Work) : (egcdStep w).p = w.p := rfl

theorem egcdLoop_succ (k : Nat) (w : Work) :
    egcdLoop (k + 1) w = if w.egcd.r ≠ 0 then egcdLoop k (egcdStep w) else w := rfl

/-- A property that every iteration keeps holds after any number of them. -/
theorem egcdLoop_keeps (P : Work → Prop) (hstep : ∀ w, w.egcd.r ≠ 0 → P w → P (egcdStep w)) :
    ∀ k w, P w → P (egcdLoop k w)
  | 0, _, h => h
  | k + 1, w, h => by
    rw [egcdLoop_succ]
    split
    · next hr => exact egcdLoop_keeps P hstep k _ (hstep w hr h)
    · exact h

@[simp] theorem egcdLoop_modexp (k : Nat) (w : Work) : (egcdLoop k w).modexp = w.modexp :=
  egcdLoop_keeps (fun v => v.modexp = w.modexp) (by simp) k w rfl

@[simp] theorem egcdLoop_mr (k : Nat) (w : Work) : (egcdLoop k w).mr = w.mr :=
  egcdLoop_keeps (fun v => v.mr = w.mr) (by simp) k w rfl

@[simp] theorem egcdLoop_p (k : Nat) (w : Work) : (egcdLoop k w).p = w.p :=
  egcdLoop_keeps (fun v => v.p = w.p) (by simp) k w rfl

@[simp] theorem extGcd_modexp (a b : Nat) (w : Work) : (extGcd a b w).modexp = w.modexp := by
  simp [extGcd, egcdInit]

@[simp] theorem extGcd_mr (a b : Nat) (w : Work) : (extGcd a b w).mr = w.mr := by
  simp [extGcd, egcdInit]

@[simp] theorem extGcd_p (a b : Nat) (w : Work) : (extGcd a b w).p = w.p := by
  simp [extGcd, egcdInit]

/-- The remainder falls in every iteration, so `r` iterations end the loop (R138 (c)). -/
theorem egcdLoop_r : ∀ k w, w.egcd.r ≤ k → (egcdLoop k w).egcd.r = 0
  | 0, _, h => Nat.le_zero.mp h
  | k + 1, w, h => by
    rw [egcdLoop_succ]
    split
    · next hr =>
      apply egcdLoop_r k
      have := Nat.mod_lt w.egcd.oldR (Nat.pos_of_ne_zero hr)
      rw [egcdStep_r]; omega
    · next hr => simpa using hr

/-- Any two numbers of iterations that are enough give the same end. -/
theorem egcdLoop_enough : ∀ k l w, w.egcd.r ≤ k → w.egcd.r ≤ l → egcdLoop k w = egcdLoop l w
  | 0, 0, _, _, _ => rfl
  | 0, l + 1, w, hk, _ => by
    rw [egcdLoop_succ, if_neg (by simpa using Nat.le_zero.mp hk)]; rfl
  | k + 1, 0, w, _, hl => by
    rw [egcdLoop_succ, if_neg (by simpa using Nat.le_zero.mp hl)]; rfl
  | k + 1, l + 1, w, hk, hl => by
    rw [egcdLoop_succ, egcdLoop_succ]
    split
    · next hr =>
      have := Nat.mod_lt w.egcd.oldR (Nat.pos_of_ne_zero hr)
      exact egcdLoop_enough k l _ (by rw [egcdStep_r]; omega) (by rw [egcdStep_r]; omega)
    · rfl

/-- What holds of the running values at every point of the loop on `(a, b)`: the two Bézout identities and the gcd
(R138), the alternating signs, the two sums that bound the coefficients, and the bounds of R139. -/
structure EgcdLoopInv (a b : Nat) (x : EgcdRegs) : Prop where
  bezoutOld : (x.oldR : Int) = a * x.oldS + b * x.oldT
  bezout : (x.r : Int) = a * x.s + b * x.t
  gcd : Nat.gcd x.oldR x.r = Nat.gcd a b
  signs : (0 ≤ x.oldS ∧ x.s ≤ 0 ∧ x.oldT ≤ 0 ∧ 0 ≤ x.t) ∨ (x.oldS ≤ 0 ∧ 0 ≤ x.s ∧ 0 ≤ x.oldT ∧ x.t ≤ 0)
  sumS : x.oldR * x.s.natAbs + x.r * x.oldS.natAbs = b
  sumT : x.oldR * x.t.natAbs + x.r * x.oldT.natAbs = a
  boundS : x.s.natAbs ≤ max 1 b
  boundT : x.t.natAbs ≤ max 1 a
  boundOldS : x.oldS.natAbs ≤ max 1 b
  boundOldT : x.oldT.natAbs ≤ max 1 a
  boundOldR : x.oldR ≤ max a b
  boundR : x.r ≤ max a b

theorem egcdInit_inv (a b : Nat) (w : Work) : EgcdLoopInv a b (egcdInit a b w).egcd := by
  constructor <;> simp [egcdInit]

/-- With opposite signs the new coefficient's magnitude is the sum of the two (R139). -/
theorem natAbs_sub_mul {u v : Int} (q : Nat) (h : (0 ≤ u ∧ v ≤ 0) ∨ (u ≤ 0 ∧ 0 ≤ v)) :
    (u - (q : Int) * v).natAbs = u.natAbs + q * v.natAbs := by
  have hq : ((q : Int) * v).natAbs = q * v.natAbs := by rw [Int.natAbs_mul, Int.natAbs_natCast]
  rcases h with ⟨h1, h2⟩ | ⟨h1, h2⟩
  · have := mul_nonpos_of_nonneg_of_nonpos (Int.natCast_nonneg q) h2
    omega
  · have := mul_nonneg (Int.natCast_nonneg q) h2
    omega

theorem egcdStep_sum {oldR r c oldC a : Nat} (h : oldR * c + r * oldC = a) :
    r * (oldC + oldR / r * c) + oldR % r * c = a := by
  have := Nat.div_add_mod oldR r
  calc r * (oldC + oldR / r * c) + oldR % r * c
      = (r * (oldR / r) + oldR % r) * c + r * oldC := by ring
    _ = a := by rw [this, h]

theorem egcdStep_inv {a b : Nat} {w : Work} (hr : w.egcd.r ≠ 0) (h : EgcdLoopInv a b w.egcd) :
    EgcdLoopInv a b (egcdStep w).egcd := by
  have hrpos : 0 < w.egcd.r := Nat.pos_of_ne_zero hr
  have hdm : (w.egcd.oldR : Int) = w.egcd.r * ((w.egcd.oldR / w.egcd.r : Nat) : Int) + ((w.egcd.oldR % w.egcd.r : Nat) : Int) := by
    exact_mod_cast (Nat.div_add_mod w.egcd.oldR w.egcd.r).symm
  have hs := natAbs_sub_mul (u := w.egcd.oldS) (v := w.egcd.s) (w.egcd.oldR / w.egcd.r)
    (by rcases h.signs with h1 | h1 <;> [left; right] <;> exact ⟨h1.1, h1.2.1⟩)
  have ht := natAbs_sub_mul (u := w.egcd.oldT) (v := w.egcd.t) (w.egcd.oldR / w.egcd.r)
    (by rcases h.signs with h1 | h1 <;> [right; left] <;> exact ⟨h1.2.2.1, h1.2.2.2⟩)
  have sumS := egcdStep_sum h.sumS
  have sumT := egcdStep_sum h.sumT
  have hmod := Nat.mod_lt w.egcd.oldR hrpos
  refine ⟨h.bezout, ?_, ?_, ?_, ?_, ?_, ?_, ?_, h.boundS, h.boundT, h.boundR, ?_⟩
  · rw [egcdStep_r, egcdStep_s, egcdStep_t]
    have h1 := h.bezoutOld
    have h2 := h.bezout
    have : ((w.egcd.oldR % w.egcd.r : Nat) : Int) = w.egcd.oldR - w.egcd.r * ((w.egcd.oldR / w.egcd.r : Nat) : Int) := by
      linarith
    rw [this]
    linear_combination h1 - ((w.egcd.oldR / w.egcd.r : Nat) : Int) * h2
  · rw [egcdStep_oldR, egcdStep_r, ← h.gcd, Nat.gcd_comm, ← Nat.gcd_rec, Nat.gcd_comm]
  · rw [egcdStep_oldS, egcdStep_s, egcdStep_oldT, egcdStep_t]
    have hq : (0 : Int) ≤ ((w.egcd.oldR / w.egcd.r : Nat) : Int) := Int.natCast_nonneg _
    rcases h.signs with ⟨h1, h2, h3, h4⟩ | ⟨h1, h2, h3, h4⟩
    · right
      have h5 := mul_nonpos_of_nonneg_of_nonpos hq h2
      have h6 := mul_nonneg hq h4
      exact ⟨h2, by linarith, h4, by linarith⟩
    · left
      have h5 := mul_nonneg hq h2
      have h6 := mul_nonpos_of_nonneg_of_nonpos hq h4
      exact ⟨h2, by linarith, h4, by linarith⟩
  · rw [egcdStep_oldR, egcdStep_s, egcdStep_r, egcdStep_oldS, hs]; exact sumS
  · rw [egcdStep_oldR, egcdStep_t, egcdStep_r, egcdStep_oldT, ht]; exact sumT
  · rw [egcdStep_s, hs]
    have : w.egcd.oldS.natAbs + w.egcd.oldR / w.egcd.r * w.egcd.s.natAbs ≤
        w.egcd.r * (w.egcd.oldS.natAbs + w.egcd.oldR / w.egcd.r * w.egcd.s.natAbs) := Nat.le_mul_of_pos_left _ hrpos
    omega
  · rw [egcdStep_t, ht]
    have : w.egcd.oldT.natAbs + w.egcd.oldR / w.egcd.r * w.egcd.t.natAbs ≤
        w.egcd.r * (w.egcd.oldT.natAbs + w.egcd.oldR / w.egcd.r * w.egcd.t.natAbs) := Nat.le_mul_of_pos_left _ hrpos
    omega
  · rw [egcdStep_r]
    have := h.boundR
    omega

/-- R138, R139: the invariant at every point of the loop. -/
theorem egcdLoop_inv (a b k : Nat) (w : Work) : EgcdLoopInv a b (egcdLoop k (egcdInit a b w)).egcd :=
  egcdLoop_keeps (fun v => EgcdLoopInv a b v.egcd) (fun _ hr h => egcdStep_inv hr h) k _ (egcdInit_inv a b w)

theorem extGcd_inv (a b : Nat) (w : Work) : EgcdLoopInv a b (extGcd a b w).egcd := egcdLoop_inv a b b w

theorem extGcd_r (a b : Nat) (w : Work) : (extGcd a b w).egcd.r = 0 := egcdLoop_r b _ le_rfl

/-- The result is the greatest common divisor (R138 (b)). -/
theorem extGcd_gcd (a b : Nat) (w : Work) : (extGcd a b w).egcd.oldR = Nat.gcd a b := by
  have := (extGcd_inv a b w).gcd
  rwa [extGcd_r, Nat.gcd_zero_right] at this

/-- The Bézout identity (R138 (a)). -/
theorem extGcd_bezout (a b : Nat) (w : Work) :
    (Nat.gcd a b : Int) = a * (extGcd a b w).egcd.oldS + b * (extGcd a b w).egcd.oldT := by
  rw [← (extGcd_inv a b w).bezoutOld, extGcd_gcd]

/-- Where the loop has not divided, the quotient register keeps its old value (log 20). -/
theorem egcdLoop_q_old (a b k : Nat) (w : Work) (h : k = 0 ∨ b = 0) :
    (egcdLoop k (egcdInit a b w)).egcd.q = w.egcd.q := by
  cases k with
  | zero => rfl
  | succ k =>
    have hb : b = 0 := by omega
    rw [egcdLoop_succ, if_neg (by simp [egcdInit, hb])]
    rfl

/-- Once the loop has divided, the quotient is bounded (R139). -/
theorem egcdLoop_q_le (a b k : Nat) (w : Work) (hk : 0 < k) (hb : b ≠ 0) :
    (egcdLoop k (egcdInit a b w)).egcd.q ≤ max a b := by
  obtain ⟨l, rfl⟩ : ∃ l, k = l + 1 := ⟨k - 1, by omega⟩
  have hr : (egcdInit a b w).egcd.r ≠ 0 := hb
  have hstep : ∀ v : Work, v.egcd.r ≠ 0 → EgcdLoopInv a b v.egcd →
      EgcdLoopInv a b (egcdStep v).egcd ∧ (egcdStep v).egcd.q ≤ max a b := by
    intro v hv h
    refine ⟨egcdStep_inv hv h, ?_⟩
    rw [egcdStep_q]
    have h1 := h.boundOldR
    have h2 := Nat.div_le_self v.egcd.oldR v.egcd.r
    omega
  rw [egcdLoop_succ, if_pos hr]
  exact (egcdLoop_keeps (fun v => EgcdLoopInv a b v.egcd ∧ v.egcd.q ≤ max a b) (fun v hv h => hstep v hv h.1) l _
    (hstep _ hr (egcdInit_inv a b w))).2

/-- At every point of the loop the quotient register is in the bound of R139 or holds its old value. -/
theorem egcdLoop_q (a b k : Nat) (w : Work) :
    (egcdLoop k (egcdInit a b w)).egcd.q ≤ max w.egcd.q (max a b) := by
  by_cases h : k = 0 ∨ b = 0
  · rw [egcdLoop_q_old a b k w h]; omega
  · have := egcdLoop_q_le a b k w (by omega) (by omega)
    omega

/-- All working registers of the loop fit W magnitude bits and a sign (R139). -/
theorem egcdLoop_inRange {a b width : Nat} (k : Nat) {w : Work} (ha : a < 2 ^ width) (hb : b < 2 ^ width)
    (hw : 1 < 2 ^ width) (hq : w.egcd.q < 2 ^ width) :
    (egcdLoop k (egcdInit a b w)).egcdInRange width := by
  have h := egcdLoop_inv a b k w
  have hq2 := egcdLoop_q a b k w
  have h1 := h.boundOldR
  have h2 := h.boundR
  have h3 := h.boundOldS
  have h4 := h.boundS
  have h5 := h.boundOldT
  have h6 := h.boundT
  refine ⟨?_, ?_, ?_, ?_, ?_, ?_, ?_⟩ <;> omega

theorem extGcd_inRange {a b width : Nat} {w : Work} (ha : a < 2 ^ width) (hb : b < 2 ^ width)
    (hw : 1 < 2 ^ width) (hq : w.egcd.q < 2 ^ width) : (extGcd a b w).egcdInRange width :=
  egcdLoop_inRange b ha hb hw hq

/-- The end values of the loop are linear in the coefficients it starts from. -/
theorem egcdLoop_linear : ∀ k (w v : Work) , v.egcd.oldR = w.egcd.oldR → v.egcd.r = w.egcd.r →
    v.egcd.oldS = 1 → v.egcd.s = 0 → v.egcd.oldT = 0 → v.egcd.t = 1 →
    (egcdLoop k w).egcd.oldR = (egcdLoop k v).egcd.oldR ∧
    (egcdLoop k w).egcd.oldS = (egcdLoop k v).egcd.oldS * w.egcd.oldS + (egcdLoop k v).egcd.oldT * w.egcd.s ∧
    (egcdLoop k w).egcd.oldT = (egcdLoop k v).egcd.oldS * w.egcd.oldT + (egcdLoop k v).egcd.oldT * w.egcd.t
  | 0, w, v, h1, _, h3, _, h5, _ => by simp [egcdLoop, h1, h3, h5]
  | k + 1, w, v, h1, h2, h3, h4, h5, h6 => by
    rw [egcdLoop_succ, egcdLoop_succ, h2]
    split
    · next hr =>
      set u : Work := egcdInit w.egcd.r (w.egcd.oldR % w.egcd.r) w with hu
      obtain ⟨a1, a2, a3⟩ := egcdLoop_linear k (egcdStep w) u rfl rfl rfl rfl rfl rfl
      obtain ⟨b1, b2, b3⟩ := egcdLoop_linear k (egcdStep v) u
        (by rw [egcdStep_oldR, h2]; rfl) (by rw [egcdStep_r, h1, h2]; rfl) rfl rfl rfl rfl
      rw [egcdStep_oldS, egcdStep_s] at a2 b2
      rw [egcdStep_oldT, egcdStep_t] at a3 b3
      rw [h1, h2, h3, h4] at b2
      rw [h1, h2, h5, h6] at b3
      refine ⟨a1.trans b1.symm, ?_, ?_⟩
      · rw [a2, b2, b3]; ring
      · rw [a3, b2, b3]; ring
    · next hr => simp [h1, h3, h5]

/-- The recursive form of the algorithm (R145), for `b > 0`. -/
theorem extGcd_rec (a b : Nat) (hb : 0 < b) (w v : Work) :
    (extGcd a b w).egcd.oldR = (extGcd b (a % b) v).egcd.oldR ∧
    (extGcd a b w).egcd.oldS = (extGcd b (a % b) v).egcd.oldT ∧
    (extGcd a b w).egcd.oldT =
      (extGcd b (a % b) v).egcd.oldS - ((a / b : Nat) : Int) * (extGcd b (a % b) v).egcd.oldT := by
  obtain ⟨c, rfl⟩ : ∃ c, b = c + 1 := ⟨b - 1, by omega⟩
  have hlt := Nat.mod_lt a hb
  have h0 : (egcdInit a (c + 1) w).egcd.r ≠ 0 := by simp [egcdInit]
  have h1 : extGcd a (c + 1) w = egcdLoop c (egcdStep (egcdInit a (c + 1) w)) := by
    rw [extGcd, egcdLoop_succ, if_pos h0]
  have h2 : extGcd (c + 1) (a % (c + 1)) v = egcdLoop c (egcdInit (c + 1) (a % (c + 1)) v) :=
    egcdLoop_enough _ _ _ le_rfl (by change a % (c + 1) ≤ c; omega)
  obtain ⟨b1, b2, b3⟩ := egcdLoop_linear c (egcdStep (egcdInit a (c + 1) w)) (egcdInit (c + 1) (a % (c + 1)) v)
    rfl rfl rfl rfl rfl rfl
  rw [h1, h2]
  refine ⟨b1, ?_, ?_⟩
  · rw [b2, egcdStep_oldS, egcdStep_s]; simp [egcdInit]
  · rw [b3, egcdStep_oldT, egcdStep_t]; simp [egcdInit]; ring

/-- The base case (R135): `(a, 1, 0)`. -/
theorem extGcd_zero (a : Nat) (w : Work) : extGcd a 0 w = egcdInit a 0 w := rfl

/-- The modular inverse law (R140): where the gcd is 1, `(xc + m) mod m` times `a` is 1 modulo `m`. -/
theorem modInv_law (a m : Nat) (hg : Nat.gcd a m = 1) (w : Work) :
    ((a : Int) * (((extGcd a m w).egcd.oldS + m) % m)) % m = 1 % m := by
  have hb := extGcd_bezout a m w
  rw [hg] at hb
  rw [Int.add_emod_right, Int.mul_emod, Int.emod_emod_of_dvd _ (dvd_refl _), ← Int.mul_emod]
  have : (a : Int) * (extGcd a m w).egcd.oldS = 1 + m * (-(extGcd a m w).egcd.oldT) := by
    push_cast at hb; linarith
  rw [this, Int.add_mul_emod_self_left]

end Sys2Proof.Machine
end

