-- ==== Sys2Proof/Laws/ModExp.lean ====
section
/-! SUPPORT. What the modular exponentiation loop computes (42_modular_exponentiation.md R122, R126, R127). -/

namespace Sys2Proof.Machine

theorem bitlen_zero : bitlen 0 = 0 := rfl

theorem bitlen_pos {v : Nat} (h : v ≠ 0) : bitlen v = Nat.log2 v + 1 := by simp [bitlen, h]

/-- `2^(k-1) <= v < 2^k` for `k = bitlen(v)` (00_scope.md R12). -/
theorem lt_two_pow_bitlen (v : Nat) : v < 2 ^ bitlen v := by
  by_cases h : v = 0
  · subst h; decide
  · rw [bitlen_pos h]; exact Nat.lt_log2_self

theorem two_pow_bitlen_le {v : Nat} (h : v ≠ 0) : 2 ^ (bitlen v - 1) ≤ v := by
  rw [bitlen_pos h]; simpa using Nat.log2_self_le h

theorem bitlen_le_iff (v k : Nat) : bitlen v ≤ k ↔ v < 2 ^ k := by
  constructor
  · intro h
    exact lt_of_lt_of_le (lt_two_pow_bitlen v) (Nat.pow_le_pow_right (by decide) h)
  · intro h
    by_cases h0 : v = 0
    · subst h0; simp [bitlen]
    · by_contra hk
      have h1 : k ≤ bitlen v - 1 := by omega
      have h2 := two_pow_bitlen_le h0
      have h3 : 2 ^ k ≤ 2 ^ (bitlen v - 1) := Nat.pow_le_pow_right (by decide) h1
      omega

/-- The shift takes one digit off (R127). -/
theorem bitlen_half {v : Nat} (h : v ≠ 0) : bitlen v = bitlen (v / 2) + 1 := by
  by_cases h1 : v / 2 = 0
  · have : v = 1 := by omega
    subst this; rfl
  · apply Nat.le_antisymm
    · rw [bitlen_le_iff]
      have := lt_two_pow_bitlen (v / 2)
      rw [Nat.pow_succ]; omega
    · have h2 := two_pow_bitlen_le h1
      have h3 : bitlen (v / 2) ≠ 0 := by simp [bitlen, h1]
      by_contra hk
      have h4 : bitlen v ≤ bitlen (v / 2) := by omega
      rw [bitlen_le_iff] at h4
      have h5 : 2 ^ bitlen (v / 2) = 2 ^ (bitlen (v / 2) - 1) * 2 := by
        rw [← Nat.pow_succ]; congr 1; omega
      omega

/-- The congruence `res * b^e` that every iteration keeps (R126). -/
def modExpValue (w : Work) : Nat := w.modexp.res * w.modexp.b ^ w.modexp.e % w.modexp.m

@[simp] theorem modExpStep_e (w : Work) : (modExpStep w).modexp.e = w.modexp.e / 2 := by
  simp only [modExpStep, mulMod]

@[simp] theorem modExpStep_m (w : Work) : (modExpStep w).modexp.m = w.modexp.m := by
  simp only [modExpStep, mulMod]

@[simp] theorem modExpStep_b (w : Work) :
    (modExpStep w).modexp.b = w.modexp.b * w.modexp.b % w.modexp.m := by
  simp only [modExpStep, mulMod]

theorem modExpStep_res (w : Work) :
    (modExpStep w).modexp.res =
      if w.modexp.e % 2 = 1 then w.modexp.res * w.modexp.b % w.modexp.m else w.modexp.res := by
  simp only [modExpStep, mulMod]; split <;> rfl

@[simp] theorem modExpStep_p (w : Work) : (modExpStep w).p = w.modexp.b * w.modexp.b := by
  simp only [modExpStep, mulMod]

@[simp] theorem modExpStep_egcd (w : Work) : (modExpStep w).egcd = w.egcd := by
  simp only [modExpStep, mulMod]; split <;> rfl

@[simp] theorem modExpStep_mr (w : Work) : (modExpStep w).mr = w.mr := by
  simp only [modExpStep, mulMod]; split <;> rfl

/-- One iteration keeps `res * b^e` modulo `m` (R126). -/
theorem modExpStep_value (w : Work) : modExpValue (modExpStep w) = modExpValue w := by
  unfold modExpValue
  rw [modExpStep_m, modExpStep_e, modExpStep_b, modExpStep_res]
  set m := w.modexp.m
  set b := w.modexp.b
  set e := w.modexp.e
  set res := w.modexp.res
  have hb : (b * b % m) ^ (e / 2) ≡ b ^ (2 * (e / 2)) [MOD m] := by
    rw [pow_mul, pow_two]
    exact (Nat.mod_modEq _ _).pow _
  split
  · next h =>
    have he : e = 2 * (e / 2) + 1 := by omega
    have h1 : res * b % m * (b * b % m) ^ (e / 2) ≡ res * b * b ^ (2 * (e / 2)) [MOD m] :=
      (Nat.mod_modEq _ _).mul hb
    have h2 : res * b * b ^ (2 * (e / 2)) = res * b ^ e := by
      conv_rhs => rw [he, pow_succ]
      ring
    rw [h2] at h1
    exact h1
  · next h =>
    have he : e = 2 * (e / 2) := by omega
    have h1 : res * (b * b % m) ^ (e / 2) ≡ res * b ^ (2 * (e / 2)) [MOD m] := hb.mul_left res
    rw [← he] at h1
    exact h1

theorem modExpLoop_succ (k : Nat) (w : Work) :
    modExpLoop (k + 1) w = if 0 < w.modexp.e then modExpLoop k (modExpStep w) else w := rfl

/-- A property that every iteration keeps holds after any number of them. -/
theorem modExpLoop_keeps (P : Work → Prop) (hstep : ∀ w, 0 < w.modexp.e → P w → P (modExpStep w)) :
    ∀ k w, P w → P (modExpLoop k w)
  | 0, _, h => h
  | k + 1, w, h => by
    rw [modExpLoop_succ]
    split
    · next he => exact modExpLoop_keeps P hstep k _ (hstep w he h)
    · exact h

/-- After `bitlen(e)` iterations the exponent is 0 (R127). -/
theorem modExpLoop_e : ∀ k w, bitlen w.modexp.e ≤ k → (modExpLoop k w).modexp.e = 0
  | 0, w, h => by
    by_contra h0
    have : bitlen w.modexp.e ≠ 0 := by
      have h1 : w.modexp.e ≠ 0 := h0
      simp [bitlen, h1]
    omega
  | k + 1, w, h => by
    rw [modExpLoop_succ]
    split
    · next he =>
      apply modExpLoop_e k
      rw [modExpStep_e]
      have := bitlen_half (v := w.modexp.e) (by omega)
      omega
    · omega

@[simp] theorem modExpLoop_egcd (k : Nat) (w : Work) : (modExpLoop k w).egcd = w.egcd :=
  modExpLoop_keeps (fun v => v.egcd = w.egcd) (by simp) k w rfl

@[simp] theorem modExpLoop_mr (k : Nat) (w : Work) : (modExpLoop k w).mr = w.mr :=
  modExpLoop_keeps (fun v => v.mr = w.mr) (by simp) k w rfl

@[simp] theorem modExpLoop_m (k : Nat) (w : Work) : (modExpLoop k w).modexp.m = w.modexp.m :=
  modExpLoop_keeps (fun v => v.modexp.m = w.modexp.m) (by simp) k w rfl

@[simp] theorem modExp_egcd (b e m : Nat) (w : Work) : (modExp b e m w).egcd = w.egcd := by
  simp [modExp, modExpInit]

@[simp] theorem modExp_mr (b e m : Nat) (w : Work) : (modExp b e m w).mr = w.mr := by
  simp [modExp, modExpInit]

/-- The result stays below the modulus (R122). -/
theorem modExp_res_lt (b e m : Nat) (hm : 0 < m) (w : Work) : (modExp b e m w).modexp.res < m := by
  have := modExpLoop_keeps (fun v => v.modexp.m = m ∧ v.modexp.res < m)
    (by
      rintro v - ⟨h1, h2⟩
      rw [modExpStep_m, modExpStep_res, h1]
      refine ⟨rfl, ?_⟩
      split
      · exact Nat.mod_lt _ hm
      · exact h2)
    (bitlen e) (modExpInit b e m w) ⟨rfl, Nat.mod_lt _ hm⟩
  exact this.2

/-- `ModExp(base, exponent, modulus) = base^exponent mod modulus` for every modulus above 0 (R126), also for
exponent 0 and modulus 1 (R123). -/
theorem modExp_res (b e m : Nat) (hm : 0 < m) (w : Work) : (modExp b e m w).modexp.res = b ^ e % m := by
  have hv : modExpValue (modExp b e m w) = b ^ e % m := by
    have := modExpLoop_keeps (fun v => modExpValue v = b ^ e % m)
      (fun v _ h => (modExpStep_value v).trans h) (bitlen e) (modExpInit b e m w)
      (by
        change 1 % m * b ^ e % m = b ^ e % m
        rw [Nat.mod_mul_mod, one_mul])
    exact this
  have he : (modExp b e m w).modexp.e = 0 := modExpLoop_e _ _ le_rfl
  have hlt := modExp_res_lt b e m hm w
  have hmm : (modExp b e m w).modexp.m = m := by simp [modExp, modExpInit]
  unfold modExpValue at hv
  rw [he, pow_zero, mul_one, hmm, Nat.mod_eq_of_lt hlt] at hv
  exact hv

/-- Every iteration keeps MODEXP's registers and `P` in their widths (R122). -/
theorem modExpStep_inRange {w : Work} {width : Nat} (h : w.modexpInRange width) (hm : 0 < w.modexp.m) :
    (modExpStep w).modexpInRange width := by
  obtain ⟨h1, h2, h3, h4, -⟩ := h
  have hmod : ∀ x, x % w.modexp.m < 2 ^ width := fun x => lt_trans (Nat.mod_lt _ hm) h4
  refine ⟨?_, ?_, ?_, ?_, ?_⟩
  · rw [modExpStep_res]; split
    · exact hmod _
    · exact h1
  · rw [modExpStep_b]; exact hmod _
  · rw [modExpStep_e]; omega
  · rw [modExpStep_m]; exact h4
  · rw [modExpStep_p, two_mul, pow_add]; exact Nat.mul_lt_mul'' h2 h2

theorem modExpInit_inRange {b e m width : Nat} (hb : b < 2 ^ width) (he : e < 2 ^ width) (hm : 0 < m)
    (hm2 : m < 2 ^ width) {w : Work} (hp : w.p < 2 ^ (2 * width)) :
    (modExpInit b e m w).modexpInRange width :=
  ⟨lt_trans (Nat.mod_lt _ hm) hm2, hb, he, hm2, hp⟩

/-- At every point of the loop the registers fit (R122). -/
theorem modExpLoop_inRange (k : Nat) {w : Work} {width : Nat} (h : w.modexpInRange width) (hm : 0 < w.modexp.m) :
    (modExpLoop k w).modexpInRange width :=
  (modExpLoop_keeps (fun v => v.modexpInRange width ∧ 0 < v.modexp.m)
    (fun v _ hv => ⟨modExpStep_inRange hv.1 hv.2, by simpa using hv.2⟩) k w ⟨h, hm⟩).1

theorem modExp_inRange {b e m width : Nat} (hb : b < 2 ^ width) (he : e < 2 ^ width) (hm : 0 < m)
    (hm2 : m < 2 ^ width) {w : Work} (hp : w.p < 2 ^ (2 * width)) :
    (modExp b e m w).modexpInRange width :=
  modExpLoop_inRange _ (modExpInit_inRange hb he hm hm2 hp) hm

end Sys2Proof.Machine
end

