-- ==== Sys2Proof/Laws/MillerRabin.lean ====
section
/-! SUPPORT. What the Miller-Rabin sequencer computes (44_miller_rabin.md): the decomposition, one round, and the
rounds over a word stream against the relations of Sys2Proof/Safety.lean. -/

namespace Sys2Proof.Machine

/-! ### The decomposition (R157) -/

theorem decomposeLoop_succ (k : Nat) (m : MrRegs) :
    decomposeLoop (k + 1) m = if m.s % 2 = 0 then decomposeLoop k { m with s := m.s / 2, r := m.r + 1 } else m := rfl

/-- The loop changes `r` and `s` only. -/
theorem decomposeLoop_frame : ∀ k m, ∃ r s, decomposeLoop k m = { m with r := r, s := s }
  | 0, m => ⟨m.r, m.s, rfl⟩
  | k + 1, m => by
    rw [decomposeLoop_succ]
    split
    · obtain ⟨r, s, h⟩ := decomposeLoop_frame k { m with s := m.s / 2, r := m.r + 1 }
      exact ⟨r, s, h⟩
    · exact ⟨m.r, m.s, rfl⟩

theorem decomposeLoop_value : ∀ k m, 2 ^ (decomposeLoop k m).r * (decomposeLoop k m).s = 2 ^ m.r * m.s
  | 0, _ => rfl
  | k + 1, m => by
    rw [decomposeLoop_succ]
    split
    · next h =>
      rw [decomposeLoop_value k]
      change 2 ^ (m.r + 1) * (m.s / 2) = 2 ^ m.r * m.s
      rw [pow_succ, mul_assoc]
      congr 1
      omega
    · rfl

theorem decomposeLoop_odd : ∀ k m, m.s ≠ 0 → bitlen m.s ≤ k → (decomposeLoop k m).s % 2 = 1
  | 0, m, h0, hk => by simp [bitlen, h0] at hk
  | k + 1, m, h0, hk => by
    rw [decomposeLoop_succ]
    split
    · next h =>
      have := bitlen_half h0
      exact decomposeLoop_odd k _ (by change m.s / 2 ≠ 0; omega) (by change bitlen (m.s / 2) ≤ k; omega)
    · omega

/-- R157: `n - 1 = 2^r * s` with `s` odd, and nothing else of MRTEST's registers but `n`, `r`, `s` changes. -/
theorem decompose_spec (n : Nat) (hn : 2 ≤ n) (m : MrRegs) :
    ∃ r s, decompose n m = { m with n := n, r := r, s := s } ∧ Decomposed n r s := by
  obtain ⟨r, s, h⟩ := decomposeLoop_frame (bitlen (n - 1)) { m with n := n, r := 0, s := n - 1 }
  have hv := decomposeLoop_value (bitlen (n - 1)) { m with n := n, r := 0, s := n - 1 }
  have ho := decomposeLoop_odd (bitlen (n - 1)) { m with n := n, r := 0, s := n - 1 }
    (by change n - 1 ≠ 0; omega) le_rfl
  rw [h] at hv ho
  refine ⟨r, s, h, ?_, ho⟩
  have : 2 ^ r * s = 2 ^ 0 * (n - 1) := hv
  omega

/-- The decomposition is unique. -/
theorem decomposed_unique {n r s r' s' : Nat} (h : Decomposed n r s) (h' : Decomposed n r' s') : r = r' ∧ s = s' := by
  obtain ⟨h1, h2⟩ := h
  obtain ⟨h1', h2'⟩ := h'
  have key : ∀ a b x y : Nat, x % 2 = 1 → y % 2 = 1 → 2 ^ a * x = 2 ^ b * y → a ≤ b → a = b := by
    intro a b x y hx hy he hab
    obtain ⟨d, rfl⟩ := Nat.exists_eq_add_of_le hab
    rw [pow_add, mul_assoc] at he
    have he' := Nat.eq_of_mul_eq_mul_left (Nat.pow_pos (by decide)) he
    rcases Nat.eq_zero_or_pos d with hd | hd
    · omega
    · obtain ⟨e, rfl⟩ : ∃ e, d = e + 1 := ⟨d - 1, by omega⟩
      rw [pow_succ] at he'
      have : x = 2 * (2 ^ e * y) := by rw [he']; ring
      omega
  have hr : r = r' := by
    rcases Nat.le_total r r' with hle | hle
    · exact key r r' s s' h2 h2' (h1.symm.trans h1') hle
    · exact (key r' r s' s h2' h2 (h1'.symm.trans h1) hle).symm
  subst hr
  exact ⟨rfl, Nat.eq_of_mul_eq_mul_left (Nat.pow_pos (by decide)) (h1.symm.trans h1')⟩

/-- `r <= bitlen(n - 1)` (R157). -/
theorem decomposed_r_le {n r s : Nat} (h : Decomposed n r s) : r ≤ bitlen (n - 1) := by
  obtain ⟨h1, h2⟩ := h
  have h3 := lt_two_pow_bitlen (n - 1)
  have hs : 1 ≤ s := by omega
  have : 2 ^ r < 2 ^ bitlen (n - 1) := by
    calc 2 ^ r ≤ 2 ^ r * s := Nat.le_mul_of_pos_right _ hs
      _ = n - 1 := h1.symm
      _ < _ := h3
  exact ((Nat.pow_lt_pow_iff_right (by decide)).mp this).le

theorem decomposed_s_le {n r s : Nat} (h : Decomposed n r s) : s ≤ n - 1 := by
  rw [h.1]; exact Nat.le_mul_of_pos_left _ (Nat.pow_pos (by decide))

/-- An odd `n >= 3` has `r >= 1` (R157). -/
theorem decomposed_r_pos {n r s : Nat} (hn : 2 ≤ n) (hodd : n % 2 = 1) (h : Decomposed n r s) : 1 ≤ r := by
  by_contra h0
  have : r = 0 := by omega
  subst this
  have h1 := h.1
  have h2 := h.2
  rw [pow_zero, one_mul] at h1
  omega

/-! ### One round (R159) -/

/-- The squaring of the search, and its step to the next `j`. -/
def searchSquare (w : Work) : Work :=
  { w with
    p := w.mr.xw * w.mr.xw
    mr := { w.mr with xw := w.mr.xw * w.mr.xw % w.mr.n, j := w.mr.j + 1 } }

/-- The step to the next `j` without a squaring. -/
def searchNext (w : Work) : Work := { w with mr := { w.mr with j := w.mr.j + 1 } }

theorem searchLoop_succ (k : Nat) (w : Work) :
    searchLoop (k + 1) w =
      if w.mr.xw = w.mr.n - 1 then (w, true)
      else if w.mr.j < w.mr.r - 1 then searchLoop k (searchSquare w)
      else searchLoop k (searchNext w) := by
  rw [searchLoop]
  split
  · rfl
  · simp only [mulMod]
    split <;> rfl

/-- What the search keeps: everything but `xw`, `j` and `P`. -/
def SearchFrame (w v : Work) : Prop :=
  ∃ xw j p, v = { w with p := p, mr := { w.mr with xw := xw, j := j } }

theorem searchLoop_frame : ∀ k w, SearchFrame w (searchLoop k w).1
  | 0, w => ⟨w.mr.xw, w.mr.j, w.p, rfl⟩
  | k + 1, w => by
    rw [searchLoop_succ]
    split
    · exact ⟨w.mr.xw, w.mr.j, w.p, rfl⟩
    · split
      · obtain ⟨xw, j, p, h⟩ := searchLoop_frame k (searchSquare w)
        exact ⟨xw, j, p, h⟩
      · obtain ⟨xw, j, p, h⟩ := searchLoop_frame k (searchNext w)
        exact ⟨xw, j, p, h⟩

/-- The search over the `k` values of `j` still to try finds `n - 1` exactly where one of the squarings gives it. -/
theorem searchLoop_iff : ∀ k w, w.mr.xw < w.mr.n → w.mr.j + k = w.mr.r →
    ((searchLoop k w).2 = true ↔ ∃ i, i < k ∧ w.mr.xw ^ 2 ^ i % w.mr.n = w.mr.n - 1)
  | 0, w, _, _ => by simp [searchLoop]
  | k + 1, w, hlt, hj => by
    rw [searchLoop_succ]
    split
    · next h =>
      refine iff_of_true rfl ⟨0, by omega, ?_⟩
      rw [pow_zero, pow_one, Nat.mod_eq_of_lt hlt, h]
    · next h =>
      have h0 : ∀ i, w.mr.xw ^ 2 ^ i % w.mr.n = w.mr.n - 1 → i ≠ 0 := by
        rintro i hi rfl
        rw [pow_zero, pow_one, Nat.mod_eq_of_lt hlt] at hi
        exact h hi
      split
      · next hjr =>
        have hn : 0 < w.mr.n := by omega
        rw [searchLoop_iff k]
        · have hsq : ∀ i, (w.mr.xw * w.mr.xw % w.mr.n) ^ 2 ^ i % w.mr.n = w.mr.xw ^ 2 ^ (i + 1) % w.mr.n := by
            intro i
            rw [← Nat.pow_mod, ← pow_two, ← pow_mul, pow_succ' 2 i]
          constructor
          · rintro ⟨i, hi, he⟩
            exact ⟨i + 1, by omega, by rw [← hsq]; exact he⟩
          · rintro ⟨i, hi, he⟩
            obtain ⟨i', rfl⟩ : ∃ i', i = i' + 1 := ⟨i - 1, by have := h0 i he; omega⟩
            exact ⟨i', by omega, by change (w.mr.xw * w.mr.xw % w.mr.n) ^ 2 ^ i' % w.mr.n = _; rw [hsq]; exact he⟩
        · exact Nat.mod_lt _ hn
        · change w.mr.j + 1 + k = w.mr.r; omega
      · next hjr =>
        have hk : k = 0 := by omega
        subst hk
        simp only [searchLoop, Bool.false_eq_true, false_iff, not_exists, not_and]
        intro i hi he
        exact h0 i he (by omega)

theorem round_eq (a : Nat) (w : Work) :
    round a w =
      let w1 := modExp a w.mr.s w.mr.n { w with mr := { w.mr with a := a } }
      let w2 := { w1 with mr := { w1.mr with xw := w1.modexp.res, j := 0 } }
      if w2.mr.xw = 1 then (w2, true) else searchLoop w2.mr.r w2 := rfl

/-- What a round keeps of the state (R159): MRTEST's `n`, `r`, `s`, `i`, `c`, `l` and EGCD's registers. -/
def RoundFrame (a : Nat) (w v : Work) : Prop :=
  v.egcd = w.egcd ∧ ∃ xw j, v.mr = { w.mr with a := a, xw := xw, j := j }

theorem round_frame (a : Nat) (w : Work) : RoundFrame a w (round a w).1 := by
  rw [round_eq]
  simp only [modExp_mr]
  split
  · exact ⟨by simp, _, _, rfl⟩
  · obtain ⟨xw, j, p, h⟩ := searchLoop_frame w.mr.r
      { modExp a w.mr.s w.mr.n { w with mr := { w.mr with a := a } } with
        mr := { w.mr with a := a, xw := (modExp a w.mr.s w.mr.n { w with mr := { w.mr with a := a } }).modexp.res, j := 0 } }
    exact ⟨by rw [h]; simp, xw, j, by rw [h]⟩

/-- R159: a round passes exactly where the witness does not disprove primality. -/
theorem round_pass_iff (a : Nat) (w : Work) (hn : 1 < w.mr.n) (hd : Decomposed w.mr.n w.mr.r w.mr.s) :
    (round a w).2 = true ↔ WitnessPasses w.mr.n a := by
  have hres : (modExp a w.mr.s w.mr.n { w with mr := { w.mr with a := a } }).modexp.res = a ^ w.mr.s % w.mr.n :=
    modExp_res _ _ _ (by omega) _
  have hpow : ∀ i, (a ^ w.mr.s % w.mr.n) ^ 2 ^ i % w.mr.n = a ^ (2 ^ i * w.mr.s) % w.mr.n := by
    intro i
    rw [← Nat.pow_mod, ← pow_mul, mul_comm]
  rw [round_eq]
  simp only [modExp_mr, hres]
  have hW : WitnessPasses w.mr.n a ↔
      (a ^ w.mr.s % w.mr.n = 1 ∨ ∃ j, j < w.mr.r ∧ a ^ (2 ^ j * w.mr.s) % w.mr.n = w.mr.n - 1) := by
    constructor
    · rintro ⟨r, s, h, hp⟩
      obtain ⟨rfl, rfl⟩ := decomposed_unique h hd
      exact hp
    · exact fun hp => ⟨_, _, hd, hp⟩
  rw [hW]
  split
  · next h => exact iff_of_true rfl (Or.inl h)
  · next h =>
    rw [searchLoop_iff _ _ (Nat.mod_lt _ (by omega)) (Nat.zero_add _)]
    simp only [hpow]
    constructor
    · exact Or.inr
    · rintro (h1 | h1)
      · exact absurd h1 h
      · exact h1

/-! ### The words of a witness (R158) -/

/-- The position at the start of a draw. -/
theorem witnessWords_eq (n : Nat) : witnessWords n = candidateWords n := rfl

/-- The registers after `ws` more words of the same candidate. -/
def afterWords (w : Work) (ws : List Word) : Work :=
  { w with mr := { w.mr with c := w.mr.c + 2 ^ (32 * w.mr.l) * wordsValue ws, l := w.mr.l + ws.length } }

/-- Add words taken before to the count. -/
def MrProgress.addUsed (m : MrProgress) (k : Nat) : MrProgress := { m with used := m.used + k }

theorem takeWord_eq (rounds : Nat) (x : Word) (w : Work) :
    takeWord rounds x w =
      if w.mr.l + 1 < witnessWords w.mr.n then (afterWords w [x], none) else takeCandidate rounds (afterWords w [x]) := by
  have h : afterWords w [x] =
      { w with mr := { w.mr with c := w.mr.c + x.toNat * 2 ^ (32 * w.mr.l), l := w.mr.l + 1 } } := by
    simp [afterWords, wordsValue, mul_comm]
  rw [h]; rfl

theorem runRounds_cons (rounds : Nat) (x : Word) (q : List Word) (w : Work) :
    runRounds rounds (x :: q) w =
      match takeWord rounds x w with
      | (w1, some b) => { work := w1, rest := q, used := 1, answer := some b }
      | (w1, none) => (runRounds rounds q w1).addUsed 1 := rfl

/-- What follows a step of the rounds that left the working registers `p.1` and the answer `p.2`. -/
def continueWith (rounds : Nat) (q : List Word) (k : Nat) (p : Work × Option Bool) : MrProgress :=
  match p with
  | (w1, some b) => { work := w1, rest := q, used := k, answer := some b }
  | (w1, none) => (runRounds rounds q w1).addUsed k

theorem addUsed_add (m : MrProgress) (j k : Nat) : (m.addUsed j).addUsed k = m.addUsed (k + j) := by
  simp [MrProgress.addUsed, Nat.add_comm, Nat.add_left_comm]

theorem continueWith_addUsed (rounds : Nat) (q : List Word) (j k : Nat) (p : Work × Option Bool) :
    (continueWith rounds q j p).addUsed k = continueWith rounds q (k + j) p := by
  obtain ⟨w1, b⟩ := p
  cases b with
  | none => exact addUsed_add _ _ _
  | some b => simp [continueWith, MrProgress.addUsed, Nat.add_comm]

/-- The words that complete a candidate are taken one by one, then the candidate is judged (R158). -/
theorem runRounds_candidate (rounds : Nat) (q : List Word) : ∀ (ws : List Word) (w : Work), ws ≠ [] →
    w.mr.l + ws.length = witnessWords w.mr.n →
    runRounds rounds (ws ++ q) w = continueWith rounds q ws.length (takeCandidate rounds (afterWords w ws))
  | [], _, h, _ => absurd rfl h
  | [x], w, _, hl => by
    simp only [List.length_cons, List.length_nil] at hl
    rw [List.singleton_append, runRounds_cons, takeWord_eq, if_neg (by omega)]
    rfl
  | x :: y :: ws, w, _, hl => by
    simp only [List.length_cons] at hl
    rw [List.cons_append, runRounds_cons, takeWord_eq, if_pos (by omega)]
    have hstep := runRounds_candidate rounds q (y :: ws) (afterWords w [x]) (by simp)
      (by simp only [afterWords, List.length_cons, List.length_nil]; omega)
    change (runRounds rounds (y :: ws ++ q) (afterWords w [x])).addUsed 1 = _
    rw [hstep, continueWith_addUsed]
    have hw : afterWords (afterWords w [x]) (y :: ws) = afterWords w (x :: y :: ws) := by
      simp only [afterWords, wordsValue, List.length_cons, List.length_nil]
      congr 2
      · rw [show 32 * (w.mr.l + (0 + 1)) = 32 * w.mr.l + 32 by ring, pow_add]
        ring
      · omega
    rw [hw]
    congr 1
    simp only [List.length_cons]
    omega

/-- The working registers with the position put to the start of a draw. -/
def drawStart (w : Work) : Work := { w with mr := { w.mr with c := 0, l := 0 } }

theorem drawStart_of_fresh {w : Work} (hc : w.mr.c = 0) (hl : w.mr.l = 0) : drawStart w = w := by
  obtain ⟨m, e, ⟨n, r, s, a, xw, i, j, c, l⟩, p⟩ := w
  simp only at hc hl
  subst hc hl
  rfl

theorem takeCandidate_eq (rounds : Nat) (w : Work) (ws : List Word) (hc : w.mr.c = 0) (hl : w.mr.l = 0) :
    takeCandidate rounds (afterWords w ws) =
      if 1 ≤ candidateValue w.mr.n ws ∧ candidateValue w.mr.n ws ≤ w.mr.n - 1 then
        playRound rounds (candidateValue w.mr.n ws) w
      else (w, none) := by
  have hcv : (afterWords w ws).mr.c % 2 ^ witnessBits (afterWords w ws).mr.n = candidateValue w.mr.n ws := by
    simp [afterWords, hc, hl, candidateValue, witnessBits]
  have hn : (afterWords w ws).mr.n = w.mr.n := rfl
  have hd : drawStart (afterWords w ws) = w := drawStart_of_fresh hc hl
  have he : takeCandidate rounds (afterWords w ws) =
      if 1 ≤ (afterWords w ws).mr.c % 2 ^ witnessBits (afterWords w ws).mr.n ∧
          (afterWords w ws).mr.c % 2 ^ witnessBits (afterWords w ws).mr.n ≤ (afterWords w ws).mr.n - 1 then
        playRound rounds ((afterWords w ws).mr.c % 2 ^ witnessBits (afterWords w ws).mr.n) (drawStart (afterWords w ws))
      else (drawStart (afterWords w ws), none) := rfl
  rw [he, hcv, hn, hd]

theorem candidateWords_pos {n : Nat} (hn : 2 ≤ n) : 1 ≤ candidateWords n := by
  have : bitlen (n - 1) ≠ 0 := by
    have h : n - 1 ≠ 0 := by omega
    simp [bitlen, h]
  unfold candidateWords
  omega

/-- One attempt from the start of a draw (R158): exactly `L` words. -/
theorem runRounds_attempt (rounds : Nat) (ws q : List Word) (w : Work) (hn : 2 ≤ w.mr.n) (hc : w.mr.c = 0)
    (hl : w.mr.l = 0) (hlen : ws.length = candidateWords w.mr.n) :
    runRounds rounds (ws ++ q) w = continueWith rounds q ws.length
      (if 1 ≤ candidateValue w.mr.n ws ∧ candidateValue w.mr.n ws ≤ w.mr.n - 1 then
        playRound rounds (candidateValue w.mr.n ws) w
      else (w, none)) := by
  have hpos := candidateWords_pos hn
  rw [runRounds_candidate rounds q ws w (by rintro rfl; simp at hlen; omega)
    (by rw [hl, witnessWords_eq, hlen, Nat.zero_add]), takeCandidate_eq rounds w ws hc hl]

/-- A draw of the relation is the draw of the engine (R158). -/
theorem runRounds_draws (rounds : Nat) {n : Nat} {q q' : List Word} {a : Nat} (h : Draws n q a q') :
    ∀ w : Work, w.mr.n = n → 2 ≤ n → w.mr.c = 0 → w.mr.l = 0 →
    ∃ u, q.length = u + q'.length ∧ runRounds rounds q w = continueWith rounds q' u (playRound rounds a w) := by
  induction h with
  | accept ws q hlen h1 h2 =>
    rintro w rfl hn hc hl
    refine ⟨ws.length, by simp, ?_⟩
    rw [runRounds_attempt rounds ws q w hn hc hl hlen, if_pos ⟨h1, h2⟩]
  | reject ws q q' a hlen hrej hd ih =>
    rintro w rfl hn hc hl
    obtain ⟨u, hu, he⟩ := ih w rfl hn hc hl
    refine ⟨ws.length + u, by simp [hu, Nat.add_assoc], ?_⟩
    rw [runRounds_attempt rounds ws q w hn hc hl hlen, if_neg hrej]
    change (runRounds rounds q w).addUsed ws.length = _
    rw [he, continueWith_addUsed]

/-- Words that give no acceptable candidate are all taken, and the test has no answer (R243 (b)). -/
theorem runRounds_allRejected (rounds : Nat) {n : Nat} {q : List Word} (h : AllRejected n q) :
    ∀ w : Work, w.mr.n = n → 2 ≤ n → w.mr.c = 0 → w.mr.l = 0 →
    runRounds rounds q w = { work := w, rest := [], used := q.length, answer := none } := by
  induction h with
  | nil => intros; rfl
  | cons ws q hlen hrej hq ih =>
    rintro w rfl hn hc hl
    rw [runRounds_attempt rounds ws q w hn hc hl hlen, if_neg hrej]
    change (runRounds rounds q w).addUsed ws.length = _
    rw [ih w rfl hn hc hl]
    simp [MrProgress.addUsed, Nat.add_comm]

theorem playRound_eq (rounds a : Nat) (w : Work) :
    playRound rounds a w =
      if (round a w).2 = true then
        ({ (round a w).1 with mr := { (round a w).1.mr with i := (round a w).1.mr.i + 1 } },
          if rounds ≤ (round a w).1.mr.i + 1 then some true else none)
      else ((round a w).1, some false) := by
  rw [playRound]
  simp only
  split
  · split <;> rfl
  · rfl

/-- The rounds of the relation are the rounds of the engine (R160, R161, R163). -/
theorem runRounds_rounds (rounds : Nat) {n k : Nat} {q q' : List Word} {b : Bool} (h : Rounds n k q b q') :
    ∀ w : Work, w.mr.n = n → 2 ≤ n → Decomposed n w.mr.r w.mr.s → w.mr.c = 0 → w.mr.l = 0 → 1 ≤ k →
    w.mr.i + k = rounds →
    ∃ v u, q.length = u + q'.length ∧
      runRounds rounds q w = { work := v, rest := q', used := u, answer := some b } := by
  induction h with
  | none q => intro w _ _ _ _ _ h; omega
  | composite k q q' a hd hf =>
    rintro w rfl hn hdec hc hl - hi
    obtain ⟨u, hu, he⟩ := runRounds_draws rounds hd w rfl hn hc hl
    have hp : ¬(round a w).2 = true := fun h => hf ((round_pass_iff a w (by omega) hdec).mp h)
    rw [playRound_eq, if_neg hp] at he
    exact ⟨_, u, hu, he⟩
  | pass k q q' q'' a b hd ht hr ih =>
    rintro w rfl hn hdec hc hl - hi
    obtain ⟨u, hu, he⟩ := runRounds_draws rounds hd w rfl hn hc hl
    have hp : (round a w).2 = true := (round_pass_iff a w (by omega) hdec).mpr ht
    obtain ⟨-, xw, j, hm⟩ := round_frame a w
    rw [playRound_eq, if_pos hp, hm] at he
    simp only at he
    rcases Nat.eq_zero_or_pos k with hk | hk
    · subst hk
      cases hr
      rw [if_pos (by omega)] at he
      exact ⟨_, u, hu, he⟩
    · rw [if_neg (by omega)] at he
      obtain ⟨v, u2, hu2, he2⟩ := ih
        { (round a w).1 with mr := { w.mr with a := a, xw := xw, j := j, i := w.mr.i + 1 } }
        rfl hn hdec hc hl hk (by change w.mr.i + 1 + k = rounds; omega)
      refine ⟨v, u + u2, by omega, ?_⟩
      rw [he]
      change (runRounds rounds q' _).addUsed u = _
      rw [he2]
      simp [MrProgress.addUsed, Nat.add_comm]

/-! ### The stream (R163) -/

/-- No word is read ahead: words offered behind the last one taken do not change the run. -/
theorem runRounds_append_of_answer (rounds : Nat) (e : List Word) (b : Bool) : ∀ (q : List Word) (w : Work),
    (runRounds rounds q w).answer = some b →
    runRounds rounds (q ++ e) w = { runRounds rounds q w with rest := (runRounds rounds q w).rest ++ e }
  | [], _, h => by simp [runRounds] at h
  | x :: q, w, h => by
    rw [runRounds_cons] at h
    rw [List.cons_append, runRounds_cons, runRounds_cons]
    rcases hw : takeWord rounds x w with ⟨w1, o⟩
    rw [hw] at h
    cases o with
    | some b' => rfl
    | none =>
      change (runRounds rounds (q ++ e) w1).addUsed 1 = _
      rw [runRounds_append_of_answer rounds e b q w1 h]
      rfl

/-- Where the words end before there is an answer, all are taken, and more words go on from there. -/
theorem runRounds_append_of_wait (rounds : Nat) (e : List Word) : ∀ (q : List Word) (w : Work),
    (runRounds rounds q w).answer = none →
    runRounds rounds (q ++ e) w = (runRounds rounds e (runRounds rounds q w).work).addUsed q.length ∧
    (runRounds rounds q w).rest = [] ∧ (runRounds rounds q w).used = q.length
  | [], w, _ => by simp [runRounds, MrProgress.addUsed]
  | x :: q, w, h => by
    rw [runRounds_cons] at h
    rw [List.cons_append, runRounds_cons, runRounds_cons]
    rcases hw : takeWord rounds x w with ⟨w1, o⟩
    rw [hw] at h
    cases o with
    | some b' => simp at h
    | none =>
      obtain ⟨h1, h2, h3⟩ := runRounds_append_of_wait rounds e q w1 h
      refine ⟨?_, h2, ?_⟩
      · change (runRounds rounds (q ++ e) w1).addUsed 1 = (runRounds rounds e (runRounds rounds q w1).work).addUsed _
        rw [h1, addUsed_add, List.length_cons, Nat.add_comm]
      · change (runRounds rounds q w1).used + 1 = _
        rw [h3]; rfl

/-- The words taken and the words left make up the words offered. -/
theorem runRounds_used (rounds : Nat) : ∀ (q : List Word) (w : Work),
    (runRounds rounds q w).used + (runRounds rounds q w).rest.length = q.length
  | [], _ => rfl
  | x :: q, w => by
    rw [runRounds_cons]
    obtain ⟨w1, o⟩ := takeWord rounds x w
    cases o with
    | some b' => simp [Nat.add_comm]
    | none =>
      have := runRounds_used rounds q w1
      change (runRounds rounds q w1).used + 1 + (runRounds rounds q w1).rest.length = _
      simp only [List.length_cons]
      omega

/-! ### From the engine back to the relation -/

/-- Fewer words than a candidate needs give no answer. -/
theorem runRounds_short (rounds : Nat) : ∀ (q : List Word) (w : Work),
    w.mr.l + q.length < witnessWords w.mr.n → (runRounds rounds q w).answer = none
  | [], _, _ => rfl
  | x :: q, w, h => by
    simp only [List.length_cons] at h
    rw [runRounds_cons, takeWord_eq, if_pos (by omega)]
    exact runRounds_short rounds q (afterWords w [x])
      (by simp only [afterWords, List.length_cons, List.length_nil]; omega)

/-- A rejected attempt before the first round. -/
theorem Rounds.afterReject {n k : Nat} {ws q q' : List Word} {b : Bool} (hlen : ws.length = candidateWords n)
    (hrej : ¬(1 ≤ candidateValue n ws ∧ candidateValue n ws ≤ n - 1)) (hk : 1 ≤ k) (h : Rounds n k q b q') :
    Rounds n k (ws ++ q) b q' := by
  cases h with
  | none => omega
  | composite k _ _ a hd hf => exact .composite k _ _ a (.reject ws q q' a hlen hrej hd) hf
  | pass k _ q1 _ a b hd ht hr => exact .pass k _ q1 q' a b (.reject ws q q1 a hlen hrej hd) ht hr

/-- An answer of the engine is an answer of the relation (R158 to R161). -/
theorem rounds_of_runRounds (rounds n : Nat) (b : Bool) : ∀ (m : Nat) (q : List Word) (w : Work) (k : Nat),
    q.length ≤ m → w.mr.n = n → 2 ≤ n → Decomposed n w.mr.r w.mr.s → w.mr.c = 0 → w.mr.l = 0 → 1 ≤ k →
    w.mr.i + k = rounds → (runRounds rounds q w).answer = some b →
    Rounds n k q b (runRounds rounds q w).rest
  | m, q, w, k, hm, rfl, hn, hdec, hc, hl, hk, hi, ha => by
    by_cases hlen : q.length < candidateWords w.mr.n
    · rw [runRounds_short rounds q w (by rw [hl, Nat.zero_add]; exact hlen)] at ha
      simp at ha
    · obtain ⟨ws, q1, rfl, hws⟩ : ∃ ws q1, q = ws ++ q1 ∧ ws.length = candidateWords w.mr.n :=
        ⟨q.take (candidateWords w.mr.n), q.drop (candidateWords w.mr.n), (List.take_append_drop _ _).symm,
          by rw [List.length_take]; omega⟩
      have hpos := candidateWords_pos hn
      obtain ⟨m', rfl⟩ : ∃ m', m = m' + 1 := ⟨m - 1, by simp at hm; omega⟩
      have hq1 : q1.length ≤ m' := by simp at hm; omega
      have hatt := runRounds_attempt rounds ws q1 w hn hc hl hws
      rw [hatt] at ha ⊢
      split at ha
      · next hr =>
        rw [if_pos hr]
        rw [playRound_eq] at ha ⊢
        have hiff := round_pass_iff (candidateValue w.mr.n ws) w (by omega) hdec
        split at ha
        · next hp =>
          rw [if_pos hp]
          obtain ⟨-, xw, j, hmr⟩ := round_frame (candidateValue w.mr.n ws) w
          rw [hmr] at ha ⊢
          simp only at ha ⊢
          split at ha
          · next hle =>
            rw [if_pos hle]
            have : k = 1 := by omega
            subst this
            have hb : b = true := by simpa [continueWith] using ha.symm
            subst hb
            exact .pass 0 _ q1 q1 _ true (.accept ws q1 hws hr.1 hr.2) (hiff.mp hp) (.none q1)
          · next hle =>
            rw [if_neg hle]
            obtain ⟨k', rfl⟩ : ∃ k', k = k' + 1 := ⟨k - 1, by omega⟩
            refine .pass k' _ q1 _ _ b (.accept ws q1 hws hr.1 hr.2) (hiff.mp hp) ?_
            exact rounds_of_runRounds rounds w.mr.n b m' q1
              { (round (candidateValue w.mr.n ws) w).1 with
                mr := { w.mr with a := candidateValue w.mr.n ws, xw := xw, j := j, i := w.mr.i + 1 } } k'
              hq1 rfl hn hdec hc hl (by omega) (by change w.mr.i + 1 + k' = rounds; omega) ha
        · next hp =>
          rw [if_neg hp]
          have hb : b = false := by simpa [continueWith] using ha.symm
          subst hb
          obtain ⟨k', rfl⟩ : ∃ k', k = k' + 1 := ⟨k - 1, by omega⟩
          exact .composite k' _ q1 _ (.accept ws q1 hws hr.1 hr.2) (fun h => hp (hiff.mpr h))
      · next hr =>
        rw [if_neg hr]
        exact (rounds_of_runRounds rounds w.mr.n b m' q1 w k hq1 rfl hn hdec hc hl hk hi ha).afterReject hws hr hk

/-! ### Primes always pass (R164) -/

theorem pow_two_pow_eq_one {R : Type*} [CommRing R] [IsDomain R] (x : R) :
    ∀ r, x ^ 2 ^ r = 1 → x = 1 ∨ ∃ j, j < r ∧ x ^ 2 ^ j = -1
  | 0, h => Or.inl (by simpa using h)
  | r + 1, h => by
    rw [pow_succ, pow_mul, pow_two, mul_self_eq_one_iff] at h
    rcases h with h1 | h1
    · rcases pow_two_pow_eq_one x r h1 with h2 | ⟨j, hj, h2⟩
      · exact Or.inl h2
      · exact Or.inr ⟨j, by omega, h2⟩
    · exact Or.inr ⟨r, by omega, h1⟩

/-- A prime passes with every witness in `[1, n-1]` (R164; 93_implementation_defined.md G4). -/
theorem witnessPasses_of_prime {n a : Nat} (hp : n.Prime) (h1 : 1 ≤ a) (h2 : a ≤ n - 1) (hn : 2 < n) :
    WitnessPasses n a := by
  obtain ⟨r, s, -, hd⟩ := decompose_spec n hp.two_le Work.zero.mr
  refine ⟨r, s, hd, ?_⟩
  have : Fact n.Prime := ⟨hp⟩
  have ha : (a : ZMod n) ≠ 0 := by
    rw [Ne, ZMod.natCast_eq_zero_iff]
    exact Nat.not_dvd_of_pos_of_lt h1 (by omega)
  have hf : ((a : ZMod n) ^ s) ^ 2 ^ r = 1 := by
    rw [← pow_mul, mul_comm s, ← hd.1]
    exact ZMod.pow_card_sub_one_eq_one ha
  have hcast : ∀ e v : Nat, v < n → ((a : ZMod n) ^ e = (v : ZMod n) → a ^ e % n = v) := by
    intro e v hv h
    have : ((a ^ e : Nat) : ZMod n) = (v : ZMod n) := by exact_mod_cast h
    rw [ZMod.natCast_eq_natCast_iff, Nat.ModEq, Nat.mod_eq_of_lt hv] at this
    exact this
  rcases pow_two_pow_eq_one _ r hf with h | ⟨j, hj, h⟩
  · exact Or.inl (hcast s 1 (by omega) (by simpa using h))
  · refine Or.inr ⟨j, hj, hcast _ (n - 1) (by omega) ?_⟩
    rw [mul_comm, pow_mul, h]
    have : ((n - 1 : Nat) : ZMod n) + 1 = 0 := by
      have h3 : ((n - 1 + 1 : Nat) : ZMod n) = 0 := by
        rw [Nat.sub_add_cancel (by omega)]; exact ZMod.natCast_self n
      exact_mod_cast h3
    linear_combination -this

/-- The witness a draw gives lies in `[1, n-1]` (R158). -/
theorem draws_range {n a : Nat} {q q' : List Word} (h : Draws n q a q') : 1 ≤ a ∧ a ≤ n - 1 := by
  induction h with
  | accept _ _ _ h1 h2 => exact ⟨h1, h2⟩
  | reject _ _ _ _ _ _ _ ih => exact ih

/-- On a prime the rounds can only answer true (R164). -/
theorem rounds_of_prime {n k : Nat} {q q' : List Word} {b : Bool} (hp : n.Prime) (hn : 2 < n)
    (h : Rounds n k q b q') : b = true := by
  induction h with
  | none => rfl
  | composite _ _ _ _ hd hf => exact absurd (witnessPasses_of_prime hp (draws_range hd).1 (draws_range hd).2 hn) hf
  | pass _ _ _ _ _ _ _ _ _ ih => exact ih

/-- The words taken and the words left are the words offered (R163). -/
theorem runRounds_taken (rounds : Nat) : ∀ (q : List Word) (w : Work),
    ∃ taken, q = taken ++ (runRounds rounds q w).rest ∧ (runRounds rounds q w).used = taken.length
  | [], _ => ⟨[], rfl, rfl⟩
  | x :: q, w => by
    rw [runRounds_cons]
    obtain ⟨w1, o⟩ := takeWord rounds x w
    cases o with
    | some b => exact ⟨[x], rfl, rfl⟩
    | none =>
      obtain ⟨taken, h1, h2⟩ := runRounds_taken rounds q w1
      exact ⟨x :: taken, congrArg (x :: ·) h1, by simp [MrProgress.addUsed, h2]⟩

theorem takeCandidate_split (rounds : Nat) (w : Work) :
    takeCandidate rounds w =
      if 1 ≤ w.mr.c % 2 ^ witnessBits w.mr.n ∧ w.mr.c % 2 ^ witnessBits w.mr.n ≤ w.mr.n - 1 then
        playRound rounds (w.mr.c % 2 ^ witnessBits w.mr.n) (drawStart w)
      else (drawStart w, none) := rfl

/-- `n`, `r` and `s` are the same in two sets of working registers. -/
abbrev SameDecomposition (w v : Work) : Prop := v.mr.n = w.mr.n ∧ v.mr.r = w.mr.r ∧ v.mr.s = w.mr.s

theorem takeWord_decomposition (rounds : Nat) (x : Word) (w : Work) : SameDecomposition w (takeWord rounds x w).1 := by
  have hplay : ∀ a v, SameDecomposition v (playRound rounds a v).1 := by
    intro a v
    obtain ⟨-, xw, j, h⟩ := round_frame a v
    rw [playRound_eq]
    have hn : (round a v).1.mr.n = v.mr.n := by rw [h]
    have hr : (round a v).1.mr.r = v.mr.r := by rw [h]
    have hs : (round a v).1.mr.s = v.mr.s := by rw [h]
    split <;> exact ⟨hn, hr, hs⟩
  rw [takeWord_eq]
  split
  · exact ⟨rfl, rfl, rfl⟩
  · rw [takeCandidate_split]
    split
    · exact hplay _ (drawStart (afterWords w [x]))
    · exact ⟨rfl, rfl, rfl⟩

/-- The rounds keep the decomposition (R160). -/
theorem runRounds_decomposition (rounds : Nat) : ∀ (q : List Word) (w : Work),
    SameDecomposition w (runRounds rounds q w).work
  | [], _ => ⟨rfl, rfl, rfl⟩
  | x :: q, w => by
    have h := takeWord_decomposition rounds x w
    rw [runRounds_cons]
    rcases hw : takeWord rounds x w with ⟨w1, o⟩
    rw [hw] at h
    cases o with
    | some b => exact h
    | none =>
      obtain ⟨h1, h2, h3⟩ := runRounds_decomposition rounds q w1
      exact ⟨h1.trans h.1, h2.trans h.2.1, h3.trans h.2.2⟩

end Sys2Proof.Machine
end

