-- ==== Sys2Proof/Laws/State.lean ====
section
/-! SUPPORT. What each update of State does to each field, one lemma per field per update, all by rfl. -/

namespace Sys2Proof.Machine

section
variable (s : State)

/-! `State.setReg` -/

@[simp] theorem State.setReg_cfg (k : RegNum) (r : BigReg) : (s.setReg k r).cfg = s.cfg := rfl
@[simp] theorem State.setReg_regs (k : RegNum) (r : BigReg) : (s.setReg k r).regs = s.regs.set k r := rfl
@[simp] theorem State.setReg_cmd (k : RegNum) (r : BigReg) : (s.setReg k r).cmd = s.cmd := rfl
@[simp] theorem State.setReg_status (k : RegNum) (r : BigReg) : (s.setReg k r).status = s.status := rfl
@[simp] theorem State.setReg_ie (k : RegNum) (r : BigReg) : (s.setReg k r).ie = s.ie := rfl
@[simp] theorem State.setReg_flags (k : RegNum) (r : BigReg) : (s.setReg k r).flags = s.flags := rfl
@[simp] theorem State.setReg_rounds (k : RegNum) (r : BigReg) : (s.setReg k r).rounds = s.rounds := rfl
@[simp] theorem State.setReg_roundsL (k : RegNum) (r : BigReg) : (s.setReg k r).roundsL = s.roundsL := rfl
@[simp] theorem State.setReg_work (k : RegNum) (r : BigReg) : (s.setReg k r).work = s.work := rfl
@[simp] theorem State.setReg_rngpos (k : RegNum) (r : BigReg) : (s.setReg k r).rngpos = s.rngpos := rfl
@[simp] theorem State.setReg_rngQueue (k : RegNum) (r : BigReg) : (s.setReg k r).rngQueue = s.rngQueue := rfl
@[simp] theorem State.setReg_events (k : RegNum) (r : BigReg) : (s.setReg k r).events = s.events := rfl
@[simp] theorem State.setReg_bus (k : RegNum) (r : BigReg) : (s.setReg k r).bus = s.bus := rfl

/-! `State.writeX` -/

@[simp] theorem State.writeX_cfg (k : RegNum) (v : Int) : (s.writeX k v).cfg = s.cfg := rfl
@[simp] theorem State.writeX_regs (k : RegNum) (v : Int) : (s.writeX k v).regs = s.regs.set k (BigReg.ofInt v) := rfl
@[simp] theorem State.writeX_cmd (k : RegNum) (v : Int) : (s.writeX k v).cmd = s.cmd := rfl
@[simp] theorem State.writeX_status (k : RegNum) (v : Int) : (s.writeX k v).status = s.status := rfl
@[simp] theorem State.writeX_ie (k : RegNum) (v : Int) : (s.writeX k v).ie = s.ie := rfl
@[simp] theorem State.writeX_flags (k : RegNum) (v : Int) : (s.writeX k v).flags = s.flags := rfl
@[simp] theorem State.writeX_rounds (k : RegNum) (v : Int) : (s.writeX k v).rounds = s.rounds := rfl
@[simp] theorem State.writeX_roundsL (k : RegNum) (v : Int) : (s.writeX k v).roundsL = s.roundsL := rfl
@[simp] theorem State.writeX_work (k : RegNum) (v : Int) : (s.writeX k v).work = s.work := rfl
@[simp] theorem State.writeX_rngpos (k : RegNum) (v : Int) : (s.writeX k v).rngpos = s.rngpos := rfl
@[simp] theorem State.writeX_rngQueue (k : RegNum) (v : Int) : (s.writeX k v).rngQueue = s.rngQueue := rfl
@[simp] theorem State.writeX_events (k : RegNum) (v : Int) : (s.writeX k v).events = s.events := rfl
@[simp] theorem State.writeX_bus (k : RegNum) (v : Int) : (s.writeX k v).bus = s.bus := rfl

/-! `State.finish` -/

@[simp] theorem State.finish_cfg : (s.finish).cfg = s.cfg := rfl
@[simp] theorem State.finish_regs : (s.finish).regs = s.regs := rfl
@[simp] theorem State.finish_cmd : (s.finish).cmd = s.cmd := rfl
@[simp] theorem State.finish_status : (s.finish).status = { s.status with busy := false, done := true, err := .noError } := rfl
@[simp] theorem State.finish_ie : (s.finish).ie = s.ie := rfl
@[simp] theorem State.finish_flags : (s.finish).flags = s.flags := rfl
@[simp] theorem State.finish_rounds : (s.finish).rounds = s.rounds := rfl
@[simp] theorem State.finish_roundsL : (s.finish).roundsL = s.roundsL := rfl
@[simp] theorem State.finish_work : (s.finish).work = s.work := rfl
@[simp] theorem State.finish_rngpos : (s.finish).rngpos = s.rngpos := rfl
@[simp] theorem State.finish_rngQueue : (s.finish).rngQueue = s.rngQueue := rfl
@[simp] theorem State.finish_events : (s.finish).events = s.events := rfl
@[simp] theorem State.finish_bus : (s.finish).bus = s.bus := rfl

/-! `State.raise` -/

@[simp] theorem State.raise_cfg (e : ErrCode) : (s.raise e).cfg = s.cfg := rfl
@[simp] theorem State.raise_regs (e : ErrCode) : (s.raise e).regs = s.regs := rfl
@[simp] theorem State.raise_cmd (e : ErrCode) : (s.raise e).cmd = s.cmd := rfl
@[simp] theorem State.raise_status (e : ErrCode) : (s.raise e).status = { s.status with busy := false, done := true, err := e } := rfl
@[simp] theorem State.raise_ie (e : ErrCode) : (s.raise e).ie = s.ie := rfl
@[simp] theorem State.raise_flags (e : ErrCode) : (s.raise e).flags = s.flags := rfl
@[simp] theorem State.raise_rounds (e : ErrCode) : (s.raise e).rounds = s.rounds := rfl
@[simp] theorem State.raise_roundsL (e : ErrCode) : (s.raise e).roundsL = s.roundsL := rfl
@[simp] theorem State.raise_work (e : ErrCode) : (s.raise e).work = s.work := rfl
@[simp] theorem State.raise_rngpos (e : ErrCode) : (s.raise e).rngpos = s.rngpos := rfl
@[simp] theorem State.raise_rngQueue (e : ErrCode) : (s.raise e).rngQueue = s.rngQueue := rfl
@[simp] theorem State.raise_events (e : ErrCode) : (s.raise e).events = s.events := rfl
@[simp] theorem State.raise_bus (e : ErrCode) : (s.raise e).bus = s.bus := rfl

/-! `State.accept` -/

@[simp] theorem State.accept_cfg (v : Word) : (s.accept v).cfg = s.cfg := rfl
@[simp] theorem State.accept_regs (v : Word) : (s.accept v).regs = s.regs := rfl
@[simp] theorem State.accept_cmd (v : Word) : (s.accept v).cmd = v := rfl
@[simp] theorem State.accept_status (v : Word) : (s.accept v).status = { s.status with busy := true, done := false, err := .noError } := rfl
@[simp] theorem State.accept_ie (v : Word) : (s.accept v).ie = s.ie := rfl
@[simp] theorem State.accept_flags (v : Word) : (s.accept v).flags = s.flags := rfl
@[simp] theorem State.accept_rounds (v : Word) : (s.accept v).rounds = s.rounds := rfl
@[simp] theorem State.accept_roundsL (v : Word) : (s.accept v).roundsL = s.rounds := rfl
@[simp] theorem State.accept_work (v : Word) : (s.accept v).work = { s.work with mr := { s.work.mr with i := 0, c := 0, l := 0 } } := rfl
@[simp] theorem State.accept_rngpos (v : Word) : (s.accept v).rngpos = s.rngpos := rfl
@[simp] theorem State.accept_rngQueue (v : Word) : (s.accept v).rngQueue = s.rngQueue := rfl
@[simp] theorem State.accept_events (v : Word) : (s.accept v).events = s.events := rfl
@[simp] theorem State.accept_bus (v : Word) : (s.accept v).bus = s.bus := rfl

/-! `State.acknowledge` -/

@[simp] theorem State.acknowledge_cfg (v : Word) : (s.acknowledge v).cfg = s.cfg := rfl
@[simp] theorem State.acknowledge_regs (v : Word) : (s.acknowledge v).regs = s.regs := rfl
@[simp] theorem State.acknowledge_cmd (v : Word) : (s.acknowledge v).cmd = s.cmd := rfl
@[simp] theorem State.acknowledge_status (v : Word) : (s.acknowledge v).status = { s.status with done := s.status.done && !v.getLsbD 1, accErr := s.status.accErr && !v.getLsbD 2 } := rfl
@[simp] theorem State.acknowledge_ie (v : Word) : (s.acknowledge v).ie = s.ie := rfl
@[simp] theorem State.acknowledge_flags (v : Word) : (s.acknowledge v).flags = s.flags := rfl
@[simp] theorem State.acknowledge_rounds (v : Word) : (s.acknowledge v).rounds = s.rounds := rfl
@[simp] theorem State.acknowledge_roundsL (v : Word) : (s.acknowledge v).roundsL = s.roundsL := rfl
@[simp] theorem State.acknowledge_work (v : Word) : (s.acknowledge v).work = s.work := rfl
@[simp] theorem State.acknowledge_rngpos (v : Word) : (s.acknowledge v).rngpos = s.rngpos := rfl
@[simp] theorem State.acknowledge_rngQueue (v : Word) : (s.acknowledge v).rngQueue = s.rngQueue := rfl
@[simp] theorem State.acknowledge_events (v : Word) : (s.acknowledge v).events = s.events := rfl
@[simp] theorem State.acknowledge_bus (v : Word) : (s.acknowledge v).bus = s.bus := rfl

/-! `State.refuseAccess` -/

@[simp] theorem State.refuseAccess_cfg : (s.refuseAccess).cfg = s.cfg := rfl
@[simp] theorem State.refuseAccess_regs : (s.refuseAccess).regs = s.regs := rfl
@[simp] theorem State.refuseAccess_cmd : (s.refuseAccess).cmd = s.cmd := rfl
@[simp] theorem State.refuseAccess_status : (s.refuseAccess).status = { s.status with accErr := true } := rfl
@[simp] theorem State.refuseAccess_ie : (s.refuseAccess).ie = s.ie := rfl
@[simp] theorem State.refuseAccess_flags : (s.refuseAccess).flags = s.flags := rfl
@[simp] theorem State.refuseAccess_rounds : (s.refuseAccess).rounds = s.rounds := rfl
@[simp] theorem State.refuseAccess_roundsL : (s.refuseAccess).roundsL = s.roundsL := rfl
@[simp] theorem State.refuseAccess_work : (s.refuseAccess).work = s.work := rfl
@[simp] theorem State.refuseAccess_rngpos : (s.refuseAccess).rngpos = s.rngpos := rfl
@[simp] theorem State.refuseAccess_rngQueue : (s.refuseAccess).rngQueue = s.rngQueue := rfl
@[simp] theorem State.refuseAccess_events : (s.refuseAccess).events = s.events := rfl
@[simp] theorem State.refuseAccess_bus : (s.refuseAccess).bus = s.bus := rfl

/-! `State.offerWord` -/

@[simp] theorem State.offerWord_cfg (w : Word) : (s.offerWord w).cfg = s.cfg := rfl
@[simp] theorem State.offerWord_regs (w : Word) : (s.offerWord w).regs = s.regs := rfl
@[simp] theorem State.offerWord_cmd (w : Word) : (s.offerWord w).cmd = s.cmd := rfl
@[simp] theorem State.offerWord_status (w : Word) : (s.offerWord w).status = s.status := rfl
@[simp] theorem State.offerWord_ie (w : Word) : (s.offerWord w).ie = s.ie := rfl
@[simp] theorem State.offerWord_flags (w : Word) : (s.offerWord w).flags = s.flags := rfl
@[simp] theorem State.offerWord_rounds (w : Word) : (s.offerWord w).rounds = s.rounds := rfl
@[simp] theorem State.offerWord_roundsL (w : Word) : (s.offerWord w).roundsL = s.roundsL := rfl
@[simp] theorem State.offerWord_work (w : Word) : (s.offerWord w).work = s.work := rfl
@[simp] theorem State.offerWord_rngpos (w : Word) : (s.offerWord w).rngpos = s.rngpos := rfl
@[simp] theorem State.offerWord_rngQueue (w : Word) : (s.offerWord w).rngQueue = s.rngQueue ++ [w] := rfl
@[simp] theorem State.offerWord_events (w : Word) : (s.offerWord w).events = s.events := rfl
@[simp] theorem State.offerWord_bus (w : Word) : (s.offerWord w).bus = s.bus := rfl

/-! `State.setCompare` -/

@[simp] theorem State.setCompare_cfg (c : Cmp) : (s.setCompare c).cfg = s.cfg := rfl
@[simp] theorem State.setCompare_regs (c : Cmp) : (s.setCompare c).regs = s.regs := rfl
@[simp] theorem State.setCompare_cmd (c : Cmp) : (s.setCompare c).cmd = s.cmd := rfl
@[simp] theorem State.setCompare_status (c : Cmp) : (s.setCompare c).status = s.status := rfl
@[simp] theorem State.setCompare_ie (c : Cmp) : (s.setCompare c).ie = s.ie := rfl
@[simp] theorem State.setCompare_flags (c : Cmp) : (s.setCompare c).flags = s.flags.setCompare c := rfl
@[simp] theorem State.setCompare_rounds (c : Cmp) : (s.setCompare c).rounds = s.rounds := rfl
@[simp] theorem State.setCompare_roundsL (c : Cmp) : (s.setCompare c).roundsL = s.roundsL := rfl
@[simp] theorem State.setCompare_work (c : Cmp) : (s.setCompare c).work = s.work := rfl
@[simp] theorem State.setCompare_rngpos (c : Cmp) : (s.setCompare c).rngpos = s.rngpos := rfl
@[simp] theorem State.setCompare_rngQueue (c : Cmp) : (s.setCompare c).rngQueue = s.rngQueue := rfl
@[simp] theorem State.setCompare_events (c : Cmp) : (s.setCompare c).events = s.events := rfl
@[simp] theorem State.setCompare_bus (c : Cmp) : (s.setCompare c).bus = s.bus := rfl

/-! `State.setPrime` -/

@[simp] theorem State.setPrime_cfg (b : Bool) : (s.setPrime b).cfg = s.cfg := rfl
@[simp] theorem State.setPrime_regs (b : Bool) : (s.setPrime b).regs = s.regs := rfl
@[simp] theorem State.setPrime_cmd (b : Bool) : (s.setPrime b).cmd = s.cmd := rfl
@[simp] theorem State.setPrime_status (b : Bool) : (s.setPrime b).status = s.status := rfl
@[simp] theorem State.setPrime_ie (b : Bool) : (s.setPrime b).ie = s.ie := rfl
@[simp] theorem State.setPrime_flags (b : Bool) : (s.setPrime b).flags = s.flags.setPrime b := rfl
@[simp] theorem State.setPrime_rounds (b : Bool) : (s.setPrime b).rounds = s.rounds := rfl
@[simp] theorem State.setPrime_roundsL (b : Bool) : (s.setPrime b).roundsL = s.roundsL := rfl
@[simp] theorem State.setPrime_work (b : Bool) : (s.setPrime b).work = s.work := rfl
@[simp] theorem State.setPrime_rngpos (b : Bool) : (s.setPrime b).rngpos = s.rngpos := rfl
@[simp] theorem State.setPrime_rngQueue (b : Bool) : (s.setPrime b).rngQueue = s.rngQueue := rfl
@[simp] theorem State.setPrime_events (b : Bool) : (s.setPrime b).events = s.events := rfl
@[simp] theorem State.setPrime_bus (b : Bool) : (s.setPrime b).bus = s.bus := rfl

/-! `State.answerPrime` -/

@[simp] theorem State.answerPrime_cfg (b : Bool) : (s.answerPrime b).cfg = s.cfg := rfl
@[simp] theorem State.answerPrime_regs (b : Bool) : (s.answerPrime b).regs = s.regs := rfl
@[simp] theorem State.answerPrime_cmd (b : Bool) : (s.answerPrime b).cmd = s.cmd := rfl
@[simp] theorem State.answerPrime_status (b : Bool) : (s.answerPrime b).status = { s.status with busy := false, done := true, err := .noError } := rfl
@[simp] theorem State.answerPrime_ie (b : Bool) : (s.answerPrime b).ie = s.ie := rfl
@[simp] theorem State.answerPrime_flags (b : Bool) : (s.answerPrime b).flags = s.flags.setPrime b := rfl
@[simp] theorem State.answerPrime_rounds (b : Bool) : (s.answerPrime b).rounds = s.rounds := rfl
@[simp] theorem State.answerPrime_roundsL (b : Bool) : (s.answerPrime b).roundsL = s.roundsL := rfl
@[simp] theorem State.answerPrime_work (b : Bool) : (s.answerPrime b).work = s.work := rfl
@[simp] theorem State.answerPrime_rngpos (b : Bool) : (s.answerPrime b).rngpos = s.rngpos := rfl
@[simp] theorem State.answerPrime_rngQueue (b : Bool) : (s.answerPrime b).rngQueue = s.rngQueue := rfl
@[simp] theorem State.answerPrime_events (b : Bool) : (s.answerPrime b).events = s.events := rfl
@[simp] theorem State.answerPrime_bus (b : Bool) : (s.answerPrime b).bus = s.bus := rfl

/-! `State.answer` -/

@[simp] theorem State.answer_cfg (a : Answer) : (s.answer a).cfg = s.cfg := rfl
@[simp] theorem State.answer_regs (a : Answer) : (s.answer a).regs = s.regs := rfl
@[simp] theorem State.answer_cmd (a : Answer) : (s.answer a).cmd = s.cmd := rfl
@[simp] theorem State.answer_status (a : Answer) : (s.answer a).status = s.status := rfl
@[simp] theorem State.answer_ie (a : Answer) : (s.answer a).ie = s.ie := rfl
@[simp] theorem State.answer_flags (a : Answer) : (s.answer a).flags = s.flags := rfl
@[simp] theorem State.answer_rounds (a : Answer) : (s.answer a).rounds = s.rounds := rfl
@[simp] theorem State.answer_roundsL (a : Answer) : (s.answer a).roundsL = s.roundsL := rfl
@[simp] theorem State.answer_work (a : Answer) : (s.answer a).work = s.work := rfl
@[simp] theorem State.answer_rngpos (a : Answer) : (s.answer a).rngpos = s.rngpos := rfl
@[simp] theorem State.answer_rngQueue (a : Answer) : (s.answer a).rngQueue = s.rngQueue := rfl
@[simp] theorem State.answer_events (a : Answer) : (s.answer a).events = s.events := rfl
@[simp] theorem State.answer_bus (a : Answer) : (s.answer a).bus = some a := rfl

/-! `State.setSigns` -/

@[simp] theorem State.setSigns_cfg (v : Word) : (s.setSigns v).cfg = s.cfg := rfl
@[simp] theorem State.setSigns_regs (v : Word) : (s.setSigns v).regs = signedRegs s.regs v := rfl
@[simp] theorem State.setSigns_cmd (v : Word) : (s.setSigns v).cmd = s.cmd := rfl
@[simp] theorem State.setSigns_status (v : Word) : (s.setSigns v).status = s.status := rfl
@[simp] theorem State.setSigns_ie (v : Word) : (s.setSigns v).ie = s.ie := rfl
@[simp] theorem State.setSigns_flags (v : Word) : (s.setSigns v).flags = s.flags := rfl
@[simp] theorem State.setSigns_rounds (v : Word) : (s.setSigns v).rounds = s.rounds := rfl
@[simp] theorem State.setSigns_roundsL (v : Word) : (s.setSigns v).roundsL = s.roundsL := rfl
@[simp] theorem State.setSigns_work (v : Word) : (s.setSigns v).work = s.work := rfl
@[simp] theorem State.setSigns_rngpos (v : Word) : (s.setSigns v).rngpos = s.rngpos := rfl
@[simp] theorem State.setSigns_rngQueue (v : Word) : (s.setSigns v).rngQueue = s.rngQueue := rfl
@[simp] theorem State.setSigns_events (v : Word) : (s.setSigns v).events = s.events := rfl
@[simp] theorem State.setSigns_bus (v : Word) : (s.setSigns v).bus = s.bus := rfl

/-! `State.applyReset` -/

@[simp] theorem State.applyReset_cfg : (s.applyReset).cfg = s.cfg := rfl
@[simp] theorem State.applyReset_regs : (s.applyReset).regs = Vector.replicate 16 { sign := false, mag := 0 } := rfl
@[simp] theorem State.applyReset_cmd : (s.applyReset).cmd = 0#32 := rfl
@[simp] theorem State.applyReset_status : (s.applyReset).status = { busy := false, done := false, accErr := false, err := .noError } := rfl
@[simp] theorem State.applyReset_ie : (s.applyReset).ie = false := rfl
@[simp] theorem State.applyReset_flags : (s.applyReset).flags = { eq := false, lt := false, gt := false, prime := false } := rfl
@[simp] theorem State.applyReset_rounds : (s.applyReset).rounds = Config.resetRounds := rfl
@[simp] theorem State.applyReset_roundsL : (s.applyReset).roundsL = 0#32 := rfl
@[simp] theorem State.applyReset_work : (s.applyReset).work = s.work := rfl
@[simp] theorem State.applyReset_rngpos : (s.applyReset).rngpos = s.rngpos := rfl
@[simp] theorem State.applyReset_rngQueue : (s.applyReset).rngQueue = s.rngQueue := rfl
@[simp] theorem State.applyReset_events : (s.applyReset).events = s.events := rfl
@[simp] theorem State.applyReset_bus : (s.applyReset).bus = none := rfl

end

/-! `State.reg`, `State.x`, `State.width` and the register writes -/

theorem State.reg_eq (s : State) (k : RegNum) : s.reg k = s.regs[k] := rfl

theorem State.x_eq (s : State) (k : RegNum) : s.x k = (s.reg k).value := rfl

theorem State.width_eq (s : State) : s.width = s.cfg.width := rfl

/-- Two states with the same registers read alike. -/
theorem State.reg_congr {s t : State} (h : t.regs = s.regs) (k : RegNum) : t.reg k = s.reg k := by
  rw [State.reg_eq, State.reg_eq, h]

theorem State.x_congr {s t : State} (h : t.regs = s.regs) (k : RegNum) : t.x k = s.x k := by
  rw [State.x_eq, State.x_eq, State.reg_congr h]

@[simp] theorem State.reg_setReg_same (s : State) (k : RegNum) (r : BigReg) : (s.setReg k r).reg k = r := by
  simp [State.reg, State.setReg]

theorem State.reg_setReg_ne (s : State) {j k : RegNum} (h : j ≠ k) (r : BigReg) : (s.setReg k r).reg j = s.reg j := by
  have hv : k.val ≠ j.val := fun e => h (Fin.ext e.symm)
  simp [State.reg, State.setReg, hv]

theorem State.reg_setReg (s : State) (j k : RegNum) (r : BigReg) :
    (s.setReg k r).reg j = if j = k then r else s.reg j := by
  split
  · next h => rw [h, State.reg_setReg_same]
  · next h => exact State.reg_setReg_ne s h r

@[simp] theorem State.reg_writeX_same (s : State) (k : RegNum) (v : Int) : (s.writeX k v).reg k = BigReg.ofInt v :=
  State.reg_setReg_same s k _

theorem State.reg_writeX_ne (s : State) {j k : RegNum} (h : j ≠ k) (v : Int) : (s.writeX k v).reg j = s.reg j :=
  State.reg_setReg_ne s h _

theorem State.reg_writeX (s : State) (j k : RegNum) (v : Int) :
    (s.writeX k v).reg j = if j = k then BigReg.ofInt v else s.reg j := State.reg_setReg s j k _

@[simp] theorem State.reg_setSigns (s : State) (v : Word) (k : RegNum) :
    (s.setSigns v).reg k = { s.reg k with sign := v.getLsbD k.val } := by
  simp [State.reg, State.setSigns, signedRegs]

/-- `x[i] <- v` then `x[i]` gives `v` (00_scope.md R13). -/
@[simp] theorem BigReg.value_ofInt (v : Int) : (BigReg.ofInt v).value = v := by
  unfold BigReg.value BigReg.ofInt
  by_cases h : v < 0
  · rw [decide_eq_true h, if_pos rfl]; change -(v.natAbs : Int) = v; omega
  · rw [decide_eq_false h]; change (v.natAbs : Int) = v; omega

@[simp] theorem BigReg.mag_ofInt (v : Int) : (BigReg.ofInt v).mag = v.natAbs := rfl

@[simp] theorem BigReg.sign_ofInt (v : Int) : (BigReg.ofInt v).sign = decide (v < 0) := rfl

theorem State.x_writeX_same (s : State) (k : RegNum) (v : Int) : (s.writeX k v).x k = v := by
  simp [State.x]

theorem State.x_writeX_ne (s : State) {j k : RegNum} (h : j ≠ k) (v : Int) : (s.writeX k v).x j = s.x j := by
  rw [State.x_eq, State.reg_writeX_ne s h, State.x_eq]

/-- The magnitude of a value is the magnitude of the register (R21). -/
theorem BigReg.natAbs_value (r : BigReg) : r.value.natAbs = r.mag := by
  unfold BigReg.value
  split <;> simp

theorem State.natAbs_x (s : State) (k : RegNum) : (s.x k).natAbs = (s.reg k).mag := BigReg.natAbs_value _

end Sys2Proof.Machine
end

