-- ==== Sys2Proof/Laws/Exec.lean ====
section
/-! SUPPORT. What each command can end in, one lemma per case, and what every command has in common
(60_exceptions.md R202 to R205). -/

namespace Sys2Proof.Machine

/-- Replace the working registers. -/
def State.withWork (s : State) (w : Work) : State := { s with work := w }

@[simp] theorem State.withWork_regs (s : State) (w : Work) : (s.withWork w).regs = s.regs := rfl
@[simp] theorem State.withWork_status (s : State) (w : Work) : (s.withWork w).status = s.status := rfl
@[simp] theorem State.withWork_flags (s : State) (w : Work) : (s.withWork w).flags = s.flags := rfl
@[simp] theorem State.withWork_work (s : State) (w : Work) : (s.withWork w).work = w := rfl
@[simp] theorem State.withWork_cfg (s : State) (w : Work) : (s.withWork w).cfg = s.cfg := rfl
@[simp] theorem State.withWork_rngpos (s : State) (w : Work) : (s.withWork w).rngpos = s.rngpos := rfl
@[simp] theorem State.withWork_rngQueue (s : State) (w : Work) : (s.withWork w).rngQueue = s.rngQueue := rfl
@[simp] theorem State.withWork_reg (s : State) (w : Work) (k : RegNum) : (s.withWork w).reg k = s.reg k := rfl
@[simp] theorem State.withWork_x (s : State) (w : Work) (k : RegNum) : (s.withWork w).x k = s.x k := rfl

@[simp] theorem State.finish_reg (s : State) (k : RegNum) : s.finish.reg k = s.reg k := rfl
@[simp] theorem State.finish_x (s : State) (k : RegNum) : s.finish.x k = s.x k := rfl
@[simp] theorem State.raise_reg (s : State) (e : ErrCode) (k : RegNum) : (s.raise e).reg k = s.reg k := rfl
@[simp] theorem State.raise_x (s : State) (e : ErrCode) (k : RegNum) : (s.raise e).x k = s.x k := rfl

theorem State.finish_completed (s : State) : Completed s.finish .noError := ⟨rfl, rfl, rfl⟩

/-- R203: an error completion, also after the engine has used its working registers. -/
theorem State.raise_completion (s : State) (w : Work) (e : ErrCode) : ErrorCompletion s ((s.withWork w).raise e) e :=
  ⟨⟨rfl, rfl, rfl⟩, rfl, rfl, ⟨rfl, rfl, rfl, rfl, rfl, rfl, rfl, rfl⟩, ⟨rfl, rfl⟩⟩

theorem State.raise_completion_self (s : State) (e : ErrCode) : ErrorCompletion s (s.raise e) e :=
  s.raise_completion s.work e

theorem sameRegsBut_writeX (s : State) (k : RegNum) (v : Int) : SameRegsBut [k] s (s.writeX k v).finish :=
  fun j hj => State.reg_writeX_ne s (by simpa using hj) v

/-! ### The value order and Compare (40_bigint_comparator.md R100) -/

/-- The answer of Compare in terms of values (R100). -/
theorem compareRegs_eq (a b : BigReg) :
    compareRegs a b = if a.value < b.value then .lt else if a.value = b.value then .eq else .gt := by
  obtain ⟨sa, ma⟩ := a
  obtain ⟨sb, mb⟩ := b
  unfold compareRegs BigReg.value compareMag
  rcases Nat.eq_zero_or_pos ma with rfl | ha <;> rcases Nat.eq_zero_or_pos mb with rfl | hb <;>
    cases sa <;> cases sb <;> simp_all [Nat.pos_iff_ne_zero] <;>
    (try split_ifs) <;> first | omega | simp_all [Cmp.reverse]

theorem flags_setCompare (f : Flags) (c : Cmp) :
    f.setCompare c = { eq := decide (c = .eq), lt := decide (c = .lt), gt := decide (c = .gt), prime := f.prime } := rfl

/-! ### The ends of MUL (41_bigint_multiplier.md R111, R112) -/

theorem execMul_fits {s : State} {ra rb : RegNum} (rd : RegNum) (h : (s.x ra * s.x rb).natAbs < 2 ^ s.width) :
    execMul rd ra rb s = .next (s.writeX rd (s.x ra * s.x rb)).finish := by
  simp [execMul, State.fits, mulExact, h]

theorem execMul_overflow {s : State} {ra rb : RegNum} (rd : RegNum) (h : 2 ^ s.width ≤ (s.x ra * s.x rb).natAbs) :
    execMul rd ra rb s = .next (s.raise .overflow) := by
  simp [execMul, State.fits, mulExact, not_lt.mpr h]

/-! ### The ends of MODEXP (42_modular_exponentiation.md R121, R124, R125) -/

/-- MODEXP's working registers at the end of its loop. -/
def modexpWork (ra rb rc : RegNum) (s : State) : Work := modExp (s.xNat ra) (s.xNat rb) (s.xNat rc) s.work

theorem execModexp_modulus {s : State} {rc : RegNum} (rd ra rb : RegNum) (h : s.x rc ≤ 0) :
    execModexp rd ra rb rc s = .next (s.raise .invalidModulus) := by
  simp [execModexp, State.badModulus, h]

theorem execModexp_range {s : State} {ra rb rc : RegNum} (rd : RegNum) (h : 0 < s.x rc) (h2 : s.x ra < 0 ∨ s.x rb < 0) :
    execModexp rd ra rb rc s = .next (s.raise .operandRange) := by
  simp [execModexp, State.badModulus, State.negative, not_le.mpr h, h2]

theorem execModexp_ok {s : State} {ra rb rc : RegNum} (rd : RegNum) (h : 0 < s.x rc) (ha : 0 ≤ s.x ra)
    (hb : 0 ≤ s.x rb) :
    execModexp rd ra rb rc s =
      .next ((s.withWork (modexpWork ra rb rc s)).writeX rd ((modexpWork ra rb rc s).modexp.res : Int)).finish := by
  simp [execModexp, State.badModulus, State.negative, not_le.mpr h, not_lt.mpr ha, not_lt.mpr hb, State.withWork,
    modexpWork]

/-! ### The ends of EGCD and MODINV (43_extended_gcd_modinv.md R136, R137, R141 to R143) -/

/-- The working registers at the end of the Euclidean loop. -/
def egcdWork (ra rb : RegNum) (s : State) : Work := extGcd (s.xNat ra) (s.xNat rb) s.work

theorem execEgcd_illegal {rg rx ry : RegNum} (ra rb : RegNum) (s : State)
    (h : (Instr.egcd rg rx ry ra rb).wellFormed = false) :
    execEgcd rg rx ry ra rb s = .next (s.raise .illegalCommand) := by
  simp [execEgcd, h]

theorem execEgcd_range {rg rx ry ra rb : RegNum} {s : State} (h : (Instr.egcd rg rx ry ra rb).wellFormed = true)
    (h2 : s.x ra < 0 ∨ s.x rb < 0) :
    execEgcd rg rx ry ra rb s = .next (s.raise .operandRange) := by
  simp [execEgcd, h, State.negative, h2]

theorem execEgcd_ok {rg rx ry ra rb : RegNum} {s : State} (h : (Instr.egcd rg rx ry ra rb).wellFormed = true)
    (ha : 0 ≤ s.x ra) (hb : 0 ≤ s.x rb) :
    execEgcd rg rx ry ra rb s =
      .next ((((s.withWork (egcdWork ra rb s)).writeX rg ((egcdWork ra rb s).egcd.oldR : Int)).writeX rx
        (egcdWork ra rb s).egcd.oldS).writeX ry (egcdWork ra rb s).egcd.oldT).finish := by
  simp [execEgcd, h, State.negative, not_lt.mpr ha, not_lt.mpr hb, State.withWork, egcdWork]

theorem execModinv_modulus {s : State} {rb : RegNum} (rd ra : RegNum) (h : s.x rb ≤ 0) :
    execModinv rd ra rb s = .next (s.raise .invalidModulus) := by
  simp [execModinv, State.badModulus, h]

theorem execModinv_range {s : State} {ra rb : RegNum} (rd : RegNum) (h : 0 < s.x rb) (h2 : s.x ra < 0) :
    execModinv rd ra rb s = .next (s.raise .operandRange) := by
  simp [execModinv, State.badModulus, State.negative, not_le.mpr h, h2]

theorem int_gcd_xNat {s : State} {ra rb : RegNum} (ha : 0 ≤ s.x ra) (hb : 0 ≤ s.x rb) :
    Int.gcd (s.x ra) (s.x rb) = Nat.gcd (s.xNat ra) (s.xNat rb) := by
  unfold State.xNat
  rw [Int.gcd_eq_natAbs]
  congr 1 <;> omega

theorem egcdWork_oldR (ra rb : RegNum) (s : State) (ha : 0 ≤ s.x ra) (hb : 0 ≤ s.x rb) :
    (egcdWork ra rb s).egcd.oldR = Int.gcd (s.x ra) (s.x rb) := by
  rw [int_gcd_xNat ha hb]; exact extGcd_gcd _ _ _

theorem execModinv_notInvertible {s : State} {ra rb : RegNum} (rd : RegNum) (h : 0 < s.x rb) (ha : 0 ≤ s.x ra)
    (hg : Int.gcd (s.x ra) (s.x rb) ≠ 1) :
    execModinv rd ra rb s = .next ((s.withWork (egcdWork ra rb s)).raise .notInvertible) := by
  have hw := egcdWork_oldR ra rb s ha h.le
  rw [egcdWork] at hw
  simp [execModinv, State.badModulus, State.negative, not_le.mpr h, not_lt.mpr ha, hw, hg, State.withWork, egcdWork]

theorem execModinv_ok {s : State} {ra rb : RegNum} (rd : RegNum) (h : 0 < s.x rb) (ha : 0 ≤ s.x ra)
    (hg : Int.gcd (s.x ra) (s.x rb) = 1) :
    execModinv rd ra rb s = .next ((s.withWork (egcdWork ra rb s)).writeX rd
      (((egcdWork ra rb s).egcd.oldS + s.x rb) % s.x rb)).finish := by
  have hw := egcdWork_oldR ra rb s ha h.le
  rw [egcdWork] at hw
  simp [execModinv, State.badModulus, State.negative, not_le.mpr h, not_lt.mpr ha, hw, hg, State.withWork, egcdWork]

/-! ### The ends of MRTEST (44_miller_rabin.md R156, R160 to R162) -/

/-- The working registers after the decomposition. -/
def mrWork (ra : RegNum) (s : State) : Work := { s.work with mr := decompose (s.xNat ra) s.work.mr }

/-- The rounds over the words offered. -/
def mrRun (ra : RegNum) (s : State) : MrProgress := runRounds s.roundsL.toNat s.rngQueue (mrWork ra s)

/-- The state once the rounds have taken their words. -/
def mrState (ra : RegNum) (s : State) : State :=
  { s with work := (mrRun ra s).work, rngQueue := (mrRun ra s).rest, rngpos := s.rngpos + (mrRun ra s).used }

/-- `n < 2`, `n = 2`, `n` even (R156). -/
theorem execMrtest_early {s : State} {ra : RegNum} (h : s.x ra < 2 ∨ s.x ra = 2 ∨ s.x ra % 2 = 0) :
    execMrtest ra s = .next (s.answerPrime (decide (s.x ra = 2))) := by
  unfold execMrtest
  dsimp only
  split_ifs with h1 h2 h3
  · rw [decide_eq_false (by omega)]
  · rw [decide_eq_true h2]
  · rw [decide_eq_false h2]
  all_goals omega

/-- All rounds passed (R162). -/
theorem execMrtest_passed {s : State} {ra : RegNum} (h : 3 ≤ s.x ra) (hodd : s.x ra % 2 = 1)
    (hi : s.roundsL.toNat ≤ (mrWork ra s).mr.i) :
    execMrtest ra s = .next ((s.withWork (mrWork ra s)).answerPrime true) := by
  unfold execMrtest
  dsimp only
  rw [if_neg (by omega), if_neg (by omega), if_neg (by omega)]
  exact if_pos hi

/-- The rounds come to an answer (R160, R161). -/
theorem execMrtest_answer {s : State} {ra : RegNum} (h : 3 ≤ s.x ra) (hodd : s.x ra % 2 = 1)
    (hi : (mrWork ra s).mr.i < s.roundsL.toNat) {b : Bool} (ha : (mrRun ra s).answer = some b) :
    execMrtest ra s = .next ((mrState ra s).answerPrime b) := by
  unfold execMrtest
  dsimp only
  rw [if_neg (by omega), if_neg (by omega), if_neg (by omega)]
  refine (if_neg (not_le.mpr hi)).trans ?_
  unfold mrRun mrWork State.xNat at ha
  rw [ha]
  rfl

/-- The engine waits for words (R166, 70_reset_and_hazards.md R243). -/
theorem execMrtest_wait {s : State} {ra : RegNum} (h : 3 ≤ s.x ra) (hodd : s.x ra % 2 = 1)
    (hi : (mrWork ra s).mr.i < s.roundsL.toNat) (ha : (mrRun ra s).answer = none) :
    execMrtest ra s = .next (mrState ra s) := by
  unfold execMrtest
  dsimp only
  rw [if_neg (by omega), if_neg (by omega), if_neg (by omega)]
  refine (if_neg (not_le.mpr hi)).trans ?_
  unfold mrRun mrWork State.xNat at ha
  rw [ha]
  rfl

/-- The decomposition leaves the round counter and the draw (R157). -/
theorem mrWork_spec {s : State} {ra : RegNum} (h : 3 ≤ s.x ra) :
    ∃ r t, (mrWork ra s).mr = { s.work.mr with n := s.xNat ra, r := r, s := t } ∧ Decomposed (s.xNat ra) r t :=
  decompose_spec _ (by unfold State.xNat; omega) _

theorem mrWork_i {s : State} {ra : RegNum} (h : 3 ≤ s.x ra) : (mrWork ra s).mr.i = s.work.mr.i := by
  obtain ⟨r, t, h1, -⟩ := mrWork_spec h
  rw [h1]

/-- Every MRTEST has one of these ends. -/
theorem execMrtest_cases (ra : RegNum) (s : State) :
    ((s.x ra < 2 ∨ s.x ra = 2 ∨ s.x ra % 2 = 0) ∧ execMrtest ra s = .next (s.answerPrime (decide (s.x ra = 2)))) ∨
    (3 ≤ s.x ra ∧ s.x ra % 2 = 1 ∧
      ((s.roundsL.toNat ≤ (mrWork ra s).mr.i ∧ execMrtest ra s = .next ((s.withWork (mrWork ra s)).answerPrime true)) ∨
      ((mrWork ra s).mr.i < s.roundsL.toNat ∧
        ((∃ b, (mrRun ra s).answer = some b ∧ execMrtest ra s = .next ((mrState ra s).answerPrime b)) ∨
        ((mrRun ra s).answer = none ∧ execMrtest ra s = .next (mrState ra s)))))) := by
  by_cases h : s.x ra < 2 ∨ s.x ra = 2 ∨ s.x ra % 2 = 0
  · exact .inl ⟨h, execMrtest_early h⟩
  · have h3 : 3 ≤ s.x ra := by omega
    have hodd : s.x ra % 2 = 1 := by omega
    refine .inr ⟨h3, hodd, ?_⟩
    rcases le_or_gt s.roundsL.toNat (mrWork ra s).mr.i with hi | hi
    · exact .inl ⟨hi, execMrtest_passed h3 hodd hi⟩
    · refine .inr ⟨hi, ?_⟩
      cases ha : (mrRun ra s).answer with
      | some b => exact .inl ⟨b, rfl, execMrtest_answer h3 hodd hi ha⟩
      | none => exact .inr ⟨rfl, execMrtest_wait h3 hodd hi ha⟩

/-- Where the engine waits, the next turn goes on from the registers the waiting turn left. -/
theorem mrWork_of_waiting {ra : RegNum} {s t : State} (h : 3 ≤ s.x ra) (hr : t.regs = s.regs)
    (hw : t.work = (mrRun ra s).work) : mrWork ra t = (mrRun ra s).work := by
  obtain ⟨r, u, h1, hd⟩ := mrWork_spec h
  have hx : t.x ra = s.x ra := State.x_congr hr ra
  obtain ⟨r', u', h1', hd'⟩ := mrWork_spec (s := t) (ra := ra) (by rw [hx]; exact h)
  have hxn : t.xNat ra = s.xNat ra := by unfold State.xNat; rw [hx]
  rw [hxn] at h1' hd'
  obtain ⟨rfl, rfl⟩ := decomposed_unique hd hd'
  obtain ⟨f1, f2, f3⟩ := runRounds_decomposition s.roundsL.toNat s.rngQueue (mrWork ra s)
  rw [h1] at f1 f2 f3
  have : mrWork ra t = { t.work with mr := (mrWork ra t).mr } := rfl
  rw [this, h1', hw]
  have f1' : (mrRun ra s).work.mr.n = s.xNat ra := f1
  have f2' : (mrRun ra s).work.mr.r = r := f2
  have f3' : (mrRun ra s).work.mr.s = u := f3
  rw [← f1', ← f2', ← f3']

/-! ### What every command has in common -/

/-- How a command ends: with an error after using only working registers; normally, with its registers or its flags
written; or not yet, waiting for words (R202, R203, 70_reset_and_hazards.md R243). -/
inductive Ends (i : Instr) (s : State) : State → Prop where
  | error (w : Work) (e : ErrCode) : e ≠ .noError → (∀ ra, i ≠ .mrtest ra) → Ends i s ((s.withWork w).raise e)
  | compared (ra rb : RegNum) : i = .cmp ra rb → Ends i s (s.setCompare (compareRegs (s.reg ra) (s.reg rb))).finish
  | wrote (w : Work) (regs : Vector BigReg 16) : (∀ ra, i ≠ .mrtest ra) →
      Ends i s ({ s.withWork w with regs := regs } : State).finish
  | early (ra : RegNum) (b : Bool) : i = .mrtest ra → Ends i s (s.answerPrime b)
  | passed (ra : RegNum) : i = .mrtest ra → 3 ≤ s.x ra → Ends i s ((s.withWork (mrWork ra s)).answerPrime true)
  | answered (ra : RegNum) (b : Bool) : i = .mrtest ra → 3 ≤ s.x ra → (mrWork ra s).mr.i < s.roundsL.toNat →
      (mrRun ra s).answer = some b → Ends i s ((mrState ra s).answerPrime b)
  | waits (ra : RegNum) : i = .mrtest ra → 3 ≤ s.x ra → (mrWork ra s).mr.i < s.roundsL.toNat →
      (mrRun ra s).answer = none → Ends i s (mrState ra s)

/-- Every command gives a next state, which is one of these ends. -/
theorem exec_ends (i : Instr) (s : State) : ∃ t, exec i s = .next t ∧ Ends i s t := by
  cases i with
  | cmp ra rb => exact ⟨_, rfl, .compared ra rb rfl⟩
  | mul rd ra rb =>
    rcases lt_or_ge (s.x ra * s.x rb).natAbs (2 ^ s.width) with h | h
    · exact ⟨_, execMul_fits rd h, .wrote s.work _ (by simp)⟩
    · exact ⟨_, execMul_overflow rd h, .error s.work _ (by simp) (by simp)⟩
  | modexp rd ra rb rc =>
    rcases le_or_gt (s.x rc) 0 with h | h
    · exact ⟨_, execModexp_modulus rd ra rb h, .error s.work _ (by simp) (by simp)⟩
    · by_cases h2 : s.x ra < 0 ∨ s.x rb < 0
      · exact ⟨_, execModexp_range rd h h2, .error s.work _ (by simp) (by simp)⟩
      · exact ⟨_, execModexp_ok rd h (by omega) (by omega), .wrote _ _ (by simp)⟩
  | egcd rg rx ry ra rb =>
    cases hw : (Instr.egcd rg rx ry ra rb).wellFormed with
    | false => exact ⟨_, execEgcd_illegal ra rb s hw, .error s.work _ (by simp) (by simp)⟩
    | true =>
      by_cases h2 : s.x ra < 0 ∨ s.x rb < 0
      · exact ⟨_, execEgcd_range hw h2, .error s.work _ (by simp) (by simp)⟩
      · exact ⟨_, execEgcd_ok hw (by omega) (by omega), .wrote _ _ (by simp)⟩
  | modinv rd ra rb =>
    rcases le_or_gt (s.x rb) 0 with h | h
    · exact ⟨_, execModinv_modulus rd ra h, .error s.work _ (by simp) (by simp)⟩
    · rcases lt_or_ge (s.x ra) 0 with h2 | h2
      · exact ⟨_, execModinv_range rd h h2, .error s.work _ (by simp) (by simp)⟩
      · by_cases hg : Int.gcd (s.x ra) (s.x rb) = 1
        · exact ⟨_, execModinv_ok rd h h2 hg, .wrote _ _ (by simp)⟩
        · exact ⟨_, execModinv_notInvertible rd h h2 hg, .error _ _ (by simp) (by simp)⟩
  | mrtest ra =>
    rcases execMrtest_cases ra s with ⟨h, he⟩ | ⟨h3, hodd, ⟨hi, he⟩ | ⟨hi, ⟨b, ha, he⟩ | ⟨ha, he⟩⟩⟩
    · exact ⟨_, he, .early ra _ rfl⟩
    · exact ⟨_, he, .passed ra rfl h3⟩
    · exact ⟨_, he, .answered ra b rfl h3 hi ha⟩
    · exact ⟨_, he, .waits ra rfl h3 hi ha⟩

theorem ends_of_exec {i : Instr} {s t : State} (h : exec i s = .next t) : Ends i s t := by
  obtain ⟨u, hu, he⟩ := exec_ends i s
  rw [hu] at h
  cases h
  exact he

/-- What no command changes (R202). -/
theorem Ends.sameControl {i : Instr} {s t : State} (h : Ends i s t) : SameControl s t := by
  cases h <;> exact ⟨rfl, rfl, rfl, rfl, rfl, rfl, rfl, rfl⟩

/-- A command that is still running has changed neither STATUS nor a register nor a flag (R37). -/
theorem Ends.waiting {i : Instr} {s t : State} (h : Ends i s t) (hb : t.status.busy = true) :
    t.status = s.status ∧ t.regs = s.regs ∧ t.flags = s.flags := by
  cases h <;> first | (exact ⟨rfl, rfl, rfl⟩) | simp at hb

end Sys2Proof.Machine
end

