-- ==== Sys2Proof/Laws/Limbs.lean ====
section
/-! SUPPORT. Reading and writing the limbs of a big register (20_memory.md R52, R53). -/

namespace Sys2Proof.Machine

@[simp] theorem BigReg.sign_setLimb (r : BigReg) (i : Nat) (v : Word) : (r.setLimb i v).sign = r.sign := by
  unfold BigReg.setLimb; rfl

/-- The magnitude as the bits below limb `i`, then limb `i` and the bits above it. -/
theorem BigReg.mag_setLimb (r : BigReg) (i : Nat) (v : Word) :
    (r.setLimb i v).mag = r.mag % 2 ^ (32 * i) + 2 ^ (32 * i) * (v.toNat + 2 ^ 32 * (r.mag / 2 ^ (32 * (i + 1)))) := by
  have h : (r.setLimb i v).mag =
      r.mag % 2 ^ (32 * i) + v.toNat * 2 ^ (32 * i) + r.mag / 2 ^ (32 * (i + 1)) * 2 ^ (32 * (i + 1)) := by
    unfold BigReg.setLimb; rfl
  have hs : 2 ^ (32 * (i + 1)) = 2 ^ (32 * i) * 2 ^ 32 := by rw [← pow_add]; congr 1
  rw [h]
  generalize r.mag / 2 ^ (32 * (i + 1)) = x
  rw [hs]
  ring

theorem BigReg.toNat_limb (r : BigReg) (i : Nat) : (r.limb i).toNat = r.mag / 2 ^ (32 * i) % 2 ^ 32 :=
  BitVec.toNat_ofNat _ _

/-- Bits above a remainder, cut off again. -/
theorem div_mod_of_lt (m : Nat) {i j : Nat} (h : j < i) :
    m % 2 ^ (32 * i) / 2 ^ (32 * j) % 2 ^ 32 = m / 2 ^ (32 * j) % 2 ^ 32 := by
  obtain ⟨d, rfl⟩ : ∃ d, i = j + (d + 1) := ⟨i - j - 1, by omega⟩
  rw [Nat.mul_add 32 j, pow_add, Nat.mod_mul_right_div_self, Nat.mul_add 32 d 1, Nat.mul_one]
  exact Nat.mod_mod_of_dvd _ (pow_dvd_pow 2 (Nat.le_add_left _ _))

/-- A read after a write of the same limb gives the word written (R52). -/
@[simp] theorem BigReg.limb_setLimb_same (r : BigReg) (i : Nat) (v : Word) : (r.setLimb i v).limb i = v := by
  apply BitVec.eq_of_toNat_eq
  rw [BigReg.toNat_limb, BigReg.mag_setLimb, Nat.add_mul_div_left _ _ (by positivity),
    Nat.div_eq_of_lt (Nat.mod_lt _ (by positivity)), Nat.zero_add, Nat.add_mul_mod_self_left, Nat.mod_eq_of_lt v.isLt]

/-- A write of a limb leaves every other limb alone (R52). -/
theorem BigReg.limb_setLimb_ne (r : BigReg) {i j : Nat} (h : j ≠ i) (v : Word) : (r.setLimb i v).limb j = r.limb j := by
  apply BitVec.eq_of_toNat_eq
  rw [BigReg.toNat_limb, BigReg.toNat_limb, BigReg.mag_setLimb]
  rcases Nat.lt_or_gt_of_ne h with hlt | hgt
  · rw [← div_mod_of_lt _ hlt, Nat.add_mul_mod_self_left, Nat.mod_mod, div_mod_of_lt _ hlt]
  · obtain ⟨d, rfl⟩ : ∃ d, j = i + (d + 1) := ⟨j - i - 1, by omega⟩
    have hs : 2 ^ (32 * (i + (d + 1))) = 2 ^ (32 * i) * 2 ^ 32 * 2 ^ (32 * d) := by
      rw [← pow_add, ← pow_add]; congr 1; ring
    have hs1 : 2 ^ (32 * (i + 1)) = 2 ^ (32 * i) * 2 ^ 32 := by rw [← pow_add]; congr 1
    rw [hs, ← Nat.div_div_eq_div_mul, ← Nat.div_div_eq_div_mul, Nat.add_mul_div_left _ _ (by positivity),
      Nat.div_eq_of_lt (Nat.mod_lt _ (by positivity)), Nat.zero_add, Nat.add_mul_div_left _ _ (by positivity),
      Nat.div_eq_of_lt v.isLt, Nat.zero_add, hs1, Nat.div_div_eq_div_mul r.mag]

/-- A write of a limb below `NLIMBS` keeps the magnitude in its width. -/
theorem BigReg.setLimb_lt {r : BigReg} {i n : Nat} (hi : i < n) (v : Word) (h : r.mag < 2 ^ (32 * n)) :
    (r.setLimb i v).mag < 2 ^ (32 * n) := by
  obtain ⟨d, rfl⟩ : ∃ d, n = i + 1 + d := ⟨n - (i + 1), by omega⟩
  rw [BigReg.mag_setLimb]
  have hs : 2 ^ (32 * (i + 1 + d)) = 2 ^ (32 * i) * (2 ^ 32 * 2 ^ (32 * d)) := by
    rw [← pow_add, ← pow_add]; congr 1; ring
  have hs1 : 2 ^ (32 * (i + 1)) = 2 ^ (32 * i) * 2 ^ 32 := by rw [← pow_add]; congr 1
  have hhigh : r.mag / 2 ^ (32 * (i + 1)) < 2 ^ (32 * d) := by
    rw [Nat.div_lt_iff_lt_mul (by positivity), ← pow_add]
    have : 32 * d + 32 * (i + 1) = 32 * (i + 1 + d) := by ring
    rwa [this]
  have hlow := Nat.mod_lt r.mag (show 0 < 2 ^ (32 * i) by positivity)
  have hv := v.isLt
  rw [hs]
  have h1 : v.toNat + 2 ^ 32 * (r.mag / 2 ^ (32 * (i + 1))) + 1 ≤ 2 ^ 32 * 2 ^ (32 * d) := by
    calc v.toNat + 2 ^ 32 * (r.mag / 2 ^ (32 * (i + 1))) + 1
        ≤ 2 ^ 32 + 2 ^ 32 * (r.mag / 2 ^ (32 * (i + 1))) := by omega
      _ = 2 ^ 32 * (r.mag / 2 ^ (32 * (i + 1)) + 1) := by ring
      _ ≤ 2 ^ 32 * 2 ^ (32 * d) := Nat.mul_le_mul_left _ hhigh
  calc r.mag % 2 ^ (32 * i) + 2 ^ (32 * i) * (v.toNat + 2 ^ 32 * (r.mag / 2 ^ (32 * (i + 1))))
      < 2 ^ (32 * i) + 2 ^ (32 * i) * (v.toNat + 2 ^ 32 * (r.mag / 2 ^ (32 * (i + 1)))) := by omega
    _ = 2 ^ (32 * i) * (v.toNat + 2 ^ 32 * (r.mag / 2 ^ (32 * (i + 1))) + 1) := by ring
    _ ≤ _ := Nat.mul_le_mul_left _ h1

/-- Two magnitudes below `2^(32*n)` with the same `n` limbs are equal (R53). -/
theorem mag_eq_of_limbs : ∀ (n a b : Nat), a < 2 ^ (32 * n) → b < 2 ^ (32 * n) →
    (∀ i, i < n → a / 2 ^ (32 * i) % 2 ^ 32 = b / 2 ^ (32 * i) % 2 ^ 32) → a = b
  | 0, a, b, ha, hb, _ => by simp at ha hb; omega
  | n + 1, a, b, ha, hb, h => by
    have h0 := h 0 (by omega)
    simp only [Nat.mul_zero, pow_zero, Nat.div_one] at h0
    rw [Nat.mul_add, Nat.mul_one, pow_add] at ha hb
    have hrec := mag_eq_of_limbs n (a / 2 ^ 32) (b / 2 ^ 32)
      ((Nat.div_lt_iff_lt_mul (by positivity)).mpr ha) ((Nat.div_lt_iff_lt_mul (by positivity)).mpr hb)
      (fun i hi => by
        have := h (i + 1) (by omega)
        rw [Nat.mul_add, Nat.mul_one, pow_add, mul_comm (2 ^ (32 * i))] at this
        rw [Nat.div_div_eq_div_mul, Nat.div_div_eq_div_mul]
        exact this)
    omega

/-! ### SIGN (10_state.md R32) -/

theorem signBits_lt : ∀ l : List BigReg, signBits l < 2 ^ l.length
  | [] => by simp [signBits]
  | r :: rs => by
    have := signBits_lt rs
    have hb : r.sign.toNat ≤ 1 := Bool.toNat_le _
    rw [signBits, List.length_cons, pow_succ]
    omega

theorem testBit_signBits : ∀ (l : List BigReg) (i : Nat) (h : i < l.length),
    (signBits l).testBit i = l[i].sign
  | r :: rs, 0, _ => by
    rw [signBits, Nat.testBit_zero]
    cases hs : r.sign <;> simp [hs]
  | r :: rs, i + 1, h => by
    have hd : (r.sign.toNat + 2 * signBits rs) / 2 = signBits rs := by
      have hb : r.sign.toNat ≤ 1 := Bool.toNat_le _
      omega
    rw [signBits, Nat.testBit_succ, hd]
    exact testBit_signBits rs i (by simpa using h)

/-- Bit `i` of SIGN is `Bi.sign` (R32). -/
theorem State.signWord_bit (s : State) (k : RegNum) : s.signWord.getLsbD k.val = (s.reg k).sign := by
  have hk := k.isLt
  have hlen : s.regs.toList.length = 16 := by simp
  rw [State.signWord, BitVec.getLsbD_ofNat]
  have h32 : decide (k.val < 32) = true := by simp; omega
  rw [h32, Bool.true_and, testBit_signBits _ _ (by omega), State.reg]
  congr 1

/-- Bits 31:16 of SIGN are 0 (R32). -/
theorem State.signWord_high (s : State) {i : Nat} (h : 16 ≤ i) : s.signWord.getLsbD i = false := by
  rw [State.signWord, BitVec.getLsbD_ofNat]
  have hlt := signBits_lt s.regs.toList
  have hlen : s.regs.toList.length = 16 := by simp
  rw [hlen] at hlt
  rw [Nat.testBit_lt_two_pow (lt_of_lt_of_le hlt (Nat.pow_le_pow_right (by decide) h)), Bool.and_false]

end Sys2Proof.Machine
end

