-- ==== Sys2Proof/Laws/RegisterMap.lean ====
section
/-! SUPPORT. The register map address by address, and everything a host access can do (20_memory.md R51 to R57). -/

namespace Sys2Proof.Machine

@[simp] theorem mapTarget_cmd (c : Config) : mapTarget c 0x00000#17 = .cmd := rfl
@[simp] theorem mapTarget_status (c : Config) : mapTarget c 0x00004#17 = .status := rfl
@[simp] theorem mapTarget_ctrl (c : Config) : mapTarget c 0x00008#17 = .ctrl := rfl
@[simp] theorem mapTarget_flags (c : Config) : mapTarget c 0x0000C#17 = .flags := rfl
@[simp] theorem mapTarget_rounds (c : Config) : mapTarget c 0x00010#17 = .rounds := rfl
@[simp] theorem mapTarget_sign (c : Config) : mapTarget c 0x00014#17 = .sign := rfl
@[simp] theorem mapTarget_param (c : Config) : mapTarget c 0x00018#17 = .param := rfl

theorem nlimbs_le {c : Config} (h : c.legal = true) : c.nlimbs ≤ 1024 := by
  simp only [Config.legal, Bool.and_eq_true, decide_eq_true_eq] at h; exact h.2

theorem toNat_limbAddr (k : RegNum) {i : Nat} (hi : i < 1024) :
    (limbAddr k i).toNat = 0x10000 + 0x1000 * k.val + 4 * i := by
  have := k.isLt
  rw [limbAddr, BitVec.toNat_ofNat]
  apply Nat.mod_eq_of_lt
  omega

theorem limbAddr_aligned (k : RegNum) {i : Nat} (hi : i < 1024) : (limbAddr k i).toNat % 4 = 0 := by
  rw [toNat_limbAddr k hi]; omega

/-- From `0x10000` on the map is the limbs alone: index `i` of register `k`, where the block has that limb (R51, R52). -/
theorem mapTarget_window {c : Config} {addr : Addr} (h : 0x10000 ≤ addr.toNat) :
    mapTarget c addr = if addr.toNat % 0x1000 / 4 < c.nlimbs
      then .limb (Fin.ofNat 16 (addr.toNat / 0x1000)) (addr.toNat % 0x1000 / 4) else .unmapped := by
  unfold mapTarget
  dsimp only
  split_ifs <;> first | rfl | omega

/-- `LimbAddr(k, i)` reaches limb `i` of `Bk` (R52). -/
theorem mapTarget_limbAddr {c : Config} (hc : c.legal = true) (k : RegNum) {i : Nat} (hi : i < c.nlimbs) :
    mapTarget c (limbAddr k i) = .limb k i := by
  have hle := nlimbs_le hc
  have hk := k.isLt
  have ha := toNat_limbAddr k (i := i) (by omega)
  have hidx : (limbAddr k i).toNat % 0x1000 / 4 = i := by rw [ha]; omega
  have hreg : Fin.ofNat 16 ((limbAddr k i).toNat / 0x1000) = k := by
    apply Fin.ext
    rw [Fin.val_ofNat, ha]
    omega
  rw [mapTarget_window (by omega), hidx, hreg, if_pos hi]

/-- What the target of an address says about the address (R51). -/
theorem mapTarget_spec (c : Config) (addr : Addr) :
    (mapTarget c addr = .cmd → addr = 0x00000#17) ∧ (mapTarget c addr = .status → addr = 0x00004#17) ∧
    (mapTarget c addr = .ctrl → addr = 0x00008#17) ∧ (mapTarget c addr = .flags → addr = 0x0000C#17) ∧
    (mapTarget c addr = .rounds → addr = 0x00010#17) ∧ (mapTarget c addr = .sign → addr = 0x00014#17) ∧
    (mapTarget c addr = .param → addr = 0x00018#17) ∧ (∀ k i, mapTarget c addr = .limb k i → LimbAddress c addr) ∧
    (addr.toNat % 4 = 0 → (mapTarget c addr = .unmapped ↔ Unmapped c addr)) := by
  have hinj : ∀ n : Nat, n < 2 ^ 17 → addr.toNat = n → addr = BitVec.ofNat 17 n := by
    intro n hn h
    apply BitVec.eq_of_toNat_eq
    rw [h, BitVec.toNat_ofNat, Nat.mod_eq_of_lt hn]
  unfold mapTarget Unmapped LimbAddress
  dsimp only
  split_ifs <;> simp <;> first | omega | exact ⟨hinj _ (by omega) ‹_›, by omega⟩

theorem readOwned_iff (t : Target) : t.readOwned = true ↔ ∃ k i, t = .limb k i := by
  cases t <;> simp [Target.readOwned]

theorem writeOwned_iff (t : Target) : t.writeOwned = true ↔ (∃ k i, t = .limb k i) ∨ t = .cmd ∨ t = .sign := by
  cases t <;> simp [Target.writeOwned]

theorem limbAddress_iff (c : Config) (addr : Addr) : LimbAddress c addr ↔ ∃ k i, mapTarget c addr = .limb k i := by
  constructor
  · rintro ⟨h1, h2⟩
    exact ⟨_, _, (mapTarget_window h1).trans (if_pos h2)⟩
  · rintro ⟨k, i, h⟩
    exact (mapTarget_spec c addr).2.2.2.2.2.2.2.1 k i h

/-- The complete list of refused reads (R57). -/
theorem readRefused_iff (s : State) (addr : Addr) (n : Nat) :
    s.readRefused addr n = true ↔
      n ≠ 4 ∨ addr.toNat % 4 ≠ 0 ∨ Unmapped s.cfg addr ∨ (s.status.busy = true ∧ LimbAddress s.cfg addr) := by
  have hu := (mapTarget_spec s.cfg addr).2.2.2.2.2.2.2.2
  rw [limbAddress_iff, ← readOwned_iff]
  unfold State.readRefused accessForm State.target
  by_cases hn : n = 4
  · by_cases ha : addr.toNat % 4 = 0
    · simp [hn, ha, hu ha, or_assoc]
    · simp [ha]
  · simp [hn]

/-- The complete list of refused writes (R57). -/
theorem writeRefused_iff (s : State) (addr : Addr) (n : Nat) :
    s.writeRefused addr n = true ↔
      n ≠ 4 ∨ addr.toNat % 4 ≠ 0 ∨ Unmapped s.cfg addr ∨
        (s.status.busy = true ∧ (LimbAddress s.cfg addr ∨ addr = 0x00000#17 ∨ addr = 0x00014#17)) := by
  have hu := (mapTarget_spec s.cfg addr).2.2.2.2.2.2.2.2
  have hc : addr = 0x00000#17 ↔ mapTarget s.cfg addr = .cmd :=
    ⟨fun h => by rw [h]; rfl, (mapTarget_spec s.cfg addr).1⟩
  have hs : addr = 0x00014#17 ↔ mapTarget s.cfg addr = .sign :=
    ⟨fun h => by rw [h]; rfl, (mapTarget_spec s.cfg addr).2.2.2.2.2.1⟩
  rw [limbAddress_iff, hc, hs, ← writeOwned_iff]
  unfold State.writeRefused accessForm State.target
  by_cases hn : n = 4
  · by_cases ha : addr.toNat % 4 = 0
    · simp [hn, ha, hu ha, or_assoc]
    · simp [ha]
  · simp [hn]

theorem memRead_refused {s : State} {addr : Addr} {n : Nat} (h : s.readRefused addr n = true) :
    s.memRead addr n = s.refuseAccess.answer (.read .err 0#32) := by
  rw [State.memRead, if_pos h]

theorem memRead_ok {s : State} {addr : Addr} {n : Nat} (h : s.readRefused addr n = false) :
    s.memRead addr n = s.answer (.read .ok (s.readTarget (s.target addr))) := by
  rw [State.memRead, if_neg (by simp [h])]

theorem memWrite_refused {s : State} {addr : Addr} {n : Nat} (v : Word) (h : s.writeRefused addr n = true) :
    s.memWrite addr n v = s.refuseAccess.answer (.write .err) := by
  rw [State.memWrite, if_pos h]

theorem memWrite_ok {s : State} {addr : Addr} {n : Nat} (v : Word) (h : s.writeRefused addr n = false) :
    s.memWrite addr n v = (s.writeTarget v (s.target addr)).answer (.write .ok) := by
  rw [State.memWrite, if_neg (by simp [h])]

/-- An aligned word read of a mapped control register is answered at any time (R55). -/
theorem memRead_control {s : State} {addr : Addr} {t : Target} (ha : addr.toNat % 4 = 0)
    (ht : mapTarget s.cfg addr = t) (hu : t ≠ .unmapped) (ho : t.readOwned = false) :
    s.memRead addr 4 = s.answer (.read .ok (s.readTarget t)) := by
  subst ht
  exact memRead_ok (by simp [State.readRefused, accessForm, ha, State.target, hu, ho])

theorem memRead_idle {s : State} {addr : Addr} {t : Target} (ha : addr.toNat % 4 = 0)
    (ht : mapTarget s.cfg addr = t) (hu : t ≠ .unmapped) (hb : s.status.busy = false) :
    s.memRead addr 4 = s.answer (.read .ok (s.readTarget t)) := by
  subst ht
  exact memRead_ok (by simp [State.readRefused, accessForm, ha, State.target, hu, hb])

theorem memWrite_control {s : State} {addr : Addr} {t : Target} (v : Word) (ha : addr.toNat % 4 = 0)
    (ht : mapTarget s.cfg addr = t) (hu : t ≠ .unmapped) (ho : t.writeOwned = false) :
    s.memWrite addr 4 v = (s.writeTarget v t).answer (.write .ok) := by
  subst ht
  exact memWrite_ok v (by simp [State.writeRefused, accessForm, ha, State.target, hu, ho])

theorem memWrite_idle {s : State} {addr : Addr} {t : Target} (v : Word) (ha : addr.toNat % 4 = 0)
    (ht : mapTarget s.cfg addr = t) (hu : t ≠ .unmapped) (hb : s.status.busy = false) :
    s.memWrite addr 4 v = (s.writeTarget v t).answer (.write .ok) := by
  subst ht
  exact memWrite_ok v (by simp [State.writeRefused, accessForm, ha, State.target, hu, hb])

/-- A read changes ACCERR, only upwards and only where it is refused, and the answer; nothing else (R55, R57, R60). -/
theorem memRead_spec (s : State) (addr : Addr) (n : Nat) :
    ∃ b a, s.memRead addr n = ({ s with status := { s.status with accErr := s.status.accErr || b } } : State).answer a ∧
      (b = true → a = .read .err 0#32) := by
  cases h : s.readRefused addr n with
  | true => exact ⟨true, _, by rw [memRead_refused h, Bool.or_true]; rfl, fun _ => rfl⟩
  | false => exact ⟨false, _, by rw [memRead_ok h, Bool.or_false], fun hb => by simp at hb⟩

/-- A write is refused, or does what its target says (R56, R57); what it does while BUSY is no more than an
acknowledgement or a write of CTRL or ROUNDS (R58). -/
theorem memWrite_spec (s : State) (addr : Addr) (n : Nat) (v : Word) :
    s.memWrite addr n v = s.refuseAccess.answer (.write .err) ∨
    (n = 4 ∧ s.memWrite addr n v = (s.acknowledge v).answer (.write .ok) ∧ addr = 0x00004#17) ∨
    (n = 4 ∧ s.memWrite addr n v = ({ s with ie := v.getLsbD 0 } : State).answer (.write .ok) ∧ addr = 0x00008#17) ∨
    (n = 4 ∧ s.memWrite addr n v = s.answer (.write .ok)) ∨
    (n = 4 ∧ s.memWrite addr n v = ({ s with rounds := v } : State).answer (.write .ok)) ∨
    (n = 4 ∧ s.status.busy = false ∧ s.memWrite addr n v = (s.accept v).answer (.write .ok) ∧ addr = 0x00000#17) ∨
    (n = 4 ∧ s.status.busy = false ∧ s.memWrite addr n v = (s.setSigns v).answer (.write .ok) ∧ addr = 0x00014#17) ∨
    (n = 4 ∧ s.status.busy = false ∧ LimbAddress s.cfg addr ∧ ∃ k i, i < s.cfg.nlimbs ∧
      s.memWrite addr n v = (s.setReg k ((s.reg k).setLimb i v)).answer (.write .ok)) := by
  cases h : s.writeRefused addr n with
  | true => exact .inl (memWrite_refused v h)
  | false =>
    have hn : n = 4 := by
      by_contra hne
      have := (writeRefused_iff s addr n).mpr (.inl hne)
      rw [h] at this
      simp at this
    have hown : (s.target addr).writeOwned = true → s.status.busy = false := by
      intro ho
      cases hb : s.status.busy with
      | false => rfl
      | true => simp [State.writeRefused, hb, ho] at h
    have hun : s.target addr ≠ .unmapped := by
      intro hu
      simp [State.writeRefused, hu] at h
    obtain ⟨s1, s2, s3, s4, s5, s6, s7, s8, -⟩ := mapTarget_spec s.cfg addr
    rw [memWrite_ok v h]
    refine .inr ?_
    cases ht : s.target addr with
    | cmd => rw [ht] at hown; exact .inr (.inr (.inr (.inr (.inl ⟨hn, hown rfl, rfl, s1 ht⟩))))
    | status => exact .inl ⟨hn, rfl, s2 ht⟩
    | ctrl => exact .inr (.inl ⟨hn, rfl, s3 ht⟩)
    | flags => exact .inr (.inr (.inl ⟨hn, rfl⟩))
    | rounds => exact .inr (.inr (.inr (.inl ⟨hn, rfl⟩)))
    | sign => rw [ht] at hown; exact .inr (.inr (.inr (.inr (.inr (.inl ⟨hn, hown rfl, rfl, s6 ht⟩)))))
    | param => exact .inr (.inr (.inl ⟨hn, rfl⟩))
    | limb k i =>
      rw [ht] at hown
      have hi : i < s.cfg.nlimbs := by
        have h2 : mapTarget s.cfg addr = .limb k i := ht
        unfold mapTarget at h2
        dsimp only at h2
        split_ifs at h2 with _ _ _ _ _ _ _ _ hlt
        simp only [Target.limb.injEq] at h2
        omega
      exact .inr (.inr (.inr (.inr (.inr (.inr ⟨hn, hown rfl, s8 k i ht, k, i, hi, rfl⟩)))))
    | unmapped => exact absurd ht hun

end Sys2Proof.Machine
end

