-- ==== Sys2Proof/Laws/Step.lean ====
section
/-! SUPPORT. What one step can do, event by event (00_scope.md R10, 20_memory.md R62). -/

namespace Sys2Proof.Machine

/-- Take the first event off the list. -/
def State.tail (s : State) (rest : List Event) : State := { s with events := rest }

theorem step_event {s : State} {e : Event} {rest : List Event} (h : s.events = e :: rest) :
    step s = applyEvent e (s.tail rest) := by
  simp [step, nextEvent, h, State.tail]

theorem step_engine {s : State} (h : EngineTurn s) :
    step s = engineEvent { s with events := eventsAfterEngine s.events } := by
  rcases h with h | ⟨rest, h⟩
  · obtain ⟨cfg, regs, cmd, status, ie, flags, rounds, roundsL, work, rngpos, rngQueue, events, bus⟩ := s
    simp only at h
    subst h
    rfl
  · simp [step, nextEvent, h, eventsAfterEngine, applyEvent]

theorem engineEvent_busy {s : State} {i : Instr} (hb : s.status.busy = true) (hd : decode s.cmd = .ok i) :
    engineEvent s = exec i s := by
  simp [engineEvent, hb, hd]

theorem engineEvent_illegal {s : State} {r : Reject} (hb : s.status.busy = true) (hd : decode s.cmd = .error r) :
    engineEvent s = .next (s.raise .illegalCommand) := by
  simp [engineEvent, hb, hd]

theorem engineEvent_idle {s : State} (hb : s.status.busy = false) : engineEvent s = .next s := by
  simp [engineEvent, hb]

/-- What one step does. -/
inductive Steps (s : State) : State → Prop where
  | idle : EngineTurn s → s.status.busy = false → Steps s (s.tail (eventsAfterEngine s.events))
  | illegal (r : Reject) : EngineTurn s → s.status.busy = true → decode s.cmd = .error r →
      Steps s ((s.tail (eventsAfterEngine s.events)).raise .illegalCommand)
  | command (i : Instr) (t : State) : EngineTurn s → s.status.busy = true → decode s.cmd = .ok i →
      Ends i (s.tail (eventsAfterEngine s.events)) t → Steps s t
  | read (addr : Addr) (n : Nat) (rest : List Event) : s.events = .memRead addr n :: rest →
      Steps s ((s.tail rest).memRead addr n)
  | write (addr : Addr) (n : Nat) (v : Word) (rest : List Event) : s.events = .memWrite addr n v :: rest →
      Steps s ((s.tail rest).memWrite addr n v)
  | offer (w : Word) (rest : List Event) : s.events = .rngOffer w :: rest → Steps s ((s.tail rest).offerWord w)
  | reset (rest : List Event) : s.events = .reset :: rest → Steps s (s.tail rest).applyReset

theorem step_engine_steps {s : State} (h : EngineTurn s) : ∃ t, step s = .next t ∧ Steps s t := by
  rw [step_engine h]
  cases hb : s.status.busy with
  | false => exact ⟨_, engineEvent_idle hb, .idle h hb⟩
  | true =>
    cases hd : decode s.cmd with
    | error r => exact ⟨_, engineEvent_illegal hb hd, .illegal r h hb hd⟩
    | ok i =>
      obtain ⟨t, ht, he⟩ := exec_ends i (s.tail (eventsAfterEngine s.events))
      exact ⟨t, (engineEvent_busy (s := s.tail (eventsAfterEngine s.events)) hb hd).trans ht, .command i t h hb hd he⟩

/-- Every step gives a next state, which is one of these. -/
theorem step_steps (s : State) : ∃ t, step s = .next t ∧ Steps s t := by
  rcases hev : s.events with _ | ⟨e, rest⟩
  · exact step_engine_steps (.inl hev)
  · cases e with
    | memRead addr n => exact ⟨_, step_event hev, .read addr n rest hev⟩
    | memWrite addr n v => exact ⟨_, step_event hev, .write addr n v rest hev⟩
    | rngOffer w => exact ⟨_, step_event hev, .offer w rest hev⟩
    | engine => exact step_engine_steps (.inr ⟨rest, hev⟩)
    | reset => exact ⟨_, step_event hev, .reset rest hev⟩

theorem steps_of_step {s t : State} (h : step s = .next t) : Steps s t := by
  obtain ⟨u, hu, hs⟩ := step_steps s
  rw [hu] at h
  cases h
  exact hs

end Sys2Proof.Machine
end

