-- ==== Sys2Proof/Laws/HostSequences.lean ====
section
/-! SUPPORT. What the host's pseudo-instructions do to an idle block (30_encoding.md R90), and the arithmetic of the
key generator's candidates (45_host_sequences.md R181, R187). -/

namespace Sys2Proof.Machine

/-- `WR` of a limb of an idle block. -/
theorem State.wr_limb {s : State} (hc : s.cfg.legal = true) (hb : s.status.busy = false) (k : RegNum) {i : Nat} (hi : i < s.cfg.nlimbs) (v : Word) :
   s.wr (limbAddr k i) v = (s.setReg k ((s.reg k).setLimb i v)).answer (.write .ok) := by
  have hn := nlimbs_le hc
  unfold State.wr
  rw [memWrite_idle (t := .limb k i) v (limbAddr_aligned k (by omega)) (mapTarget_limbAddr hc k hi) (by simp) hb]
  rfl

/-- The limb writes of SETBIG. -/
theorem State.setLimbs_spec (s : State) (hc : s.cfg.legal = true) (hb : s.status.busy = false) (hr : s.regsInRange) (k : RegNum) (v : Int) : ∀ n, n ≤ s.cfg.nlimbs →
    ((s.setLimbs k v n).cfg = s.cfg ∧ (s.setLimbs k v n).status = s.status ∧
     (∀ j, j ≠ k → (s.setLimbs k v n).reg j = s.reg j) ∧ ((s.setLimbs k v n).reg k).mag < 2 ^ s.width ∧
     (∀ i, i < n → ((s.setLimbs k v n).reg k).limb i = limbOf v i))
  | 0, _ => ⟨rfl, rfl, fun _ _ => rfl, hr k, fun i hi => by omega⟩
  | n + 1, hn => by
    obtain ⟨h1, h2, h3, h4, h5⟩ := State.setLimbs_spec s hc hb hr k v n (by omega)
    have h := State.wr_limb (s := s.setLimbs k v n) (by rw [h1]; exact hc) (by rw [h2]; exact hb) k (i := n) (by rw [h1]; omega) (limbOf v n)
    have e : s.setLimbs k v (n+1) = (s.setLimbs k v n).wr (limbAddr k n) (limbOf v n) := rfl
    rw [e, h]
    generalize s.setLimbs k v n = u at *
    generalize hq : (u.reg k).setLimb n (limbOf v n) = q
    have hrg : ∀ j, ((u.setReg k q).answer (.write .ok)).reg j = (u.setReg k q).reg j := fun j => rfl
    refine ⟨h1, h2, ?_, ?_, ?_⟩
    · intro j hj; rw [hrg, State.reg_setReg_ne _ hj, h3 j hj]
    · rw [hrg, State.reg_setReg_same, ← hq]
      exact BigReg.setLimb_lt (n := s.cfg.nlimbs) (by omega) _ h4
    · intro i hi
      rw [hrg, State.reg_setReg_same, ← hq]
      rcases Nat.lt_or_ge i n with hlt | hge
      · rw [BigReg.limb_setLimb_ne _ (by omega)]; exact h5 i hlt
      · have : i = n := by omega
        subst this; exact BigReg.limb_setLimb_same _ _ _

theorem State.rd_sign (s : State) : s.rd 0x00014#17 = (s.signWord, s.answer (.read .ok s.signWord)) := by
  unfold State.rd
  rw [memRead_control (t := .sign) (by decide) rfl (by decide) rfl]
  rfl

theorem State.wr_sign {s : State} (hb : s.status.busy = false) (v : Word) : s.wr 0x00014#17 v = (s.setSigns v).answer (.write .ok) := by
  unfold State.wr
  rw [memWrite_idle (t := .sign) v (by decide) rfl (by decide) hb]
  rfl

/-- The SIGN word SETBIG writes back. -/
theorem withSign_bit (w : Word) (k j : RegNum) (b : Bool) : (withSign w k b).getLsbD j.val = if j = k then b else w.getLsbD j.val := by
  have hk := k.isLt
  have hj := j.isLt
  have hbit : (BitVec.ofNat 32 (2 ^ k.val)).getLsbD j.val = decide (j = k) := by
    rw [BitVec.getLsbD_ofNat, Nat.testBit_two_pow]
    have : (j.val < 32) := by omega
    simp only [this, decide_true, Bool.true_and, decide_eq_decide]
    rw [Fin.ext_iff]; exact eq_comm
  have h32 : j.val < 32 := by omega
  unfold withSign
  dsimp only
  generalize BitVec.ofNat 32 (2 ^ k.val) = m at *
  cases b
  · rw [if_neg (by decide), BitVec.getLsbD_and, BitVec.getLsbD_not, hbit]
    by_cases e : j = k <;> simp [e, h32]
  · rw [if_pos rfl, BitVec.getLsbD_or, hbit]
    by_cases e : j = k <;> simp [e]

theorem BigReg.value_of_parts (r : BigReg) (v : Int) (hm : r.mag = v.natAbs) (hs : r.sign = decide (v < 0)) : r.value = v := by
  unfold BigReg.value
  rw [hm, hs]
  by_cases h : v < 0
  · rw [decide_eq_true h, if_pos rfl]; omega
  · rw [decide_eq_false h, if_neg (by decide)]; omega

/-- The limb reads of GETBIG. -/
theorem State.getLimbs_spec (s : State) (hc : s.cfg.legal = true) (hb : s.status.busy = false) (k : RegNum) : ∀ n, n ≤ s.cfg.nlimbs →
    (s.getLimbs k n).1 = (s.reg k).mag % 2 ^ (32 * n) ∧ (s.getLimbs k n).2.regs = s.regs ∧ (s.getLimbs k n).2.status = s.status ∧ (s.getLimbs k n).2.cfg = s.cfg
  | 0, _ => ⟨by simp [State.getLimbs, Nat.mod_one], rfl, rfl, rfl⟩
  | n + 1, hn => by
    obtain ⟨h1, h2, h3, h4⟩ := State.getLimbs_spec s hc hb k n (by omega)
    have hle := nlimbs_le hc
    unfold State.getLimbs
    dsimp only
    unfold State.rd
    dsimp only
    rw [memRead_idle (s := (s.getLimbs k n).2) (t := .limb k n) (limbAddr_aligned k (by omega)) (mapTarget_limbAddr (by rw [h4]; exact hc) k (by rw [h4]; omega)) (by simp) (by rw [h3]; exact hb)]
    refine ⟨?_, h2, h3, h4⟩
    change (s.getLimbs k n).1 + (((s.getLimbs k n).2.reg k).limb n).toNat * _ = _
    rw [h1, State.reg_congr h2, BigReg.toNat_limb, Nat.mul_add 32, pow_add, Nat.mul_one, Nat.mod_mul]
    ring

/-! ### RUN and the parts of a host program -/

@[simp] theorem andThen_some {α β : Type} (a : α) (t : State) (f : α → State → HostProgress β) :
    andThen (some a, t) f = f a t := rfl

/-- A part without an answer ends the program in the state it reached. -/
@[simp] theorem andThen_none {α β : Type} (t : State) (f : α → State → HostProgress β) :
    andThen ((none, t) : HostProgress α) f = (none, t) := rfl

/-- BUSY as the host reads it (10_state.md R27). -/
theorem Status.word_busy (t : Status) : t.word.getLsbD 0 = t.busy := by
  obtain ⟨b, d, a, e⟩ := t
  cases b <;> cases d <;> cases a <;> cases e <;> rfl

/-- RUN on an idle block: the command is executed on the state after its acceptance, and the state reached is kept
whether it has completed or waits for RNG words (R90, R243). -/
theorem State.run_idle {s : State} (hb : s.status.busy = false) {i : Instr}
    (hd : Sys2Proof.decode (Sys2Proof.encode i) = .ok i) :
    ∃ t, exec i ((s.accept (Sys2Proof.encode i)).answer (.write .ok)) = .next t ∧
      s.run i = (if t.status.busy then none else some t.status.word, t.answer (.read .ok t.status.word)) := by
  obtain ⟨t, ht, -⟩ := exec_ends i ((s.accept (Sys2Proof.encode i)).answer (.write .ok))
  refine ⟨t, ht, ?_⟩
  have hi : s.issue i = (s.accept (Sys2Proof.encode i)).answer (.write .ok) := by
    unfold State.issue State.wr
    rw [memWrite_idle (t := .cmd) _ (by decide) rfl (by decide) hb]
    rfl
  have he : (s.issue i).engineTurn = t := by
    rw [hi, State.engineTurn, engineEvent_busy (i := i) rfl hd, ht]
  have hr : t.rd 0x00004#17 = (t.status.word, t.answer (.read .ok t.status.word)) := by
    unfold State.rd
    rw [memRead_control (t := .status) (by decide) rfl (by decide) rfl]
    rfl
  rw [State.run, he, hr]
  dsimp only
  rw [Status.word_busy]

/-- Sizes outside `4 .. W` are signalled before any access (R183, R190). -/
theorem State.generateKeyPair_size (s : State) (bits : Nat) (randoms : List Nat) (h : bits < 4 ∨ s.width < bits) :
    (s.generateKeyPair bits randoms).2 = s ∧ ∀ n d, (s.generateKeyPair bits randoms).1 ≠ .keyPair n d := by
  unfold State.generateKeyPair
  split_ifs with h1 h2
  · exact ⟨rfl, by simp⟩
  · exact ⟨rfl, by simp⟩
  · omega

/-- An argument that no register holds is not loaded (R191, log 22). -/
theorem State.signDigest_tooWide (s : State) (hexPrefix digestHex : String) (modulus exponent : Int)
    {v : Nat} (hv : hexValue digestHex.toList 0 = some v)
    (h : 2 ^ s.width ≤ v ∨ 2 ^ s.width ≤ exponent.natAbs ∨ 2 ^ s.width ≤ modulus.natAbs) :
    s.signDigest hexPrefix digestHex modulus exponent = (.argumentTooWide, s) := by
  unfold State.signDigest
  rw [hv]
  exact if_pos h

/-! ### Candidates (45_host_sequences.md R181) -/

/-- A candidate has its two highest bits and its lowest bit set (R181). -/
theorem candidateOf_spec (s r : Nat) (hs : 2 ≤ s) : 2 ^ (s-1) + 2 ^ (s-2) ≤ candidateOf s r ∧ candidateOf s r < 2 ^ s ∧ candidateOf s r % 2 = 1 := by
  unfold candidateOf
  obtain ⟨k, rfl⟩ : ∃ k, s = k + 2 := ⟨s - 2, by omega⟩
  have e1 : k + 2 - 1 = k + 1 := by omega
  have e2 : k + 2 - 2 = k := by omega
  rw [e1, e2]
  have hlt : r % 2 ^ (k+2) ||| 2 ^ (k+1) ||| 2 ^ k ||| 1 < 2 ^ (k+2) := by
    have h1 : r % 2 ^ (k+2) < 2 ^ (k+2) := Nat.mod_lt _ (by positivity)
    have h2 : 2 ^ (k+1) < 2 ^ (k+2) := Nat.pow_lt_pow_right (by decide) (by omega)
    have h3 : 2 ^ k < 2 ^ (k+2) := Nat.pow_lt_pow_right (by decide) (by omega)
    have h4 : 1 < 2 ^ (k+2) := Nat.one_lt_two_pow (by omega)
    exact Nat.or_lt_two_pow (Nat.or_lt_two_pow (Nat.or_lt_two_pow h1 h2) h3) h4
  refine ⟨?_, hlt, ?_⟩
  · have hb1 : (r % 2 ^ (k+2) ||| 2 ^ (k+1) ||| 2 ^ k ||| 1).testBit (k+1) = true := by
      simp [Nat.testBit_or, Nat.testBit_two_pow_self]
    have hb2 : (r % 2 ^ (k+2) ||| 2 ^ (k+1) ||| 2 ^ k ||| 1).testBit k = true := by
      simp [Nat.testBit_or, Nat.testBit_two_pow_self]
    generalize (r % 2 ^ (k+2) ||| 2 ^ (k+1) ||| 2 ^ k ||| 1) = c at *
    rw [Nat.testBit_eq_decide_div_mod_eq, decide_eq_true_eq] at hb1 hb2
    have h1 : c / 2 ^ (k+1) = c / 2 ^ k / 2 := by rw [pow_succ, Nat.div_div_eq_div_mul]
    have h3 : 3 ≤ c / 2 ^ k := by
      generalize c / 2 ^ (k+1) = A at *
      generalize c / 2 ^ k = B at *
      omega
    have := (Nat.le_div_iff_mul_le (by positivity)).mp h3
    rw [pow_succ]; omega
  · have : (r % 2 ^ (k+2) ||| 2 ^ (k+1) ||| 2 ^ k ||| 1).testBit 0 = true := by
      simp
    rwa [Nat.testBit_zero, decide_eq_true_eq] at this

end Sys2Proof.Machine
end

