-- ==== Sys2Proof/Laws/PerInstr.lean ====
section
/-! SUPPORT. What is said of every command as syntax, one lemma per constructor (30_encoding.md R81, R82, R84, R85). -/

namespace Sys2Proof.Laws.EncodedWord

/-- The opcode of a command (R84). -/
def opcode : Instr → Nat
  | .cmp _ _ => 0x01
  | .mul _ _ _ => 0x02
  | .modexp _ _ _ _ => 0x03
  | .egcd _ _ _ _ _ => 0x04
  | .modinv _ _ _ => 0x05
  | .mrtest _ => 0x06

/-- How many low bits of a command's format must be zero (R82). -/
def zeroBits : Instr → Nat
  | .cmp _ _ => 16
  | .mul _ _ _ => 12
  | .modexp _ _ _ _ => 8
  | .egcd _ _ _ _ _ => 4
  | .modinv _ _ _ => 12
  | .mrtest _ => 20

/-- The word of a command carries its opcode in bits 31:24, and 0 in its format's must-be-zero bits (R81, R82, R85). -/
def Statement (i : Instr) : Prop := opcodeField (encode i) = opcode i ∧ lowBits (encode i) (zeroBits i) = 0

theorem cmp (ra rb : RegNum) : Statement (.cmp ra rb) := by
  simp [Statement, encode, opcode, zeroBits, opcodeField_assemble, lowBits_assemble]

theorem mul (rd ra rb : RegNum) : Statement (.mul rd ra rb) := by
  simp [Statement, encode, opcode, zeroBits, opcodeField_assemble, lowBits_assemble]

theorem modexp (rd ra rb rc : RegNum) : Statement (.modexp rd ra rb rc) := by
  simp [Statement, encode, opcode, zeroBits, opcodeField_assemble, lowBits_assemble]

theorem egcd (rg rx ry ra rb : RegNum) : Statement (.egcd rg rx ry ra rb) := by
  simp [Statement, encode, opcode, zeroBits, opcodeField_assemble, lowBits_assemble]

theorem modinv (rd ra rb : RegNum) : Statement (.modinv rd ra rb) := by
  simp [Statement, encode, opcode, zeroBits, opcodeField_assemble, lowBits_assemble]

theorem mrtest (ra : RegNum) : Statement (.mrtest ra) := by
  simp [Statement, encode, opcode, zeroBits, opcodeField_assemble, lowBits_assemble]

end Sys2Proof.Laws.EncodedWord
end

