-- ==== Sys2Proof/Laws/WorkRange.lean ====
section
/-! SUPPORT. The sequencer keeps every working register within its hardware width (10_state.md R35). -/

namespace Sys2Proof.Machine

theorem Config.nlimbs_pos {c : Config} (h : c.legal = true) : 0 < c.nlimbs := by
  simp only [Config.legal, Bool.and_eq_true, decide_eq_true_eq] at h; omega

theorem Config.width_le {c : Config} (h : c.legal = true) : c.width ≤ 32768 := by
  simp only [Config.legal, Bool.and_eq_true, decide_eq_true_eq, Config.width] at *; omega

theorem Config.one_lt_two_pow_width {c : Config} (h : c.legal = true) : 1 < 2 ^ c.width := by
  have := Config.nlimbs_pos h
  exact Nat.one_lt_two_pow (by unfold Config.width; omega)

/-- `L <= NLIMBS` for an `n` that fits a register (R158). -/
theorem witnessWords_le {c : Config} {n : Nat} (hn : n < 2 ^ c.width) : witnessWords n ≤ c.nlimbs := by
  have h : bitlen (n - 1) ≤ c.width := (bitlen_le_iff _ _).mpr (by omega)
  unfold Config.width at h
  unfold witnessWords witnessBits ceilDiv
  omega

/-- The search keeps the registers it writes in range. -/
theorem searchLoop_inRange {width : Nat} : ∀ k w, w.mr.n < 2 ^ width → 0 < w.mr.n → w.mr.xw < 2 ^ width →
    w.p < 2 ^ (2 * width) → w.mr.j + k ≤ w.mr.r →
    (searchLoop k w).1.mr.xw < 2 ^ width ∧ (searchLoop k w).1.p < 2 ^ (2 * width) ∧
      (searchLoop k w).1.mr.j ≤ w.mr.r ∧ (searchLoop k w).1.modexp = w.modexp
  | 0, w, _, _, hx, hp, hj => ⟨hx, hp, by change w.mr.j ≤ _; omega, rfl⟩
  | k + 1, w, hn, hn0, hx, hp, hj => by
    rw [searchLoop_succ]
    split
    · exact ⟨hx, hp, by change w.mr.j ≤ _; omega, rfl⟩
    · split
      · exact searchLoop_inRange k (searchSquare w) hn hn0 (lt_trans (Nat.mod_lt _ hn0) hn)
          (by rw [two_mul, pow_add]; exact Nat.mul_lt_mul'' hx hx) (by change w.mr.j + 1 + k ≤ w.mr.r; omega)
      · exact searchLoop_inRange k (searchNext w) hn hn0 hx hp (by change w.mr.j + 1 + k ≤ w.mr.r; omega)

theorem round_inRange {c : Config} {a : Nat} {w : Work} (h : w.inRange c) (hn : 0 < w.mr.n) (ha : a < 2 ^ c.width)
    : (round a w).1.inRange c := by
  obtain ⟨⟨h1, h2, h3, h4, h5⟩, hE, g1, g2, g3, g4, g5, g6, g7, g8, g9⟩ := h
  have hM : (modExp a w.mr.s w.mr.n { w with mr := { w.mr with a := a } }).modexpInRange c.width :=
    modExp_inRange ha g2 hn g1 h5
  obtain ⟨hegcd, xw, j, hmr⟩ := round_frame a w
  have key : (round a w).1.mr.xw < 2 ^ c.width ∧ (round a w).1.p < 2 ^ (2 * c.width) ∧ (round a w).1.mr.j < 2 ^ 32 ∧
      (round a w).1.modexp = (modExp a w.mr.s w.mr.n { w with mr := { w.mr with a := a } }).modexp := by
    rw [round_eq]
    simp only [modExp_mr]
    split
    · exact ⟨hM.1, hM.2.2.2.2, by change 0 < 2 ^ 32; decide, rfl⟩
    · obtain ⟨k1, k2, k3, k4⟩ := searchLoop_inRange w.mr.r
        { modExp a w.mr.s w.mr.n { w with mr := { w.mr with a := a } } with
          mr := { w.mr with
            a := a
            xw := (modExp a w.mr.s w.mr.n { w with mr := { w.mr with a := a } }).modexp.res
            j := 0 } }
        g1 hn hM.1 hM.2.2.2.2 (by change 0 + w.mr.r ≤ w.mr.r; omega)
      exact ⟨k1, k2, lt_of_le_of_lt k3 g5, k4⟩
  obtain ⟨k1, k2, k3, k4⟩ := key
  rw [hmr] at k1 k3
  refine ⟨?_, ?_, ?_⟩
  · unfold Work.modexpInRange
    rw [k4]
    exact ⟨hM.1, hM.2.1, hM.2.2.1, hM.2.2.2.1, k2⟩
  · unfold Work.egcdInRange
    rw [hegcd]
    exact hE
  · unfold Work.mrInRange
    rw [hmr]
    exact ⟨g1, g2, ha, k1, g5, k3, g7, g8, g9⟩

/-- What the rounds keep while the test has no answer. -/
structure RoundsInv (c : Config) (rounds : Nat) (w : Work) : Prop where
  range : w.inRange c
  pos : 2 ≤ w.mr.n
  turn : w.mr.i < rounds

theorem playRound_inv {c : Config} {rounds a : Nat} {w : Work} (hr : rounds < 2 ^ 32) (h : RoundsInv c rounds w)
    (ha : a ≤ w.mr.n - 1) :
    (playRound rounds a w).1.inRange c ∧
      ((playRound rounds a w).2 = none → RoundsInv c rounds (playRound rounds a w).1) := by
  have hn := h.range.2.2.1
  have hR := round_inRange (a := a) h.range (by have := h.pos; omega) (by omega)
  have hi := h.turn
  have h2 := h.pos
  obtain ⟨-, xw, j, hmr⟩ := round_frame a w
  rw [playRound_eq]
  split
  · have hR' : ({ (round a w).1 with mr := { (round a w).1.mr with i := (round a w).1.mr.i + 1 } } : Work).inRange c := by
      obtain ⟨k1, k2, g1, g2, g3, g4, g5, g6, g7, g8, g9⟩ := hR
      rw [hmr] at *
      exact ⟨k1, k2, g1, g2, g3, g4, g5, g6, by change w.mr.i + 1 < 2 ^ 32; omega, g8, g9⟩
    refine ⟨hR', fun hnone => ⟨hR', ?_, ?_⟩⟩
    · rw [hmr]; exact h2
    · rw [hmr] at hnone ⊢
      simp only at hnone
      split at hnone
      · simp at hnone
      · next hlt => change w.mr.i + 1 < rounds; omega
  · exact ⟨hR, fun h => by simp at h⟩

theorem drawStart_inRange {c : Config} (hc : 0 < c.nlimbs) {w : Work} (h : w.inRange c) : (drawStart w).inRange c := by
  obtain ⟨k1, k2, g1, g2, g3, g4, g5, g6, g7, g8, g9⟩ := h
  exact ⟨k1, k2, g1, g2, g3, g4, g5, g6, g7, by change 0 < 2 ^ (32 * 0); decide, hc⟩

theorem takeWord_inv {c : Config} {rounds : Nat} {w : Work} (hc : c.legal = true) (hr : rounds < 2 ^ 32) (x : Word)
    (h : RoundsInv c rounds w) :
    (takeWord rounds x w).1.inRange c ∧
      ((takeWord rounds x w).2 = none → RoundsInv c rounds (takeWord rounds x w).1) := by
  have hL := witnessWords_le h.range.2.2.1
  obtain ⟨k1, k2, g1, g2, g3, g4, g5, g6, g7, g8, g9⟩ := h.range
  rw [takeWord_eq]
  split
  · next hlt =>
    have hR : (afterWords w [x]).inRange c := by
      refine ⟨k1, k2, g1, g2, g3, g4, g5, g6, g7, ?_, ?_⟩
      · change w.mr.c + 2 ^ (32 * w.mr.l) * (x.toNat + 2 ^ 32 * 0) < 2 ^ (32 * (w.mr.l + 1))
        rw [mul_zero, add_zero, Nat.mul_add, Nat.mul_one, pow_add]
        have hx : x.toNat + 1 ≤ 2 ^ 32 := x.isLt
        calc w.mr.c + 2 ^ (32 * w.mr.l) * x.toNat
            < 2 ^ (32 * w.mr.l) + 2 ^ (32 * w.mr.l) * x.toNat := by omega
          _ = 2 ^ (32 * w.mr.l) * (x.toNat + 1) := by ring
          _ ≤ 2 ^ (32 * w.mr.l) * 2 ^ 32 := Nat.mul_le_mul_left _ hx
      · change w.mr.l + 1 < c.nlimbs
        omega
    exact ⟨hR, fun _ => ⟨hR, h.pos, h.turn⟩⟩
  · have hd : RoundsInv c rounds (drawStart (afterWords w [x])) :=
      ⟨⟨k1, k2, g1, g2, g3, g4, g5, g6, g7, by change 0 < 2 ^ (32 * 0); decide, Config.nlimbs_pos hc⟩, h.pos, h.turn⟩
    rw [takeCandidate_split]
    split
    · next hrange => exact playRound_inv hr hd hrange.2
    · exact ⟨hd.range, fun _ => hd⟩

/-- The rounds keep every working register in range, with an answer or without. -/
theorem runRounds_inRange {c : Config} {rounds : Nat} (hc : c.legal = true) (hr : rounds < 2 ^ 32) :
    ∀ (q : List Word) (w : Work), RoundsInv c rounds w → (runRounds rounds q w).work.inRange c
  | [], _, h => h.range
  | x :: q, w, h => by
    obtain ⟨h1, h2⟩ := takeWord_inv hc hr x h
    rw [runRounds_cons]
    rcases hw : takeWord rounds x w with ⟨w1, o⟩
    rw [hw] at h1 h2
    cases o with
    | some b => exact h1
    | none => exact runRounds_inRange hc hr q w1 (h2 rfl)

/-- While the test has no answer the round counter stays below the round count. -/
theorem runRounds_turn (rounds : Nat) : ∀ (q : List Word) (w : Work), w.mr.i < rounds →
    (runRounds rounds q w).answer = none → (runRounds rounds q w).work.mr.i < rounds
  | [], _, h, _ => h
  | x :: q, w, h, ha => by
    rw [runRounds_cons] at ha ⊢
    rcases hw : takeWord rounds x w with ⟨w1, o⟩
    rw [hw] at ha
    cases o with
    | some b => simp at ha
    | none =>
      refine runRounds_turn rounds q w1 ?_ ha
      rw [takeWord_eq] at hw
      split at hw
      · cases hw; exact h
      · rw [takeCandidate_split] at hw
        split at hw
        · rw [playRound_eq] at hw
          split at hw
          · obtain ⟨-, xw, j, hmr⟩ := round_frame ((afterWords w [x]).mr.c % 2 ^ witnessBits (afterWords w [x]).mr.n)
              (drawStart (afterWords w [x]))
            rw [hmr] at hw
            simp only [Prod.mk.injEq] at hw
            obtain ⟨rfl, h2⟩ := hw
            split at h2
            · simp at h2
            · next hlt => exact not_le.mp hlt
          · simp at hw
        · cases hw; exact h

/-- An operand that passed the range check fits W bits. -/
theorem xNat_lt {s : State} (h : s.regsInRange) (k : RegNum) : s.xNat k < 2 ^ s.width := by
  have := h k
  rw [← State.natAbs_x] at this
  unfold State.xNat
  omega

/-- A written value that fits keeps every register in its width (R22). -/
theorem regsInRange_writeX {s : State} (h : s.regsInRange) (k : RegNum) {v : Int} (hv : v.natAbs < 2 ^ s.width) :
    (s.writeX k v).regsInRange := by
  intro j
  rw [State.reg_writeX]
  split
  · exact hv
  · exact h j

/-- The decomposition fits its registers (R157). -/
theorem mrWork_inRange {s : State} {ra : RegNum} (h : s.Inv) (h3 : 3 ≤ s.x ra) : (mrWork ra s).inRange s.cfg := by
  obtain ⟨k1, k2, g1, g2, g3, g4, g5, g6, g7, g8, g9⟩ := h.work
  obtain ⟨r, t, hm, hd⟩ := mrWork_spec h3
  have hn := xNat_lt h.regs ra
  have hw := Config.width_le h.cfg
  have hbit : bitlen (s.xNat ra - 1) ≤ s.cfg.width := by
    rw [bitlen_le_iff]
    exact lt_of_le_of_lt (Nat.sub_le _ _) hn
  have hr := decomposed_r_le hd
  have hs := decomposed_s_le hd
  refine ⟨k1, k2, ?_⟩
  unfold Work.mrInRange
  rw [hm]
  refine ⟨hn, lt_of_le_of_lt hs (lt_of_le_of_lt (Nat.sub_le _ _) hn), g3, g4, ?_, g6, g7, g8, g9⟩
  change r < 2 ^ 32
  omega

theorem roundsL_lt (s : State) : s.roundsL.toNat < 2 ^ 32 := s.roundsL.isLt

/-- The rounds fit their registers. -/
theorem mrRun_inRange {s : State} {ra : RegNum} (h : s.Inv) (h3 : 3 ≤ s.x ra)
    (hi : (mrWork ra s).mr.i < s.roundsL.toNat) : (mrRun ra s).work.inRange s.cfg := by
  refine runRounds_inRange h.cfg (roundsL_lt s) s.rngQueue _ ⟨mrWork_inRange h h3, ?_, hi⟩
  obtain ⟨r, t, hm, hd⟩ := mrWork_spec h3
  rw [hm]
  change 2 ≤ s.xNat ra
  unfold State.xNat
  omega

/-- The invariant from its parts. -/
theorem State.inv_of {s t : State} (h : s.Inv) (hc : t.cfg = s.cfg) (hr : t.regsInRange) (hst : t.statusLegal)
    (hf : t.flags.legal) (hw : t.work.inRange s.cfg) : t.Inv :=
  ⟨by rw [hc]; exact h.cfg, hr, hst, hf, by rw [hc]; exact hw⟩

theorem State.finish_statusLegal (s : State) : s.finish.statusLegal := by constructor <;> simp
theorem State.raise_statusLegal (s : State) (e : ErrCode) : (s.raise e).statusLegal := by constructor <;> simp

theorem flags_legal_setCompare (f : Flags) (c : Cmp) : (f.setCompare c).legal := by
  cases c <;> simp [Flags.setCompare, Flags.legal]

/-- A command keeps the invariant, however it ends. -/
theorem exec_inv {i : Instr} {s t : State} (h : s.Inv) (he : exec i s = .next t) : t.Inv := by
  have h1w := Config.one_lt_two_pow_width h.cfg
  cases i with
  | cmp ra rb =>
    cases he
    exact State.inv_of h rfl h.regs (State.finish_statusLegal _) (flags_legal_setCompare _ _) h.work
  | mul rd ra rb =>
    change execMul _ _ _ _ = _ at he
    rcases lt_or_ge (s.x ra * s.x rb).natAbs (2 ^ s.width) with h1 | h1
    · rw [execMul_fits rd h1] at he; cases he
      exact State.inv_of h rfl (regsInRange_writeX h.regs rd h1) (State.finish_statusLegal _) h.flags h.work
    · rw [execMul_overflow rd h1] at he; cases he
      exact State.inv_of h rfl h.regs (State.raise_statusLegal _ _) h.flags h.work
  | modexp rd ra rb rc =>
    change execModexp _ _ _ _ _ = _ at he
    rcases le_or_gt (s.x rc) 0 with h1 | h1
    · rw [execModexp_modulus rd ra rb h1] at he; cases he
      exact State.inv_of h rfl h.regs (State.raise_statusLegal _ _) h.flags h.work
    · by_cases h2 : s.x ra < 0 ∨ s.x rb < 0
      · rw [execModexp_range rd h1 h2] at he; cases he
        exact State.inv_of h rfl h.regs (State.raise_statusLegal _ _) h.flags h.work
      · rw [execModexp_ok rd h1 (by omega) (by omega)] at he; cases he
        have hm : 0 < s.xNat rc := by unfold State.xNat; omega
        have hw : (modexpWork ra rb rc s).modexpInRange s.cfg.width :=
          modExp_inRange (xNat_lt h.regs ra) (xNat_lt h.regs rb) hm (xNat_lt h.regs rc) h.work.1.2.2.2.2
        refine State.inv_of h rfl (regsInRange_writeX (s := s.withWork _) h.regs rd ?_) (State.finish_statusLegal _) h.flags ⟨hw, ?_, ?_⟩
        · rw [Int.natAbs_natCast]; exact hw.1
        · change (modExp _ _ _ s.work).egcdInRange _
          unfold Work.egcdInRange; rw [modExp_egcd]; exact h.work.2.1
        · change (modExp _ _ _ s.work).mrInRange _
          unfold Work.mrInRange; rw [modExp_mr]; exact h.work.2.2
  | egcd rg rx ry ra rb =>
    change execEgcd _ _ _ _ _ _ = _ at he
    cases hwf : (Instr.egcd rg rx ry ra rb).wellFormed with
    | false =>
      rw [execEgcd_illegal ra rb _ hwf] at he; cases he
      exact State.inv_of h rfl h.regs (State.raise_statusLegal _ _) h.flags h.work
    | true =>
      by_cases h2 : s.x ra < 0 ∨ s.x rb < 0
      · rw [execEgcd_range hwf h2] at he; cases he
        exact State.inv_of h rfl h.regs (State.raise_statusLegal _ _) h.flags h.work
      · rw [execEgcd_ok hwf (by omega) (by omega)] at he; cases he
        have hw : (egcdWork ra rb s).egcdInRange s.cfg.width :=
          extGcd_inRange (xNat_lt h.regs ra) (xNat_lt h.regs rb) h1w h.work.2.1.2.2.1
        refine State.inv_of h rfl ?_ (State.finish_statusLegal _) h.flags ⟨?_, hw, ?_⟩
        · exact regsInRange_writeX (regsInRange_writeX (regsInRange_writeX (s := s.withWork _) h.regs rg
            (by rw [Int.natAbs_natCast]; exact hw.1)) rx hw.2.2.2.1) ry hw.2.2.2.2.2.1
        · change (extGcd _ _ s.work).modexpInRange _
          unfold Work.modexpInRange; rw [extGcd_modexp, extGcd_p]; exact h.work.1
        · change (extGcd _ _ s.work).mrInRange _
          unfold Work.mrInRange; rw [extGcd_mr]; exact h.work.2.2
  | modinv rd ra rb =>
    change execModinv _ _ _ _ = _ at he
    rcases le_or_gt (s.x rb) 0 with h1 | h1
    · rw [execModinv_modulus rd ra h1] at he; cases he
      exact State.inv_of h rfl h.regs (State.raise_statusLegal _ _) h.flags h.work
    · rcases lt_or_ge (s.x ra) 0 with h2 | h2
      · rw [execModinv_range rd h1 h2] at he; cases he
        exact State.inv_of h rfl h.regs (State.raise_statusLegal _ _) h.flags h.work
      · have hw : (egcdWork ra rb s).egcdInRange s.cfg.width :=
          extGcd_inRange (xNat_lt h.regs ra) (xNat_lt h.regs rb) h1w h.work.2.1.2.2.1
        have hwork : (egcdWork ra rb s).inRange s.cfg := by
          refine ⟨?_, hw, ?_⟩
          · change (extGcd _ _ s.work).modexpInRange _
            unfold Work.modexpInRange; rw [extGcd_modexp, extGcd_p]; exact h.work.1
          · change (extGcd _ _ s.work).mrInRange _
            unfold Work.mrInRange; rw [extGcd_mr]; exact h.work.2.2
        by_cases hg : Int.gcd (s.x ra) (s.x rb) = 1
        · rw [execModinv_ok rd h1 h2 hg] at he; cases he
          refine State.inv_of h rfl (regsInRange_writeX (s := s.withWork _) h.regs rd ?_) (State.finish_statusLegal _) h.flags hwork
          have hb := xNat_lt h.regs rb
          have g1 := Int.emod_nonneg ((egcdWork ra rb s).egcd.oldS + s.x rb) h1.ne'
          have g2 := Int.emod_lt_of_pos ((egcdWork ra rb s).egcd.oldS + s.x rb) h1
          unfold State.xNat at hb
          refine lt_trans ?_ hb
          omega
        · rw [execModinv_notInvertible rd h1 h2 hg] at he; cases he
          exact State.inv_of h rfl h.regs (State.raise_statusLegal _ _) h.flags hwork
  | mrtest ra =>
    change execMrtest _ _ = _ at he
    rcases execMrtest_cases ra s with ⟨h0, h1⟩ | ⟨h3, ho, ⟨hi, h1⟩ | ⟨hi, ⟨b, ha, h1⟩ | ⟨ha, h1⟩⟩⟩
    · rw [h1] at he; cases he
      exact State.inv_of h rfl h.regs (State.finish_statusLegal _) h.flags h.work
    · rw [h1] at he; cases he
      exact State.inv_of h rfl h.regs (State.finish_statusLegal _) h.flags (mrWork_inRange h h3)
    · rw [h1] at he; cases he
      exact State.inv_of h rfl h.regs (State.finish_statusLegal _) h.flags (mrRun_inRange h h3 hi)
    · rw [h1] at he; cases he
      exact State.inv_of h rfl h.regs h.status h.flags (mrRun_inRange h h3 hi)

end Sys2Proof.Machine
end

