-- ==== Sys2Proof/Tests/Slice0.lean ====
section
/-! SUPPORT. Tests with expected results of 95_test_vectors.md and of the worked examples of the command files, and a
witness for the hypotheses of each statement. -/

namespace Sys2Proof.Tests

/- One theorem after the other: each kernel evaluation below waits for all that stands before it. -/
set_option Elab.async false

open Sys2Proof.Machine

/-! ### Helpers -/

/-- An idle block with one limb (W = 32) and x[0] to x[4] given. -/
def small (a b c d e : Int) : State :=
  (((((({ State.reset with cfg := ⟨1⟩ } : State).writeX 0 a).writeX 1 b).writeX 2 c).writeX 3 d).writeX 4 e)

/-- The RNG source has offered `q`, and the round count was latched. -/
def drawing (n : Int) (rounds : Word) (q : List Word) : State :=
  { small n 0 0 0 0 with rngQueue := q, roundsL := rounds, status := { State.reset.status with busy := true } }

/-- The outcome is a next state with the property. -/
def nextHas (o : Host.Outcome State Fault Refusal) (p : State → Bool) : Bool :=
  match o with
  | .next t => p t
  | .fault _ => false
  | .refused _ => false

theorem exists_next {o : Host.Outcome State Fault Refusal} {p : State → Bool} (h : nextHas o p = true) :
    ∃ t, o = .next t ∧ p t = true := by
  cases o with
  | next t => exact ⟨t, rfl, h⟩
  | fault r => cases h
  | refused r => cases h

/-- ERR, FLAGS as read, and three registers. -/
def ends (t : State) (err : Nat) (flags : Word) (x0 x1 x2 : Int) : Bool :=
  decide (t.status.err.code = err) && decide (t.flags.word = flags) && !t.status.busy && t.status.done &&
    decide (t.x 0 = x0) && decide (t.x 1 = x1) && decide (t.x 2 = x2)

/-- PRIME and the words taken. -/
def answers (t : State) (prime : Bool) (used : Nat) : Bool :=
  !t.status.busy && t.status.done && (t.flags.prime == prime) && decide (t.rngpos = used)

/-! ### WellFormed (R87) -/

theorem test_wellFormed_rg_rx : (Instr.egcd 3 3 5 0 1).wellFormed = false := by decide
theorem test_wellFormed_rg_ry : (Instr.egcd 3 4 3 0 1).wellFormed = false := by decide
theorem test_wellFormed_rx_ry : (Instr.egcd 3 5 5 0 1).wellFormed = false := by decide
theorem test_wellFormed_overlap : (Instr.egcd 3 4 5 3 4).wellFormed = true := by decide

/-! ### Decoding: each command's word bit by bit (R81, R84), op, f1, f2, f3, f4, f5, z -/

theorem test_decode_cmp : decode 0b00000001_0101_1010_0000_0000_0000_0000#32 = .ok (.cmp 5 10) := by decide
theorem test_decode_mul : decode 0b00000010_0010_0001_1111_0000_0000_0000#32 = .ok (.mul 2 1 15) := by decide
theorem test_decode_modexp : decode 0b00000011_1001_1000_0110_0010_0000_0000#32 = .ok (.modexp 9 8 6 2) := by decide
theorem test_decode_egcd : decode 0b00000100_1010_1011_1100_1101_1110_0000#32 = .ok (.egcd 10 11 12 13 14) := by decide
theorem test_decode_modinv : decode 0b00000101_0110_1111_0101_0000_0000_0000#32 = .ok (.modinv 6 15 5) := by decide
theorem test_decode_mrtest : decode 0b00000110_0001_0000_0000_0000_0000_0000#32 = .ok (.mrtest 1) := by decide
/-- EN5, EN9, EN12, EN13. -/
theorem test_decode_illegal :
    decode 0x81010000#32 = .error (.unknownOpcode 0x81) ∧ decode 0x03301210#32 = .error (.reservedBits 3) ∧
    decode 0x04002340#32 = .error (.equalDestinations 0 0 2) ∧ decode 0x04ABCDE8#32 = .error (.reservedBits 4) := by
  decide
/-- EN14, EN1. -/
theorem test_decodeTableWord :
    decodeTableWord 32 0x04ABCDE0 = some (.egcd 10 11 12 13 14) ∧ decodeTableWord 32 0 = none := by decide
/-- P3: `MODEXP B8, B7, B15, B2` is `0x0387F200`. -/
theorem test_encode_modexp : encode (.modexp 8 7 15 2) = 0x0387F200#32 := by decide

/-! ### Commands -/

/-- CM7. -/
theorem test_cmp_negative : nextHas (exec (.cmp 0 1) (small (-5) (-3) 0 0 0)) (ends · 0 0x2 (-5) (-3) 0) = true := by
  decide +kernel
/-- CM13, CM14: negative zero equals zero, PRIME is kept. -/
theorem test_cmp_negative_zero :
    nextHas (exec (.cmp 0 1)
      { (small 0 0 0 0 0).setReg 0 { sign := true, mag := 0 } with flags := { State.reset.flags with prime := true } })
      (fun t => ends t 0 0x9 0 0 0 && (t.signWord == 1#32)) = true := by decide +kernel
/-- MU4. -/
theorem test_mul_signed : nextHas (exec (.mul 2 0 1) (small (-7) 6 777 0 0)) (ends · 0 0 (-7) 6 (-42)) = true := by
  decide +kernel
/-- MU12. -/
theorem test_mul_overflow :
    nextHas (exec (.mul 2 0 1) (small (-0x10000) 0x10000 777 0 0)) (ends · 5 0 (-0x10000) 0x10000 777) = true := by
  decide +kernel
/-- ME1. -/
theorem test_modexp_trace :
    nextHas (exec (.modexp 3 0 1 2) (small 4 13 497 999 0)) (fun t => ends t 0 0 4 13 497 && decide (t.x 3 = 445)) = true := by
  decide +kernel
/-- ME21: the modulus is checked first. -/
theorem test_modexp_order :
    nextHas (exec (.modexp 3 0 1 2) (small (-3) 4 0 999 0)) (fun t => ends t 2 0 (-3) 4 0 && decide (t.x 3 = 999)) = true := by
  decide +kernel
/-- EG1. -/
theorem test_egcd_source :
    nextHas (exec (.egcd 0 1 2 3 4) (small 111 222 333 240 46))
      (fun t => ends t 0 0 2 (-9) 47 && (t.signWord == 2#32)) = true := by decide +kernel
/-- EG23: destinations overwrite the sources. -/
theorem test_egcd_overlap :
    nextHas (exec (.egcd 3 4 5 3 4) (small 0 0 0 240 46))
      (fun t => ends t 0 0 0 0 0 && decide (t.x 3 = 2 ∧ t.x 4 = -9 ∧ t.x 5 = 47)) = true := by decide +kernel
/-- MI1. -/
theorem test_modinv_example :
    nextHas (exec (.modinv 2 0 1) (small 65537 3120 555 0 0)) (ends · 0 0 65537 3120 2753) = true := by decide +kernel
/-- MI12. -/
theorem test_modinv_notInvertible :
    nextHas (exec (.modinv 2 0 1) (small 10 4 555 0 0)) (ends · 3 0 10 4 555) = true := by decide +kernel
/-- MR6 and P4. -/
theorem test_mrtest_composite :
    nextHas (exec (.mrtest 0) (drawing 221 2 [0xFF#32, 0x3AE#32, 0#32, 0x89#32, 5#32])) (answers · false 4) = true := by
  decide +kernel
/-- MR23. -/
theorem test_mrtest_prime :
    nextHas (exec (.mrtest 0) (drawing 65537 2 [0#32, 0x10000#32, 0x10001#32, 3#32])) (answers · true 4) = true := by
  decide +kernel

/-! ### Accesses, acceptance and reset -/

/-- The next event of a default block is this access. -/
def access (s : State) (e : Event) : State := { s with events := [e] }

/-- AC1, AC2, AC7. -/
theorem test_reads :
    nextHas (step (access State.reset (.memRead 0x00018#17 4))) (·.bus == some (.read .ok 0x01100040#32)) = true ∧
    nextHas (step (access State.reset (.memRead 0x00002#17 4)))
      (fun t => (t.bus == some (.read .err 0#32)) && (t.status.word == 4#32)) = true ∧
    nextHas (step (access State.reset (.memRead 0x10100#17 4))) (·.bus == some (.read .err 0#32)) = true := by
  decide +kernel
/-- AC8: the top limb of B15. -/
theorem test_limb :
    nextHas (step (access State.reset (.memWrite 0x1F0FC#17 4 0xFFFFFFFF#32)))
      (fun t => decide (t.x 15 = 0xFFFFFFFF * 2 ^ 2016) &&
        nextHas (step (access t (.memRead 0x1F0FC#17 4))) (·.bus == some (.read .ok 0xFFFFFFFF#32))) = true := by
  decide +kernel
/-- AC12: sixteen sign bits. -/
theorem test_sign :
    nextHas (step (access State.reset (.memWrite 0x00014#17 4 0xFFFFFFFF#32))) (·.signWord == 0xFFFF#32) = true := by
  decide +kernel
/-- P5: while BUSY a CMD write is refused, a ROUNDS write is not. -/
theorem test_busy :
    nextHas (step (access (State.reset.accept 0x03301200#32) (.memWrite 0x00000#17 4 0x01010000#32)))
      (fun t => (t.bus == some (.write .err)) && (t.cmd == 0x03301200#32) && (t.status.word == 5#32)) = true ∧
    nextHas (step (access (State.reset.accept 0x03301200#32) (.memWrite 0x00010#17 4 7#32)))
      (fun t => (t.bus == some (.write .ok)) && (t.rounds == 7#32)) = true := by decide +kernel
/-- P2: acknowledging NotInvertible leaves ERR, and irq falls. -/
theorem test_acknowledge :
    nextHas (step (access { State.reset.raise .notInvertible with ie := true } (.memWrite 0x00004#17 4 2#32)))
      (fun t => (t.status.word == 0x300#32) && !t.irq) = true := by decide +kernel
/-- EN6: an illegal word placed as the next command. -/
theorem test_illegal :
    nextHas (step (State.reset.withFetchWord 32 0x01010001)) (fun t => (t.status.word == 0x102#32) && (t.cmd == 0x01010001#32))
      = true := by decide +kernel
/-- MR25: the source offers no more words. -/
theorem test_mrtest_waits :
    nextHas (exec (.mrtest 0) (drawing 221 1 [0#32, 0#32, 0#32]))
      (fun t => (t.status.word == 1#32) && decide (t.rngpos = 3)) = true := by decide +kernel
/-- RS2: reset abandons a command that waits. -/
theorem test_reset :
    nextHas (step { drawing 221 1 [] with events := [.reset] })
      (fun t => (t.status.word == 0#32) && decide (t.x 0 = 0) && (t.rounds == 28#32)) = true := by decide +kernel
/-- Section 5 of 95_test_vectors.md: `bits = 5` gives p = 3, q = 7, n = 21, d = 5; `bits = 3` is refused (R190).
ROUNDS is put to 1 to keep the run short (log 23). -/
theorem test_keyPair :
    (State.generateKeyPair { State.reset with
      rounds := 1#32, cfg := ⟨1⟩, rngQueue := [1#32, 1#32] } 5 [0, 0]).1 = .keyPair 21 5 ∧
    (State.generateKeyPair State.reset 3 []).1 = .degenerateKeySize := by decide +kernel
/-- R183: on a one-limb block a key of 33 bits is above W. R243 (a): with no RNG word the host waits in RUN MRTEST B0,
whose candidate 3 is loaded and whose word is latched. -/
theorem test_keyPair_stops :
    (State.generateKeyPair (small 0 0 0 0 0) 33 [0]).1 = .keySizeAboveWidth ∧
    (State.generateKeyPair (small 0 0 0 0 0) 5 [0]).1 = .searching ∧
    ((State.generateKeyPair (small 0 0 0 0 0) 5 [0]).2.cmd = 0x06000000#32 ∧
      (State.generateKeyPair (small 0 0 0 0 0) 5 [0]).2.status.busy = true ∧
      (State.generateKeyPair (small 0 0 0 0 0) 5 [0]).2.x 0 = 3) := by decide +kernel
/-- ME1: `4^13 mod 497 = 445 = 0x1bd`; a digest of 33 bits on a one-limb block; modulus 0 (R124). -/
theorem test_signDigest :
    (State.signDigest (small 0 0 0 0 0) "0x" "FF" 497 1).1 = .signature "0xff" ∧
    (State.signDigest (small 0 0 0 0 0) "0x" "4" 497 13).1 = .signature "0x1bd" ∧
    (State.signDigest (small 0 0 0 0 0) "0x" "100000000" 497 13).1 = .argumentTooWide ∧
    (State.signDigest (small 0 0 0 0 0) "0x" "4" 0 13).1 = .commandError 2 := by decide +kernel

/-! ### Witnesses: for each statement with hypotheses, a concrete state and operands that meet them -/

/-- A running command with the engine's turn. -/
def running (s : State) (w : Word) : State := { s.accept w with events := [.engine] }

/-- `cfg` with the default NLIMBS, for the statements that ask for a legal parameter. -/
def idle : State := State.reset

theorem witness_DecodeOfEncodeIsTheCommand :
    (Instr.egcd 15 14 13 15 15).wellFormed = true ∧ (Instr.egcd 0 1 2 0 0).wellFormed = true ∧
    (Instr.cmp 15 15).wellFormed = true := by decide
theorem witness_EncodeOfDecodeIsTheWord : decode 0x04FEDFF0#32 = .ok (.egcd 15 14 13 15 15) := by decide
theorem witness_StepRunsTheDecodedCommand :
    (EngineTurn (running idle 0x01010000#32) ∧ EngineTurn (idle.accept 0x01010000#32)) ∧
    (running idle 0x01010000#32).status.busy = true ∧ decode (running idle 0x01010000#32).cmd = .ok (.cmp 0 1) :=
  ⟨⟨.inr ⟨[], rfl⟩, .inl rfl⟩, rfl, by decide⟩
theorem witness_PlacedCommandRunsNext : (Instr.mrtest 15).wellFormed = true := by decide
theorem witness_IllegalWordEndsWithIllegalCommand :
    EngineTurn (running idle 0x04002340#32) ∧ (running idle 0x04002340#32).status.busy = true ∧
    decode (running idle 0x04002340#32).cmd = .error (.equalDestinations 0 0 2) := ⟨.inr ⟨[], rfl⟩, rfl, by decide⟩
theorem witness_IdleEngineWaits : EngineTurn idle ∧ idle.status.busy = false := ⟨.inl rfl, rfl⟩
theorem witness_CompareLaws :
    (∀ o : Cmp, ∃ a b c : BigReg, compareRegs a b = o ∧ compareRegs b c = o) ∧
    ∃ t, exec (.cmp 0 0) idle = .next t :=
  ⟨fun o => match o with
    | .lt => ⟨⟨true, 1⟩, ⟨true, 0⟩, ⟨false, 1⟩, by decide, by decide⟩
    | .eq => ⟨⟨true, 0⟩, ⟨false, 0⟩, ⟨true, 0⟩, by decide, by decide⟩
    | .gt => ⟨⟨false, 1⟩, ⟨true, 0⟩, ⟨true, 1⟩, by decide, by decide⟩, _, rfl⟩
/-- The largest product that fits: `(2^16 - 1) * (2^16 + 1) = 2^32 - 1`. -/
theorem witness_MulWritesTheExactProduct :
    ((small 0xFFFF (-0x10001) 0 0 0).x 0 * (small 0xFFFF (-0x10001) 0 0 0).x 1).natAbs
      < 2 ^ (small 0xFFFF (-0x10001) 0 0 0).width := by decide +kernel
theorem witness_MulOverflows :
    2 ^ (small 0x10000 (-0x10000) 0 0 0).width
      ≤ ((small 0x10000 (-0x10000) 0 0 0).x 0 * (small 0x10000 (-0x10000) 0 0 0).x 1).natAbs ∧
    (bitlen ((small 0xFFFF 0xFFFF 0 0 0).x 0).natAbs + bitlen ((small 0xFFFF 0xFFFF 0 0 0).x 1).natAbs
        ≤ (small 0xFFFF 0xFFFF 0 0 0).width ∧ ∃ t, exec (.mul 2 0 1) (small 0xFFFF 0xFFFF 0 0 0) = .next t ∧ true = true) ∧
    ((∀ k : RegNum, ((small 0x80000000 2 0 0 0).reg k).mag < 2 ^ (small 0x80000000 2 0 0 0).width) ∧
      (small 0x80000000 2 0 0 0).width + 2
        ≤ bitlen ((small 0x80000000 2 0 0 0).x 0).natAbs + bitlen ((small 0x80000000 2 0 0 0).x 1).natAbs ∧
      ∃ t, exec (.mul 2 0 1) (small 0x80000000 2 0 0 0) = .next t ∧ true = true) ∧
    (∃ t, exec (.mul 2 0 1) (small 0xFFFF (-0x10001) 0 0 0) = .next t ∧ decide (t.status.err = .noError) = true) ∧
    ∃ t, exec (.mul 2 0 1) (small 0x10000 (-0x10000) 0 0 0) = .next t ∧ decide (t.status.err = .overflow) = true :=
  ⟨by decide +kernel, ⟨by decide +kernel, exists_next (by decide +kernel)⟩,
    ⟨by decide +kernel, by decide +kernel, exists_next (by decide +kernel)⟩, exists_next (by decide +kernel),
    exists_next (by decide +kernel)⟩
theorem witness_MulLaws :
    (∃ t, exec (.mul 0 0 0) (small 0 0 0 0 0) = .next t ∧ decide (t.status.err = .noError) = true) ∧
    ∃ t, exec (.mul 0 0 0) (small 0x10000 0 0 0 0) = .next t ∧ decide (t.status.err = .overflow) = true :=
  ⟨exists_next (by decide +kernel), exists_next (by decide +kernel)⟩
/-- Modulus 1, exponent 0, base 0; and base and modulus equal at full width. -/
theorem witness_ModexpWritesThePowerResidue :
    (0 < (small 0 0 1 0 0).x 2 ∧ 0 ≤ (small 0 0 1 0 0).x 0 ∧ 0 ≤ (small 0 0 1 0 0).x 1) ∧
    0 < (small 0xFFFFFFFF 2 0 0 0).x 0 := by decide +kernel
theorem witness_ModExpIsThePowerResidue : 0 < 1 := by decide
theorem witness_ModExpRunsBitlenIterations : 0 < bitlen 1 ∧ bitlen 1 ≤ 1 ∧ bitlen 0 ≤ 0 := by decide
theorem witness_ModexpNeverOverflows :
    (0xFFFFFFFF < 2 ^ 32 ∧ 0 < 1 ∧ 1 < 2 ^ 32 ∧ Work.zero.p < 2 ^ (2 * 32) ∧ 1 ≠ 0) ∧
    ∃ t, exec (.modexp 0 0 0 0) idle = .next t ∧ true = true := ⟨by decide, exists_next (by decide +kernel)⟩
theorem witness_EgcdWritesTheEuclidTriple :
    (Instr.egcd 3 4 5 3 4).wellFormed = true ∧ 0 ≤ (small 0 0 0 0 46).x 3 ∧ 0 ≤ (small 0 0 0 0 46).x 4 := by
  decide +kernel
theorem witness_EgcdGivesBezoutCoefficients :
    ∃ t, exec (.egcd 3 4 5 3 4) (small 0 0 0 240 46) = .next t ∧ decide (t.status.err = .noError) = true :=
  exists_next (by decide +kernel)
theorem witness_ExtGcdLaws : (egcdInit 1 1 Work.zero).egcd.r ≠ 0 := by decide
/-- The first iteration on `b = 1`, the point before it, and `b = 0`. -/
theorem witness_ExtGcdCoefficientsAreBounded : (0 < 1 ∧ 1 ≠ 0) ∧ (0 = 0 ∨ 1 = 0) ∧ (1 = 0 ∨ 0 = 0) := by decide
theorem witness_ExtGcdLoopIsTheRecursion : EuclidTriple 3 0 3 1 0 ∧ EuclidTriple 3 3 3 0 (1 - ((3 / 3 : Nat) : Int) * 0) :=
  ⟨.base 3, .step 3 3 3 1 0 (by decide) (.base 3)⟩
/-- Modulus 1 with value 0, and an inverse above the modulus. -/
theorem witness_ModinvWritesTheInverse :
    (0 < (small 0 1 0 0 0).x 1 ∧ 0 ≤ (small 0 1 0 0 0).x 0 ∧ Int.gcd ((small 0 1 0 0 0).x 0) ((small 0 1 0 0 0).x 1) = 1) ∧
    Int.gcd ((small 18 7 0 0 0).x 0) ((small 18 7 0 0 0).x 1) = 1 := by decide +kernel
theorem witness_MrtestEarlyDecisions :
    (small 1 0 0 0 0).x 0 < 2 ∧ (small 2 0 0 0 0).x 0 = 2 ∧ (small 4 0 0 0 0).x 0 % 2 = 0 := by decide +kernel
theorem witness_DecompositionIsExact : 3 ≤ 3 ∧ 3 % 2 = 1 ∧ (⟨1⟩ : Config).legal = true ∧ 3 < 2 ^ (⟨1⟩ : Config).width := by
  decide

/-- One word 1 gives the witness 1 for n = 3. -/
theorem draws_three : Draws 3 [1#32] 1 [] := .accept [1#32] [] (by decide +kernel) (by decide +kernel) (by decide +kernel)

/-- The witness 1 passes for n = 3. -/
theorem rounds_three : Rounds 3 1 [1#32] true [] :=
  .pass 0 [1#32] [] [] 1 true draws_three ⟨1, 1, by decide, .inl (by decide)⟩ (.none [])

/-- The witness 2 fails for n = 9 (MR12): `9 - 1 = 2^3 * 1`, chain 2, 4, 7. -/
theorem rounds_nine : Rounds 9 1 [2#32] false [] := by
  refine .composite 0 [2#32] [] 2 (.accept [2#32] [] (by decide +kernel) (by decide +kernel) (by decide +kernel)) ?_
  rintro ⟨r, s, hd, h⟩
  obtain ⟨rfl, rfl⟩ := decomposed_unique hd (show Decomposed 9 3 1 by decide)
  rcases h with h | ⟨j, hj, h⟩
  · simp at h
  · interval_cases j <;> simp at h

theorem witness_MrtestAnswersByItsRounds :
    (drawing 3 1 [1#32]).x 0 = ((3 : Nat) : Int) ∧ 3 ≤ 3 ∧ 3 % 2 = 1 ∧ (drawing 3 1 [1#32]).mrFresh ∧
    1 ≤ (drawing 3 1 [1#32]).roundsL.toNat ∧
    Rounds 3 (drawing 3 1 [1#32]).roundsL.toNat (drawing 3 1 [1#32]).rngQueue true [] ∧
    (drawing 9 1 [2#32]).x 0 = ((9 : Nat) : Int) ∧
    Rounds 9 (drawing 9 1 [2#32]).roundsL.toNat (drawing 9 1 [2#32]).rngQueue false [] :=
  ⟨by decide +kernel, le_rfl, rfl, ⟨rfl, rfl, rfl⟩, by decide, rounds_three, by decide +kernel, rounds_nine⟩
theorem witness_MrtestCompletesOnlyByItsRounds :
    (drawing 3 1 [1#32]).x 0 = ((3 : Nat) : Int) ∧ (drawing 3 1 [1#32]).mrFresh ∧
    1 ≤ (drawing 3 1 [1#32]).roundsL.toNat ∧ (drawing 3 1 [1#32]).status.busy = true ∧
    ∃ t, exec (.mrtest 0) (drawing 3 1 [1#32]) = .next t ∧ (!t.status.busy) = true :=
  ⟨by decide +kernel, ⟨rfl, rfl, rfl⟩, by decide, rfl, exists_next (by decide +kernel)⟩
theorem witness_MrtestWithZeroRounds :
    3 ≤ (drawing 3 0 []).x 0 ∧ (drawing 3 0 []).x 0 % 2 = 1 ∧ (drawing 3 0 []).roundsL = 0#32 := by decide +kernel
theorem witness_MrtestNeverRejectsAPrime :
    (2 : Nat).Prime ∧ (3 : Nat).Prime ∧ (drawing 3 1 [1#32]).x 0 = ((3 : Nat) : Int) ∧ (drawing 3 1 [1#32]).mrFresh ∧
    (drawing 3 1 [1#32]).status.busy = true ∧
    ∃ t, exec (.mrtest 0) (drawing 3 1 [1#32]) = .next t ∧ (!t.status.busy) = true :=
  ⟨Nat.prime_two, Nat.prime_three, by decide +kernel, ⟨rfl, rfl, rfl⟩, rfl, exists_next (by decide +kernel)⟩
/-- MR25's source that offers no more words; words that end after a passed round (n = 3, witness 1, two rounds); words
that end inside a candidate (`n = 2^32 + 3`, `L = 2`). -/
theorem witness_MrtestWaitsForAcceptableWords :
    ((drawing 221 1 [0#32, 0#32, 0#32]).status.busy = true ∧
      ∃ t, exec (.mrtest 0) (drawing 221 1 [0#32, 0#32, 0#32]) = .next t ∧ t.status.busy = true) ∧
    (∃ t, exec (.mrtest 0) (drawing 3 2 [1#32]) = .next t ∧ (t.status.busy && decide (t.work.mr.i = 1)) = true) ∧
    (∃ t, exec (.mrtest 0) ({ drawing (2 ^ 32 + 3) 1 [7#32] with cfg := ⟨2⟩ } : State) = .next t ∧
      (t.status.busy && decide (t.work.mr.l = 1)) = true) ∧
    ((drawing 3 1 [0#32]).x 0 = ((3 : Nat) : Int) ∧ (drawing 3 1 [0#32]).mrFresh ∧
      1 ≤ (drawing 3 1 [0#32]).roundsL.toNat ∧ AllRejected 3 (drawing 3 1 [0#32]).rngQueue ∧ AllRejected 3 []) :=
  ⟨⟨rfl, exists_next (by decide +kernel)⟩, exists_next (by decide +kernel), exists_next (by decide +kernel),
    by decide +kernel, ⟨rfl, rfl, rfl⟩, by decide, .cons [0#32] [] (by decide +kernel) (by decide +kernel) .nil, .nil⟩
theorem witness_MrtestReadsTheStreamInOrder :
    ((drawing 3 1 []).status.busy = true ∧ ∃ t, exec (.mrtest 0) (drawing 3 1 []) = .next t ∧ t.status.busy = true) ∧
    ((drawing 3 1 [1#32]).status.busy = true ∧
      ∃ t, exec (.mrtest 0) (drawing 3 1 [1#32]) = .next t ∧ (!t.status.busy) = true) :=
  ⟨⟨rfl, exists_next (by decide +kernel)⟩, rfl, exists_next (by decide +kernel)⟩
theorem witness_ErrorsChangeNothingElse :
    idle.status.err = .noError ∧ ∃ t, exec (.modexp 3 0 1 2) idle = .next t ∧ decide (t.status.err ≠ .noError) = true :=
  ⟨rfl, exists_next (by decide +kernel)⟩
theorem witness_ErrorsInTheOrderOfChecks :
    (∃ t, exec (.cmp 0 1) idle = .next t ∧ true = true) ∧ (∃ t, exec (.mul 2 0 1) idle = .next t ∧ true = true) ∧
    (∃ t, exec (.modexp 3 0 1 2) (small (-3) 4 0 0 0) = .next t ∧ true = true) ∧
    (∃ t, exec (.egcd 0 0 2 3 4) (small 0 0 0 (-3) 0) = .next t ∧ true = true) ∧
    (∃ t, exec (.modinv 2 0 1) (small (-3) 0 0 0 0) = .next t ∧ true = true) ∧
    idle.status.err = .noError ∧ ∃ t, exec (.mrtest 0) idle = .next t ∧ true = true :=
  ⟨exists_next (by decide +kernel), exists_next (by decide +kernel), exists_next (by decide +kernel),
    exists_next (by decide +kernel), exists_next (by decide +kernel), rfl, exists_next (by decide +kernel)⟩
theorem witness_AllButMrtestAlwaysComplete : ∀ ra, Instr.cmp 0 1 ≠ .mrtest ra := by decide
theorem witness_CommandsLeaveControlAlone : ∃ t, exec (.mrtest 0) (drawing 3 1 []) = .next t ∧ true = true :=
  exists_next (by decide +kernel)
theorem witness_FlagsHaveOneWriterEach :
    (∃ t, exec (.mul 0 0 0) idle = .next t ∧ true = true) ∧ (∀ ra rb, Instr.mul 0 0 0 ≠ .cmp ra rb) ∧
    ∀ ra, Instr.mul 0 0 0 ≠ .mrtest ra := ⟨exists_next (by decide +kernel), by decide, by decide⟩
theorem witness_OnlyMrtestTakesWords :
    (∃ t, exec (.mrtest 0) (drawing 3 1 [1#32]) = .next t ∧ true = true) ∧
    (∃ t, exec (.cmp 0 1) (drawing 3 1 [1#32]) = .next t ∧ true = true) ∧ ∀ ra, Instr.cmp 0 1 ≠ .mrtest ra :=
  ⟨exists_next (by decide +kernel), exists_next (by decide +kernel), by decide⟩
theorem witness_SignOfZeroNeverMatters :
    (idle.reg 0).mag = 0 ∧ (∃ t, exec (.cmp 0 1) idle = .next t ∧ true = true) ∧
    ∃ t, exec (.cmp 0 1) (idle.setReg 0 { sign := true, mag := 0 }) = .next t ∧ true = true :=
  ⟨by decide +kernel, exists_next (by decide +kernel), exists_next (by decide +kernel)⟩
theorem witness_RoundsWriteDoesNotReachTheRunningCommand :
    ∃ t, exec (.mrtest 0) (drawing 221 2 [0xFF#32]) = .next t ∧ true = true := exists_next (by decide +kernel)

/-- A refused access for each item of the list, and an access that is answered OK. -/
theorem witness_RefusedAccessesAreThoseOfTheList :
    (access idle (.memRead 0x00000#17 2)).events = .memRead 0x00000#17 2 :: [] ∧
    (0x00002#17 : Addr).toNat % 4 ≠ 0 ∧ Unmapped idle.cfg 0x0001C#17 ∧ Unmapped idle.cfg 0x0FFFC#17 ∧
    Unmapped idle.cfg 0x10100#17 ∧ LimbAddress idle.cfg 0x100FC#17 ∧ (running idle 0#32).status.busy = true ∧
    ¬(4 ≠ 4 ∨ (0x00018#17 : Addr).toNat % 4 ≠ 0 ∨ Unmapped idle.cfg 0x00018#17 ∨
      (idle.status.busy = true ∧ LimbAddress idle.cfg 0x00018#17)) ∧
    ¬(4 ≠ 4 ∨ (0x10000#17 : Addr).toNat % 4 ≠ 0 ∨ Unmapped idle.cfg 0x10000#17 ∨
      (idle.status.busy = true ∧
        (LimbAddress idle.cfg 0x10000#17 ∨ (0x10000#17 : Addr) = 0x00000#17 ∨ (0x10000#17 : Addr) = 0x00014#17))) := by
  decide
theorem witness_ReadsGiveTheRegisters :
    idle.cfg.legal = true ∧ (⟨1⟩ : Config).legal = true ∧ (⟨1024⟩ : Config).legal = true ∧ idle.status.busy = false ∧
    63 < idle.cfg.nlimbs ∧ (access idle (.memRead (limbAddr 15 63) 4)).events = .memRead (limbAddr 15 63) 4 :: [] := by
  decide
theorem witness_ControlWritesAtAnyTime :
    (access idle (.memWrite 0x00004#17 4 6#32)).events = .memWrite 0x00004#17 4 6#32 :: [] := rfl
theorem witness_LimbWriteReplacesOneLimb :
    idle.cfg.legal = true ∧ idle.status.busy = false ∧ 63 < idle.cfg.nlimbs ∧ 0 < idle.cfg.nlimbs ∧
    (idle.reg 15).mag < 2 ^ idle.width ∧ 0 ≠ 63 := by decide +kernel
theorem witness_SignWriteSetsSixteenSigns :
    idle.status.busy = false ∧
    (access idle (.memWrite 0x00014#17 4 1#32)).events = .memWrite 0x00014#17 4 1#32 :: [] := ⟨rfl, rfl⟩
theorem witness_CmdWriteIsAccepted :
    idle.status.busy = false ∧
    (access idle (.memWrite 0x00000#17 4 1#32)).events = .memWrite 0x00000#17 4 1#32 :: [] := ⟨rfl, rfl⟩
theorem witness_RunningCommandIsOutOfReach :
    (idle.accept 0#32).status.busy = true ∧
    (access (idle.accept 0#32) (.memRead 0x10000#17 4)).events = .memRead 0x10000#17 4 :: [] ∧
    LimbAddress idle.cfg 0x10000#17 ∧
    ∃ t, step (access (idle.accept 0#32) (.memRead 0x10000#17 4)) = .next t ∧ true = true :=
  ⟨rfl, rfl, by decide, exists_next (by decide +kernel)⟩
theorem witness_ResetEventClearsAllButTheStream :
    (access (idle.accept 0#32) .reset).events = .reset :: [] := rfl
/-- The reset state with the parameter of a one-limb block meets the invariant. -/
theorem witness_EveryStepKeepsTheInvariant :
    (small 0 0 0 0 0).cfg.legal = true ∧ (∀ k : RegNum, ((small 0 0 0 0 0).reg k).mag < 2 ^ (small 0 0 0 0 0).width) ∧
    (small 0 0 0 0 0).statusLegal ∧ (small 0 0 0 0 0).flags.legal ∧
    (small 0 0 0 0 0).work.inRange (small 0 0 0 0 0).cfg ∧
    ∃ t, step (small 0 0 0 0 0) = .next t ∧ true = true :=
  ⟨by decide, by decide +kernel, by decide, by decide, by decide +kernel, exists_next (by decide +kernel)⟩
theorem witness_RegistersChangeOnlyByTheirWriters :
    ∃ t, step (access idle (.memWrite 0x10000#17 4 5#32)) = .next t ∧ decide (t.reg 0 ≠ idle.reg 0) = true :=
  exists_next (by decide +kernel)
theorem witness_FlagsChangeOnlyByCmpAndMrtest :
    ∃ t, step (running idle 0x01010000#32) = .next t ∧ decide (t.flags ≠ idle.flags) = true :=
  exists_next (by decide +kernel)
theorem witness_BusyChangesOnlyByAcceptanceCompletionReset :
    (idle.status.busy = false ∧
      ∃ t, step (access idle (.memWrite 0x00000#17 4 5#32)) = .next t ∧ t.status.busy = true) ∧
    ((running idle 0#32).status.busy = true ∧ ∃ t, step (running idle 0#32) = .next t ∧ (!t.status.busy) = true) :=
  ⟨⟨rfl, exists_next (by decide +kernel)⟩, rfl, exists_next (by decide +kernel)⟩
theorem witness_AccErrIsSticky :
    (∃ t, step (access idle (.memRead 0x0001C#17 4)) = .next t ∧ t.status.accErr = true) ∧
    ∃ t, step (access idle.refuseAccess (.memWrite 0x00004#17 4 4#32)) = .next t ∧ (!t.status.accErr) = true :=
  ⟨exists_next (by decide +kernel), exists_next (by decide +kernel)⟩
theorem witness_IrqRisesOnlyByCompletionOrEnable :
    (({ running idle 0#32 with ie := true } : State).irq = false ∧
      ∃ t, step { running idle 0#32 with ie := true } = .next t ∧ t.irq = true) ∧
    ∃ t, step (access idle.finish (.memWrite 0x00008#17 4 1#32)) = .next t ∧ t.irq = true :=
  ⟨⟨by decide, exists_next (by decide +kernel)⟩, exists_next (by decide +kernel)⟩
theorem witness_StreamOnlyGoesForward :
    (∃ t, step { drawing 3 1 [1#32] with cmd := 0x06000000#32 } = .next t ∧ decide (t.rngpos ≠ 0) = true) ∧
    ∃ t, step (access idle (.rngOffer 7#32)) = .next t ∧ true = true :=
  ⟨exists_next (by decide +kernel), exists_next (by decide +kernel)⟩
theorem witness_SetBigLoadsAndGetBigReads :
    (small 0 0 0 0 0).cfg.legal = true ∧ (small 0 0 0 0 0).status.busy = false ∧
    (∀ k : RegNum, ((small 0 0 0 0 0).reg k).mag < 2 ^ (small 0 0 0 0 0).width) ∧
    (-0xFFFFFFFF : Int).natAbs < 2 ^ (small 0 0 0 0 0).width := by decide +kernel
theorem witness_CandidateProductHasAllItsBits : 2 ≤ 2 := by decide
/-- P3: p = 61, q = 53, e = 65537, d = 2753, x = 42. -/
theorem witness_RsaRoundTrip :
    (61 : Nat).Prime ∧ (53 : Nat).Prime ∧ 61 ≠ 53 ∧ 65537 * 2753 % ((61 - 1) * (53 - 1)) = 1 % ((61 - 1) * (53 - 1)) ∧
    (small 42 65537 2753 3233 0).x 3 = ((61 : Nat) : Int) * (53 : Nat) ∧ (small 42 65537 2753 3233 0).x 1 = ((65537 : Nat) : Int) ∧
    (small 42 65537 2753 3233 0).x 2 = ((2753 : Nat) : Int) ∧ 0 ≤ (small 42 65537 2753 3233 0).x 0 ∧
    (small 42 65537 2753 3233 0).x 0 < (small 42 65537 2753 3233 0).x 3 ∧ (8 : RegNum) ≠ 2 ∧ (8 : RegNum) ≠ 3 :=
  ⟨by norm_num, by norm_num, by decide, by decide +kernel, by decide +kernel, by decide +kernel, by decide +kernel,
    by decide +kernel, by decide +kernel, by decide, by decide⟩

end Sys2Proof.Tests
end

/-! PROOFS. What a host write can do, as one inductive with a name per case (20_memory.md R56, R57). -/

namespace Sys2Proof.Machine

/-- What a write of `n` bytes `v` to `addr` does: `memWrite_spec` with its cases named. -/
inductive Writes (s : State) (addr : Addr) (n : Nat) (v : Word) : State → Prop where
  | refused : Writes s addr n v (s.refuseAccess.answer (.write .err))
  | ignored : Writes s addr n v (s.answer (.write .ok))
  | status : n = 4 → addr = 0x00004#17 → Writes s addr n v ((s.acknowledge v).answer (.write .ok))
  | ctrl : n = 4 → addr = 0x00008#17 →
      Writes s addr n v (({ s with ie := v.getLsbD 0 } : State).answer (.write .ok))
  | rounds : Writes s addr n v (({ s with rounds := v } : State).answer (.write .ok))
  | cmd : n = 4 → s.status.busy = false → addr = 0x00000#17 → Writes s addr n v ((s.accept v).answer (.write .ok))
  | sign : n = 4 → s.status.busy = false → addr = 0x00014#17 →
      Writes s addr n v ((s.setSigns v).answer (.write .ok))
  | limb (k : RegNum) (i : Nat) : n = 4 → s.status.busy = false → LimbAddress s.cfg addr → i < s.cfg.nlimbs →
      Writes s addr n v ((s.setReg k ((s.reg k).setLimb i v)).answer (.write .ok))

theorem memWrite_writes (s : State) (addr : Addr) (n : Nat) (v : Word) : Writes s addr n v (s.memWrite addr n v) := by
  rcases memWrite_spec s addr n v with he | ⟨hn, he, ha⟩ | ⟨hn, he, ha⟩ | ⟨-, he⟩ | ⟨-, he⟩ | ⟨hn, hb, he, ha⟩ |
    ⟨hn, hb, he, ha⟩ | ⟨hn, hb, ha, k, i, hi, he⟩ <;> rw [he]
  · exact .refused
  · exact .status hn ha
  · exact .ctrl hn ha
  · exact .ignored
  · exact .rounds
  · exact .cmd hn hb ha
  · exact .sign hn hb ha
  · exact .limb k i hn hb ha hi

section
variable {s t : State} {addr : Addr} {n : Nat} {v : Word}

/-- No write changes the parameter, FLAGS or the stream (R29, R36, R39). -/
theorem Writes.frame (h : Writes s addr n v t) : t.cfg = s.cfg ∧ t.flags = s.flags ∧ SameStream s t := by
  cases h <;> exact ⟨rfl, rfl, rfl, rfl⟩

/-- A write changes a register only while idle, at SIGN or at a limb (R56, R58). -/
theorem Writes.regs_cases (h : Writes s addr n v t) :
    t.regs = s.regs ∨ (n = 4 ∧ s.status.busy = false ∧ (addr = 0x00014#17 ∨ LimbAddress s.cfg addr)) := by
  cases h with
  | sign hn hb ha => exact .inr ⟨hn, hb, .inl ha⟩
  | limb k i hn hb ha => exact .inr ⟨hn, hb, .inr ha⟩
  | refused | ignored | status | ctrl | rounds | cmd => exact .inl rfl

/-- A write changes BUSY only by the acceptance of a command (R26, R56). -/
theorem Writes.busy_cases (h : Writes s addr n v t) :
    t.status.busy = s.status.busy ∨ (n = 4 ∧ s.status.busy = false ∧ addr = 0x00000#17 ∧ t.cmd = v) := by
  cases h with
  | cmd hn hb ha => exact .inr ⟨hn, hb, ha, rfl⟩
  | refused | ignored | status | ctrl | rounds | sign | limb => exact .inl rfl

/-- A write changes ACCERR only where it is refused, or acknowledges it at STATUS (R27, R57). -/
theorem Writes.accErr_cases (h : Writes s addr n v t) :
    t.status.accErr = s.status.accErr ∨ (t.status.accErr = true ∧ t.bus = some (.write .err)) ∨
      (n = 4 ∧ addr = 0x00004#17 ∧ t.status.accErr = (s.status.accErr && !v.getLsbD 2)) := by
  cases h with
  | refused => exact .inr (.inl ⟨rfl, rfl⟩)
  | status hn ha => exact .inr (.inr ⟨hn, ha, rfl⟩)
  | ignored | ctrl | rounds | cmd | sign | limb => exact .inl rfl

end

/-! ### A read (R55, R60) -/

theorem memRead_frame (s : State) (addr : Addr) (n : Nat) :
    (s.memRead addr n).cfg = s.cfg ∧ (s.memRead addr n).regs = s.regs ∧ (s.memRead addr n).flags = s.flags ∧
      (s.memRead addr n).status.busy = s.status.busy ∧ SameStream s (s.memRead addr n) := by
  obtain ⟨b, a, he, -⟩ := memRead_spec s addr n
  rw [he]
  exact ⟨rfl, rfl, rfl, rfl, rfl, rfl⟩

/-- A read raises ACCERR only where it is refused, and never clears it (R55, R57). -/
theorem memRead_accErr (s : State) (addr : Addr) (n : Nat) :
    (s.memRead addr n).status.accErr = s.status.accErr ∨
      ((s.memRead addr n).status.accErr = true ∧ (s.memRead addr n).bus = some (.read .err 0#32)) := by
  obtain ⟨b, a, he, hb⟩ := memRead_spec s addr n
  rw [he]
  cases b with
  | false => exact .inl (Bool.or_false _)
  | true => exact .inr ⟨Bool.or_true _, congrArg some (hb rfl)⟩

end Sys2Proof.Machine

/-! PROOFS. The invariant of a run holds after reset and every step keeps it (10_state.md R21, R22, R27, R29, R35). -/

namespace Sys2Proof.Machine

/-! ### The operations that keep the invariant -/

/-- An update that touches neither the parameter, a register, FLAGS nor a working register keeps the invariant where it
leaves STATUS legal. -/
theorem State.Inv.of_statusLegal {s t : State} (h : s.Inv) (hc : t.cfg = s.cfg) (hr : t.regs = s.regs)
    (hf : t.flags = s.flags) (hw : t.work = s.work) (hst : t.statusLegal) : t.Inv := by
  refine State.inv_of h hc (fun k => ?_) hst (hf ▸ h.flags) (hw ▸ h.work)
  rw [State.reg_congr hr, State.width_eq, hc]
  exact h.regs k

theorem State.Inv.tail {s : State} (h : s.Inv) (rest : List Event) : (s.tail rest).Inv :=
  h.of_statusLegal rfl rfl rfl rfl h.status

theorem State.Inv.answer {s : State} (h : s.Inv) (a : Answer) : (s.answer a).Inv :=
  h.of_statusLegal rfl rfl rfl rfl h.status

theorem State.Inv.offerWord {s : State} (h : s.Inv) (w : Word) : (s.offerWord w).Inv :=
  h.of_statusLegal rfl rfl rfl rfl h.status

theorem State.Inv.raise {s : State} (h : s.Inv) (e : ErrCode) : (s.raise e).Inv :=
  h.of_statusLegal rfl rfl rfl rfl (State.raise_statusLegal s e)

/-- ACCERR is no part of the invariant. -/
theorem State.Inv.setAccErr {s : State} (h : s.Inv) (b : Bool) :
    ({ s with status := { s.status with accErr := b } } : State).Inv :=
  h.of_statusLegal rfl rfl rfl rfl h.status

/-- An acknowledgement only clears DONE and ACCERR (R27, R208). -/
theorem State.Inv.acknowledge {s : State} (h : s.Inv) (v : Word) : (s.acknowledge v).Inv := by
  obtain ⟨hboth, herr⟩ := h.status
  refine h.of_statusLegal rfl rfl rfl rfl ⟨fun ⟨hb, hd⟩ => hboth ⟨hb, ?_⟩, herr⟩
  rw [State.acknowledge_status] at hd
  exact (Bool.and_eq_true _ _ ▸ hd).1

/-- Acceptance starts a command with DONE 0 and ERR 0, and puts MRTEST at its start (R201, log 9). -/
theorem State.Inv.accept {s : State} (h : s.Inv) (v : Word) : (s.accept v).Inv := by
  obtain ⟨hM, hE, hn, hs, ha, hxw, hr, hj, -, -, -⟩ := h.work
  refine State.inv_of h rfl h.regs ⟨fun ⟨_, hd⟩ => Bool.false_ne_true hd, fun _ => rfl⟩ h.flags ⟨hM, hE, ?_⟩
  exact ⟨hn, hs, ha, hxw, hr, hj, Nat.two_pow_pos 32, Nat.two_pow_pos 0, Config.nlimbs_pos h.cfg⟩

/-- A SIGN write changes no magnitude (R32). -/
theorem State.Inv.setSigns {s : State} (h : s.Inv) (v : Word) : (s.setSigns v).Inv := by
  refine State.inv_of h rfl (fun k => ?_) h.status h.flags h.work
  rw [State.reg_setSigns]
  exact h.regs k

/-- A write of a limb of the block keeps the magnitude in its width (R22, R52). -/
theorem State.Inv.setLimb {s : State} (h : s.Inv) (k : RegNum) {i : Nat} (hi : i < s.cfg.nlimbs) (v : Word) :
    (s.setReg k ((s.reg k).setLimb i v)).Inv := by
  refine State.inv_of h rfl (fun j => ?_) h.status h.flags h.work
  rw [State.reg_setReg]
  split
  · exact BigReg.setLimb_lt hi v (h.regs k)
  · exact h.regs j

theorem reg_replicate (s : State) (r : BigReg) (hr : s.regs = Vector.replicate 16 r) (k : RegNum) : s.reg k = r := by
  rw [State.reg_eq, hr]
  exact Vector.getElem_replicate _

theorem State.Inv.applyReset {s : State} (h : s.Inv) : s.applyReset.Inv := by
  refine State.inv_of h rfl (fun k => ?_) ⟨by simp, by simp⟩ (Nat.zero_le 1) h.work
  rw [reg_replicate _ _ rfl]
  exact Nat.two_pow_pos _

/-! ### Every step keeps the invariant -/

theorem State.Inv.memRead {s : State} (h : s.Inv) (addr : Addr) (n : Nat) : (s.memRead addr n).Inv := by
  obtain ⟨b, a, he, -⟩ := memRead_spec s addr n
  rw [he]
  exact (h.setAccErr _).answer a

theorem Writes.inv {s t : State} {addr : Addr} {n : Nat} {v : Word} (hw : Writes s addr n v t) (h : s.Inv) :
    t.Inv := by
  cases hw with
  | refused => exact (h.setAccErr true).answer _
  | ignored => exact h.answer _
  | status => exact (h.acknowledge v).answer _
  | ctrl | rounds => exact h.of_statusLegal rfl rfl rfl rfl h.status
  | cmd => exact (h.accept v).answer _
  | sign => exact (h.setSigns v).answer _
  | limb k i _ _ _ hi => exact (h.setLimb k hi v).answer _

theorem engineEvent_inv {s t : State} (h : s.Inv) (he : engineEvent s = .next t) : t.Inv := by
  cases hb : s.status.busy with
  | false => rw [engineEvent_idle hb] at he; cases he; exact h
  | true =>
    cases hd : decode s.cmd with
    | ok i => exact exec_inv h (engineEvent_busy hb hd ▸ he)
    | error r => rw [engineEvent_illegal hb hd] at he; cases he; exact h.raise _

theorem applyEvent_inv {s t : State} (e : Event) (h : s.Inv) (he : applyEvent e s = .next t) : t.Inv := by
  cases e with
  | memRead addr n => cases he; exact h.memRead addr n
  | memWrite addr n v => cases he; exact (memWrite_writes s addr n v).inv h
  | rngOffer w => cases he; exact h.offerWord w
  | engine => exact engineEvent_inv h he
  | reset => cases he; exact h.applyReset

/-- Settles O51: the engine's turn by the invariant lemma of the commands, every other event by its operation's. -/
theorem everyStepKeepsTheInvariant : Obligations.EveryStepKeepsTheInvariant := by
  intro s t h hstep
  rcases hev : s.events with _ | ⟨e, rest⟩
  · rw [step_engine (.inl hev)] at hstep
    exact engineEvent_inv (h.tail _) hstep
  · rw [step_event hev] at hstep
    exact applyEvent_inv e (h.tail rest) hstep

/-- The zeros of the working registers fit every block (log 6). -/
theorem Work.zero_inRange {c : Config} (hc : c.legal = true) : Work.zero.inRange c := by
  have hw := Nat.two_pow_pos c.width
  have h32 := Nat.two_pow_pos 32
  exact ⟨⟨hw, hw, hw, hw, Nat.two_pow_pos _⟩, ⟨hw, hw, hw, hw, hw, hw, hw⟩,
    hw, hw, hw, hw, h32, h32, h32, Nat.two_pow_pos 0, Config.nlimbs_pos hc⟩

/-- Settles O50: registers and working registers are 0 after reset. -/
theorem resetMeetsTheInvariant : Obligations.ResetMeetsTheInvariant where
  cfg := by decide
  regs k := by rw [reg_replicate _ _ rfl]; exact Nat.two_pow_pos _
  status := by decide
  flags := by decide
  work := Work.zero_inRange (by decide)

end Sys2Proof.Machine

/-! PROOFS. What every command has in common: who writes the flags, who takes words, and that neither the sign of a zero
nor ROUNDS is read (10_state.md R23, R29, R34, R36). -/

namespace Sys2Proof.Machine

/-! ### The flags, the registers and the words, by the end of the command -/

/-- FLAGS stay, or a CMP writes its three, or a MRTEST writes PRIME (R29). -/
theorem Ends.flags_cases {i : Instr} {s t : State} (h : Ends i s t) :
    t.flags = s.flags ∨ (∃ ra rb c, i = .cmp ra rb ∧ t.flags = s.flags.setCompare c) ∨
      ∃ ra b, i = .mrtest ra ∧ t.flags = s.flags.setPrime b := by
  cases h with
  | error => exact .inl rfl
  | compared ra rb hi => exact .inr (.inl ⟨ra, rb, _, hi, rfl⟩)
  | wrote => exact .inl rfl
  | early ra b hi => exact .inr (.inr ⟨ra, b, hi, rfl⟩)
  | passed ra hi => exact .inr (.inr ⟨ra, true, hi, rfl⟩)
  | answered ra b hi => exact .inr (.inr ⟨ra, b, hi, rfl⟩)
  | waits => exact .inl rfl

/-- The registers stay, or the command completes without an error (R202, R203). -/
theorem Ends.regs_cases {i : Instr} {s t : State} (h : Ends i s t) : t.regs = s.regs ∨ Completed t .noError := by
  cases h with
  | wrote => exact .inr (State.finish_completed _)
  | error | compared | early | passed | answered | waits => exact .inl rfl

/-- A command completes with DONE 1, or is still running with STATUS as it was (R202, R203, R243). -/
theorem Ends.done_or_waiting {i : Instr} {s t : State} (h : Ends i s t) :
    (t.status.busy = false ∧ t.status.done = true) ∨ t.status = s.status := by
  cases h with
  | waits => exact .inr rfl
  | error | compared | wrote | early | passed | answered => exact .inl ⟨rfl, rfl⟩

/-- MRTEST takes a first part of the words offered (R163). -/
theorem mrState_stream (ra : RegNum) (s : State) :
    ∃ taken, s.rngQueue = taken ++ (mrState ra s).rngQueue ∧ (mrState ra s).rngpos = s.rngpos + taken.length := by
  obtain ⟨taken, hq, hused⟩ := runRounds_taken s.roundsL.toNat s.rngQueue (mrWork ra s)
  exact ⟨taken, hq, congrArg (s.rngpos + ·) hused⟩

/-- A command takes no word, or it is a MRTEST and takes a first part of those offered (R36, R163). -/
theorem Ends.stream_cases {i : Instr} {s t : State} (h : Ends i s t) :
    SameStream s t ∨ (∃ ra, i = .mrtest ra) ∧
      ∃ taken, s.rngQueue = taken ++ t.rngQueue ∧ t.rngpos = s.rngpos + taken.length := by
  cases h with
  | answered ra _ hi => exact .inr ⟨⟨ra, hi⟩, mrState_stream ra s⟩
  | waits ra hi => exact .inr ⟨⟨ra, hi⟩, mrState_stream ra s⟩
  | error | compared | wrote | early | passed => exact .inl ⟨rfl, rfl⟩

/-- Settles O37, by what each end of a command does to FLAGS. -/
theorem flagsHaveOneWriterEach : Obligations.FlagsHaveOneWriterEach := by
  intro i s t he
  rcases (ends_of_exec he).flags_cases with hf | ⟨ra, rb, c, hi, hf⟩ | ⟨ra, b, hi, hf⟩ <;> rw [hf]
  · exact ⟨fun _ => ⟨rfl, rfl, rfl⟩, fun _ => rfl⟩
  · exact ⟨fun hne => absurd hi (hne ra rb), fun _ => rfl⟩
  · exact ⟨fun _ => ⟨rfl, rfl, rfl⟩, fun hne => absurd hi (hne ra)⟩

/-- Settles O38, by what each end of a command does to the stream. -/
theorem onlyMrtestTakesWords : Obligations.OnlyMrtestTakesWords := by
  intro i s t he
  rcases (ends_of_exec he).stream_cases with hs | ⟨⟨ra, hi⟩, taken, hq, hp⟩
  · exact ⟨fun _ => hs, by rw [hs.rngpos, hs.rngQueue], [], by rw [hs.rngQueue, List.nil_append]⟩
  · refine ⟨fun hne => absurd hi (hne ra), ?_, taken, hq⟩
    rw [hp, hq, List.length_append, Nat.add_assoc]

/-! ### Two states that differ in registers and ROUNDS alone

O39 and O40 are one statement: commands read registers by their values, never ROUNDS, and so keep every relation of the
register contents that respects values. -/

/-- `t` is `s` but for ROUNDS, and but for registers whose contents are related by `E`. -/
structure Alike (E : BigReg → BigReg → Prop) (s t : State) : Prop where
  rest : t = { s with regs := t.regs, rounds := t.rounds }
  regs : ∀ k, E (s.reg k) (t.reg k)

section
variable {E : BigReg → BigReg → Prop} {s t : State}

theorem Alike.cfg (h : Alike E s t) : t.cfg = s.cfg := by rw [h.rest]
theorem Alike.status (h : Alike E s t) : t.status = s.status := by rw [h.rest]
theorem Alike.flags (h : Alike E s t) : t.flags = s.flags := by rw [h.rest]
theorem Alike.roundsL (h : Alike E s t) : t.roundsL = s.roundsL := by rw [h.rest]
theorem Alike.work (h : Alike E s t) : t.work = s.work := by rw [h.rest]
theorem Alike.rngpos (h : Alike E s t) : t.rngpos = s.rngpos := by rw [h.rest]
theorem Alike.rngQueue (h : Alike E s t) : t.rngQueue = s.rngQueue := by rw [h.rest]

theorem Alike.width (h : Alike E s t) : t.width = s.width := by rw [State.width_eq, h.cfg, State.width_eq]

theorem Alike.finish (h : Alike E s t) : Alike E s.finish t.finish := ⟨congrArg State.finish h.rest, h.regs⟩

theorem Alike.raise (h : Alike E s t) (e : ErrCode) : Alike E (s.raise e) (t.raise e) :=
  ⟨congrArg (State.raise · e) h.rest, h.regs⟩

theorem Alike.withWork (h : Alike E s t) (w : Work) : Alike E (s.withWork w) (t.withWork w) :=
  ⟨congrArg (State.withWork · w) h.rest, h.regs⟩

theorem Alike.setCompare (h : Alike E s t) (c : Cmp) : Alike E (s.setCompare c) (t.setCompare c) :=
  ⟨congrArg (State.setCompare · c) h.rest, h.regs⟩

theorem Alike.answerPrime (h : Alike E s t) (b : Bool) : Alike E (s.answerPrime b) (t.answerPrime b) :=
  ⟨congrArg (State.answerPrime · b) h.rest, h.regs⟩

theorem Alike.writeX (hE : ∀ r, E r r) (h : Alike E s t) (k : RegNum) (v : Int) :
    Alike E (s.writeX k v) (t.writeX k v) := by
  refine ⟨congrArg (State.writeX · k v) h.rest, fun j => ?_⟩
  rw [State.reg_writeX, State.reg_writeX]
  split
  · exact hE _
  · exact h.regs j

variable (hv : ∀ a b, E a b → b.value = a.value)
include hv

theorem Alike.x (h : Alike E s t) (k : RegNum) : t.x k = s.x k := hv _ _ (h.regs k)

theorem Alike.xNat (h : Alike E s t) (k : RegNum) : t.xNat k = s.xNat k := congrArg Int.toNat (h.x hv k)

theorem Alike.compareRegs (h : Alike E s t) (ra rb : RegNum) :
    compareRegs (t.reg ra) (t.reg rb) = compareRegs (s.reg ra) (s.reg rb) := by
  rw [compareRegs_eq, compareRegs_eq, hv _ _ (h.regs ra), hv _ _ (h.regs rb)]

theorem Alike.modexpWork (h : Alike E s t) (ra rb rc : RegNum) : modexpWork ra rb rc t = modexpWork ra rb rc s := by
  rw [Machine.modexpWork, h.xNat hv, h.xNat hv, h.xNat hv, h.work, Machine.modexpWork]

theorem Alike.egcdWork (h : Alike E s t) (ra rb : RegNum) : egcdWork ra rb t = egcdWork ra rb s := by
  rw [Machine.egcdWork, h.xNat hv, h.xNat hv, h.work, Machine.egcdWork]

theorem Alike.mrWork (h : Alike E s t) (ra : RegNum) : mrWork ra t = mrWork ra s := by
  rw [Machine.mrWork, h.xNat hv, h.work, Machine.mrWork]

theorem Alike.mrRun (h : Alike E s t) (ra : RegNum) : mrRun ra t = mrRun ra s := by
  rw [Machine.mrRun, h.mrWork hv, h.roundsL, h.rngQueue, Machine.mrRun]

theorem Alike.mrState (h : Alike E s t) (ra : RegNum) : Alike E (mrState ra s) (mrState ra t) := by
  refine ⟨?_, h.regs⟩
  rw [Machine.mrState, h.mrRun hv, h.rngpos]
  exact congrArg (fun u : State => { u with
    work := (Machine.mrRun ra s).work, rngQueue := (Machine.mrRun ra s).rest
    rngpos := s.rngpos + (Machine.mrRun ra s).used }) h.rest

end

/-- Both outcomes are next states, and these are alike. -/
def AlikeNext (E : BigReg → BigReg → Prop) (o o' : Host.Outcome State Fault Refusal) : Prop :=
  ∃ s t, o = .next s ∧ o' = .next t ∧ Alike E s t

/-- A command on two states that are alike gives two states that are alike, where `E` is reflexive and keeps the value. -/
theorem exec_alike {E : BigReg → BigReg → Prop} (hE : ∀ r, E r r) (hv : ∀ a b, E a b → b.value = a.value)
    (i : Instr) {s t : State} (h : Alike E s t) : AlikeNext E (exec i s) (exec i t) := by
  have hx := h.x hv
  cases i with
  | cmp ra rb => exact ⟨_, _, rfl, h.compareRegs hv ra rb ▸ rfl, (h.setCompare _).finish⟩
  | mul rd ra rb =>
    rcases lt_or_ge (s.x ra * s.x rb).natAbs (2 ^ s.width) with hp | hp
    · refine ⟨_, _, execMul_fits rd hp, execMul_fits rd (by rwa [hx, hx, h.width]), ?_⟩
      rw [hx, hx]
      exact (h.writeX hE rd _).finish
    · exact ⟨_, _, execMul_overflow rd hp, execMul_overflow rd (by rwa [hx, hx, h.width]), h.raise _⟩
  | modexp rd ra rb rc =>
    rcases le_or_gt (s.x rc) 0 with hm | hm
    · exact ⟨_, _, execModexp_modulus rd ra rb hm, execModexp_modulus rd ra rb (by rwa [hx]), h.raise _⟩
    · by_cases hr : s.x ra < 0 ∨ s.x rb < 0
      · exact ⟨_, _, execModexp_range rd hm hr, execModexp_range rd (by rwa [hx]) (by rwa [hx, hx]), h.raise _⟩
      · obtain ⟨ha, hb⟩ := not_or.mp hr
        refine ⟨_, _, execModexp_ok rd hm (not_lt.mp ha) (not_lt.mp hb),
          execModexp_ok rd (by rwa [hx]) (by rwa [hx, ← not_lt]) (by rwa [hx, ← not_lt]), ?_⟩
        rw [h.modexpWork hv]
        exact ((h.withWork _).writeX hE rd _).finish
  | egcd rg rx ry ra rb =>
    cases hw : (Instr.egcd rg rx ry ra rb).wellFormed with
    | false => exact ⟨_, _, execEgcd_illegal ra rb s hw, execEgcd_illegal ra rb t hw, h.raise _⟩
    | true =>
      by_cases hr : s.x ra < 0 ∨ s.x rb < 0
      · exact ⟨_, _, execEgcd_range hw hr, execEgcd_range hw (by rwa [hx, hx]), h.raise _⟩
      · obtain ⟨ha, hb⟩ := not_or.mp hr
        refine ⟨_, _, execEgcd_ok hw (not_lt.mp ha) (not_lt.mp hb),
          execEgcd_ok hw (by rwa [hx, ← not_lt]) (by rwa [hx, ← not_lt]), ?_⟩
        rw [h.egcdWork hv]
        exact ((((h.withWork _).writeX hE rg _).writeX hE rx _).writeX hE ry _).finish
  | modinv rd ra rb =>
    rcases le_or_gt (s.x rb) 0 with hm | hm
    · exact ⟨_, _, execModinv_modulus rd ra hm, execModinv_modulus rd ra (by rwa [hx]), h.raise _⟩
    · rcases lt_or_ge (s.x ra) 0 with hr | hr
      · exact ⟨_, _, execModinv_range rd hm hr, execModinv_range rd (by rwa [hx]) (by rwa [hx]), h.raise _⟩
      · by_cases hg : Int.gcd (s.x ra) (s.x rb) = 1
        · refine ⟨_, _, execModinv_ok rd hm hr hg,
            execModinv_ok rd (by rwa [hx]) (by rwa [hx]) (by rwa [hx, hx]), ?_⟩
          rw [h.egcdWork hv, hx]
          exact ((h.withWork _).writeX hE rd _).finish
        · refine ⟨_, _, execModinv_notInvertible rd hm hr hg,
            execModinv_notInvertible rd (by rwa [hx]) (by rwa [hx]) (by rwa [hx, hx]), ?_⟩
          rw [h.egcdWork hv]
          exact (h.withWork _).raise _
  | mrtest ra =>
    by_cases he : s.x ra < 2 ∨ s.x ra = 2 ∨ s.x ra % 2 = 0
    · refine ⟨_, _, execMrtest_early he, execMrtest_early (by rwa [hx]), ?_⟩
      rw [hx]
      exact h.answerPrime _
    · have h3 : 3 ≤ s.x ra := by omega
      have hodd : s.x ra % 2 = 1 := by omega
      have h3' : 3 ≤ t.x ra := by rwa [hx]
      have hodd' : t.x ra % 2 = 1 := by rwa [hx]
      rcases le_or_gt s.roundsL.toNat (mrWork ra s).mr.i with hi | hi
      · refine ⟨_, _, execMrtest_passed h3 hodd hi,
          execMrtest_passed h3' hodd' (by rwa [h.mrWork hv, h.roundsL]), ?_⟩
        rw [h.mrWork hv]
        exact (h.withWork _).answerPrime _
      · have hi' : (mrWork ra t).mr.i < t.roundsL.toNat := by rwa [h.mrWork hv, h.roundsL]
        cases ha : (mrRun ra s).answer with
        | some b =>
          exact ⟨_, _, execMrtest_answer h3 hodd hi ha, execMrtest_answer h3' hodd' hi' (by rwa [h.mrRun hv]),
            (h.mrState hv ra).answerPrime b⟩
        | none =>
          exact ⟨_, _, execMrtest_wait h3 hodd hi ha, execMrtest_wait h3' hodd' hi' (by rwa [h.mrRun hv]),
            h.mrState hv ra⟩

/-- What `exec_alike` says of two commands whose next states are known. -/
theorem alike_of_exec {E : BigReg → BigReg → Prop} (hE : ∀ r, E r r) (hv : ∀ a b, E a b → b.value = a.value)
    {i : Instr} {s t s' t' : State} (h : Alike E s t) (hs : exec i s = .next s') (ht : exec i t = .next t') :
    Alike E s' t' := by
  obtain ⟨u, v, hu, hv, huv⟩ := exec_alike hE hv i h
  rw [hs] at hu
  rw [ht] at hv
  cases hu
  cases hv
  exact huv

/-- Two register contents with the same value: equal, but for the sign bit of a zero (R23). -/
def SameValue (a b : BigReg) : Prop := b.value = a.value

theorem value_of_mag_zero {r : BigReg} (h : r.mag = 0) : r.value = 0 := by
  rw [← Int.natAbs_eq_zero, BigReg.natAbs_value, h]

/-- The sign bit of a zero does not matter to its value (R21, R23). -/
theorem alike_setReg_zero {s : State} {k : RegNum} (b : Bool) (h : (s.reg k).mag = 0) :
    Alike SameValue s (s.setReg k { sign := b, mag := 0 }) := by
  refine ⟨rfl, fun j => ?_⟩
  unfold SameValue
  rw [State.reg_setReg]
  split
  · next hj => rw [hj, value_of_mag_zero h, value_of_mag_zero rfl]
  · rfl

/-- Settles O39: commands read registers by their values. -/
theorem signOfZeroNeverMatters : Obligations.SignOfZeroNeverMatters := by
  intro i s t t' k b hzero hs ht
  have h : Alike SameValue t t' :=
    alike_of_exec (E := SameValue) (fun _ => rfl) (fun _ _ hab => hab) (alike_setReg_zero b hzero) hs ht
  exact ⟨h.status, h.flags, h.rngpos, h.rngQueue, h.work, h.x (fun _ _ hab => hab)⟩

/-- Two states with the same registers that are alike differ in ROUNDS alone. -/
theorem Alike.eq_setRounds {s t : State} (h : Alike Eq s t) : t = { s with rounds := t.rounds } := by
  have hregs : t.regs = s.regs := Vector.ext fun k hk => (h.regs ⟨k, hk⟩).symm
  rw [← hregs]
  exact h.rest

/-- Settles O40: no command reads ROUNDS, and none writes it. -/
theorem roundsWriteDoesNotReachTheRunningCommand : Obligations.RoundsWriteDoesNotReachTheRunningCommand := by
  intro i s t v hs
  obtain ⟨t', ht, hends⟩ := exec_ends i { s with rounds := v }
  have hstart : Alike Eq s { s with rounds := v } := ⟨rfl, fun _ => rfl⟩
  have h := (alike_of_exec (fun _ => rfl) (fun _ _ hab => congrArg BigReg.value hab.symm) hstart hs ht).eq_setRounds
  rw [hends.sameControl.rounds] at h
  rw [ht, h]

end Sys2Proof.Machine

/-! PROOFS. What the host reads and writes at each mapped address (20_memory.md R51 to R56), and reset
(10_state.md R38). -/

namespace Sys2Proof.Machine

/-! ### A read answered OK -/

/-- The data of a read does not depend on the event list. -/
theorem State.readTarget_tail (s : State) (rest : List Event) (t : Target) :
    (s.tail rest).readTarget t = s.readTarget t := by
  cases t <;> rfl

theorem readGives_of_memRead {s : State} {addr : Addr} {t : Target} {P : Word → Prop} (hP : P (s.readTarget t))
    (h : ∀ rest, (s.tail rest).memRead addr 4 = (s.tail rest).answer (.read .ok ((s.tail rest).readTarget t))) :
    ReadGives s addr P := by
  intro rest hev
  refine ⟨_, hP, ?_⟩
  rw [step_event hev, ← s.readTarget_tail rest]
  exact congrArg Host.Outcome.next (h rest)

/-- An aligned address of a control register is read at any time (R55). -/
theorem readGives_control {s : State} {addr : Addr} {t : Target} {P : Word → Prop} (ha : addr.toNat % 4 = 0)
    (ht : mapTarget s.cfg addr = t) (hu : t ≠ .unmapped) (ho : t.readOwned = false) (hP : P (s.readTarget t)) :
    ReadGives s addr P :=
  readGives_of_memRead hP fun _ => memRead_control ha ht hu ho

/-- A limb of the block is read while idle (R52, R55). -/
theorem readGives_limb {s : State} (hc : s.cfg.legal = true) (hb : s.status.busy = false) (k : RegNum) {i : Nat}
    (hi : i < s.cfg.nlimbs) {P : Word → Prop} (hP : P ((s.reg k).limb i)) : ReadGives s (limbAddr k i) P :=
  readGives_of_memRead (t := .limb k i) hP fun _ =>
    memRead_idle (limbAddr_aligned k (hi.trans_le (nlimbs_le hc))) (mapTarget_limbAddr hc k hi) (by simp) hb

/-! ### The words of the control registers (10_state.md R27 to R32) -/

theorem toNat_statusWord (t : Status) :
    t.word.toNat = t.busy.toNat + 2 * t.done.toNat + 4 * t.accErr.toNat + 2 ^ 8 * t.err.code := by
  have hcode : t.err.code ≤ 5 := by cases t.err <;> decide
  have := t.busy.toNat_le
  have := t.done.toNat_le
  have := t.accErr.toNat_le
  exact Nat.mod_eq_of_lt (by omega)

theorem toNat_ctrlWord (ie : Bool) : (ctrlWord ie).toNat = ie.toNat := by
  have := ie.toNat_le
  exact Nat.mod_eq_of_lt (by omega)

theorem toNat_flagsWord (f : Flags) :
    f.word.toNat = f.eq.toNat + 2 * f.lt.toNat + 4 * f.gt.toNat + 8 * f.prime.toNat := by
  have := f.eq.toNat_le
  have := f.lt.toNat_le
  have := f.gt.toNat_le
  have := f.prime.toNat_le
  exact Nat.mod_eq_of_lt (by omega)

theorem toNat_signWord_lt (s : State) : s.signWord.toNat < 2 ^ 16 := by
  refine lt_of_le_of_lt (Nat.mod_le _ _) ?_
  exact (signBits_lt s.regs.toList).trans_eq (by simp)

theorem toNat_paramWord {c : Config} (hc : c.legal = true) :
    (paramWord c).toNat = 0x01 * 2 ^ 24 + 0x10 * 2 ^ 16 + c.nlimbs := by
  have := nlimbs_le hc
  rw [paramWord, BitVec.toNat_ofNat, Config.version, Config.nregs]
  omega

/-- Settles O42, address by address. -/
theorem readsGiveTheRegisters : Obligations.ReadsGiveTheRegisters := by
  intro s hc
  refine ⟨?_, ?_, ?_, ?_, ?_, ?_, ?_, fun hb k i hi => ?_⟩
  · exact readGives_control rfl (mapTarget_cmd _) (by simp) rfl rfl
  · exact readGives_control rfl (mapTarget_status _) (by simp) rfl (toNat_statusWord _)
  · exact readGives_control rfl (mapTarget_ctrl _) (by simp) rfl (toNat_ctrlWord _)
  · exact readGives_control rfl (mapTarget_flags _) (by simp) rfl (toNat_flagsWord _)
  · exact readGives_control rfl (mapTarget_rounds _) (by simp) rfl rfl
  · exact readGives_control rfl (mapTarget_sign _) (by simp) rfl ⟨toNat_signWord_lt s, s.signWord_bit⟩
  · exact readGives_control rfl (mapTarget_param _) (by simp) rfl (toNat_paramWord hc)
  · exact readGives_limb hc hb k hi ((s.reg k).toNat_limb i)

/-! ### A write answered OK -/

/-- A write does the same whatever stands in the event list, and leaves the rest of the list. -/
theorem State.writeTarget_tail (s : State) (rest : List Event) (v : Word) (t : Target) (a : Answer) :
    ((s.tail rest).writeTarget v t).answer a = { s.writeTarget v t with events := rest, bus := some a } := by
  cases t <;> rfl

theorem writeGives_of_memWrite {s : State} {addr : Addr} {v : Word} (t : Target)
    (h : ∀ rest, (s.tail rest).memWrite addr 4 v = ((s.tail rest).writeTarget v t).answer (.write .ok)) :
    WriteGives s addr v (s.writeTarget v t) := by
  intro rest hev
  rw [step_event hev, ← s.writeTarget_tail]
  exact congrArg Host.Outcome.next (h rest)

/-- An aligned address of a control register that the engine does not own is written at any time (R56). -/
theorem writeGives_control {s : State} {addr : Addr} {t : Target} (v : Word) (ha : addr.toNat % 4 = 0)
    (ht : mapTarget s.cfg addr = t) (hu : t ≠ .unmapped) (ho : t.writeOwned = false) :
    WriteGives s addr v (s.writeTarget v t) :=
  writeGives_of_memWrite t fun _ => memWrite_control v ha ht hu ho

/-- Every mapped aligned address is written while idle (R56). -/
theorem writeGives_idle {s : State} {addr : Addr} {t : Target} (v : Word) (ha : addr.toNat % 4 = 0)
    (ht : mapTarget s.cfg addr = t) (hu : t ≠ .unmapped) (hb : s.status.busy = false) :
    WriteGives s addr v (s.writeTarget v t) :=
  writeGives_of_memWrite t fun _ => memWrite_idle v ha ht hu hb

/-- A written 1 clears its bit (R27). -/
theorem and_not_eq_ite (a b : Bool) : (a && !b) = if b = true then false else a := by
  cases b <;> simp

/-- Settles O43, address by address. -/
theorem controlWritesAtAnyTime : Obligations.ControlWritesAtAnyTime := by
  intro s v
  refine ⟨?_, ?_, ?_, ?_, ?_⟩
  · rw [← and_not_eq_ite, ← and_not_eq_ite]
    exact writeGives_control v rfl (mapTarget_status _) (by simp) rfl
  · exact writeGives_control v rfl (mapTarget_ctrl _) (by simp) rfl
  · exact writeGives_control v rfl (mapTarget_flags _) (by simp) rfl
  · exact writeGives_control v rfl (mapTarget_rounds _) (by simp) rfl
  · exact writeGives_control v rfl (mapTarget_param _) (by simp) rfl

/-- Settles O44, by the read-after-write laws of limbs. -/
theorem limbWriteReplacesOneLimb : Obligations.LimbWriteReplacesOneLimb := by
  intro s k i v hc hb hi
  refine ⟨(s.reg k).setLimb i v, ?_, BigReg.sign_setLimb _ _ _, ?_, fun j hj => ?_, BigReg.setLimb_lt hi v⟩
  · exact writeGives_idle v (limbAddr_aligned k (hi.trans_le (nlimbs_le hc))) (mapTarget_limbAddr hc k hi) (by simp) hb
  · rw [← BigReg.toNat_limb, BigReg.limb_setLimb_same]
  · rw [← BigReg.toNat_limb, BigReg.limb_setLimb_ne _ hj, BigReg.toNat_limb]

/-- Settles O45: the state after the write is `s.setSigns v`. -/
theorem signWriteSetsSixteenSigns : Obligations.SignWriteSetsSixteenSigns := by
  intro s v hb
  exact ⟨s.setSigns v, writeGives_idle v rfl (mapTarget_sign _) (by simp) hb, s.reg_setSigns v,
    rfl, rfl, rfl, rfl, rfl, rfl, rfl, rfl, rfl, rfl⟩

/-- Settles O46: the state after the write is `s.accept v`. -/
theorem cmdWriteIsAccepted : Obligations.CmdWriteIsAccepted := by
  intro s v hb
  exact ⟨s.accept v, writeGives_idle v rfl (mapTarget_cmd _) (by simp) hb, rfl, rfl, rfl, Bool.and_false _,
    ⟨rfl, rfl, rfl⟩, rfl, rfl, rfl, rfl, rfl, rfl, rfl⟩

/-! ### Reset -/

/-- Settles O49: the state after the event is that of `applyReset`. -/
theorem resetEventClearsAllButTheStream : Obligations.ResetEventClearsAllButTheStream := by
  intro s rest hev
  exact ⟨(s.tail rest).applyReset, step_event hev, reg_replicate _ _ rfl, rfl, rfl, rfl, rfl, rfl, rfl, rfl, rfl,
    rfl, rfl⟩

/-- Settles O48, field by field. -/
theorem resetStateValues : Obligations.ResetStateValues :=
  ⟨reg_replicate _ _ rfl, rfl, rfl, rfl, rfl, rfl, rfl, rfl, rfl⟩

end Sys2Proof.Machine

/-! PROOFS. The step as the engine's turn on the latched command (10_state.md R34, R37), and what a step can change
(R22, R27, R29, R36, R39). -/

namespace Sys2Proof.Machine

/-! ### The engine's turn -/

/-- Settles O5: the engine's turn of a busy block with a legal word. -/
theorem stepRunsTheDecodedCommand : Obligations.StepRunsTheDecodedCommand := by
  intro s i hturn hb hd
  rw [step_engine hturn]
  exact engineEvent_busy hb hd

/-- Decoding the word of a well-formed command gives the command back (R84, R91). -/
theorem decode_encode {i : Instr} (h : i.wellFormed = true) : decode (encode i) = .ok i := by
  cases i with
  | cmp | mul | modexp | modinv | mrtest =>
    simp [decode, encode, opcodeField_assemble, regField_assemble, lowBits_assemble]
  | egcd rg rx ry ra rb =>
    obtain ⟨⟨hgx, hgy⟩, hxy⟩ : (rg ≠ rx ∧ rg ≠ ry) ∧ rx ≠ ry := by simpa [Instr.wellFormed] using h
    simp [decode, encode, opcodeField_assemble, regField_assemble, lowBits_assemble, hgx, hgy, hxy]

/-- Settles O6: the placed word is accepted, and the engine's event is the first of the list. -/
theorem placedCommandRunsNext : Obligations.PlacedCommandRunsNext := by
  intro s i hi
  have hword : s.withFetchWord 32 (encode i).toNat = s.loadCommand (encode i) := by
    rw [State.withFetchWord, Nat.mod_eq_of_lt (encode i).isLt, BitVec.ofNat_toNat, BitVec.setWidth_eq]
  rw [hword, step_event (rest := s.events) rfl]
  exact engineEvent_busy (s := s.accept (encode i)) rfl (decode_encode hi)

/-! ### What a step can change -/

/-- Settles O52, by what the engine's turn and a host write do to the registers. -/
theorem registersChangeOnlyByTheirWriters : Obligations.RegistersChangeOnlyByTheirWriters := by
  intro s t k hstep hne
  have hchange : t.regs ≠ s.regs := fun he => hne (State.reg_congr he k)
  cases steps_of_step hstep with
  | idle | illegal | offer => exact absurd rfl hchange
  | command i t hturn hb _ hends =>
    obtain ⟨hbusy, hdone, herr⟩ := hends.regs_cases.resolve_left hchange
    exact .inl ⟨hturn, hb, hbusy, hdone, herr⟩
  | read addr n rest =>
    obtain ⟨-, hregs, -⟩ := memRead_frame (s.tail rest) addr n
    exact absurd hregs hchange
  | write addr n v rest hev =>
    obtain ⟨rfl, hb, ha⟩ := (memWrite_writes (s.tail rest) addr n v).regs_cases.resolve_left hchange
    exact .inr (.inl ⟨hb, addr, v, rest, hev, ha⟩)
  | reset rest hev => exact .inr (.inr ⟨rest, hev⟩)

/-- Settles O53: no host access writes FLAGS, and a command that waits leaves them. -/
theorem flagsChangeOnlyByCmpAndMrtest : Obligations.FlagsChangeOnlyByCmpAndMrtest := by
  intro s t hstep hne
  cases steps_of_step hstep with
  | idle | illegal | offer => exact absurd rfl hne
  | command i t hturn hb hd hends =>
    have hbusy : t.status.busy = false := by
      by_contra hrun
      obtain ⟨-, -, hflags⟩ := hends.waiting (by simpa using hrun)
      exact hne hflags
    refine .inl ⟨hturn, hb, hbusy, ?_⟩
    rcases hends.flags_cases with hf | ⟨ra, rb, -, rfl, -⟩ | ⟨ra, -, rfl, -⟩
    · exact absurd hf hne
    · exact .inl ⟨ra, rb, hd⟩
    · exact .inr ⟨ra, hd⟩
  | read addr n rest =>
    obtain ⟨-, -, hflags, -⟩ := memRead_frame (s.tail rest) addr n
    exact absurd hflags hne
  | write addr n v rest =>
    obtain ⟨-, hflags, -⟩ := (memWrite_writes (s.tail rest) addr n v).frame
    exact absurd hflags hne
  | reset rest hev => exact .inr ⟨rest, hev⟩

/-- BUSY stays, or a command is accepted, or the engine completes one, or the block is reset (R26, R27, R233). -/
theorem Steps.busy_cases {s t : State} (h : Steps s t) :
    t.status.busy = s.status.busy ∨
    (s.status.busy = false ∧ ∃ v rest, s.events = .memWrite 0x00000#17 4 v :: rest ∧ t.cmd = v) ∨
    (s.status.busy = true ∧ EngineTurn s ∧ t.status.done = true) ∨
    (t.status.busy = false ∧ ∃ rest, s.events = .reset :: rest) := by
  cases h with
  | idle | offer => exact .inl rfl
  | illegal r hturn hb => exact .inr (.inr (.inl ⟨hb, hturn, rfl⟩))
  | command i t hturn hb _ hends =>
    rcases hends.done_or_waiting with ⟨-, hdone⟩ | hstatus
    · exact .inr (.inr (.inl ⟨hb, hturn, hdone⟩))
    · exact .inl (congrArg Status.busy hstatus)
  | read addr n rest =>
    obtain ⟨-, -, -, hbusy, -⟩ := memRead_frame (s.tail rest) addr n
    exact .inl hbusy
  | write addr n v rest hev =>
    rcases (memWrite_writes (s.tail rest) addr n v).busy_cases with hbusy | ⟨rfl, hb, rfl, hcmd⟩
    · exact .inl hbusy
    · exact .inr (.inl ⟨hb, v, rest, hev, hcmd⟩)
  | reset rest hev => exact .inr (.inr (.inr ⟨rfl, rest, hev⟩))

/-- Settles O54, by the four ways BUSY can go. -/
theorem busyChangesOnlyByAcceptanceCompletionReset : Obligations.BusyChangesOnlyByAcceptanceCompletionReset := by
  intro s t hstep
  rcases (steps_of_step hstep).busy_cases with hsame | ⟨hb, haccept⟩ | ⟨hb, hdone⟩ | ⟨hb, hreset⟩
  · exact ⟨fun hold hnew => by simp [hsame, hold] at hnew, fun hold hnew => by simp [hsame, hold] at hnew⟩
  · exact ⟨fun _ _ => haccept, by simp [hb]⟩
  · exact ⟨by simp [hb], fun _ _ => .inl hdone⟩
  · exact ⟨by simp [hb], fun _ _ => .inr hreset⟩

/-- ACCERR stays, or is set with an answer ERR, or is acknowledged at STATUS, or is reset (R27, R57, R245). -/
theorem Steps.accErr_cases {s t : State} (h : Steps s t) :
    t.status.accErr = s.status.accErr ∨
    (t.status.accErr = true ∧ (t.bus = some (.read .err 0#32) ∨ t.bus = some (.write .err))) ∨
    (∃ v rest, s.events = .memWrite 0x00004#17 4 v :: rest ∧
      t.status.accErr = (s.status.accErr && !v.getLsbD 2)) ∨
    (t.status.accErr = false ∧ ∃ rest, s.events = .reset :: rest) := by
  cases h with
  | idle | illegal | offer => exact .inl rfl
  | command i t _ _ _ hends => exact .inl hends.sameControl.accErr
  | read addr n rest =>
    rcases memRead_accErr (s.tail rest) addr n with hsame | ⟨hset, hbus⟩
    · exact .inl hsame
    · exact .inr (.inl ⟨hset, .inl hbus⟩)
  | write addr n v rest hev =>
    rcases (memWrite_writes (s.tail rest) addr n v).accErr_cases with hsame | ⟨hset, hbus⟩ | ⟨rfl, rfl, hack⟩
    · exact .inl hsame
    · exact .inr (.inl ⟨hset, .inr hbus⟩)
    · exact .inr (.inr (.inl ⟨v, rest, hev, hack⟩))
  | reset rest hev => exact .inr (.inr (.inr ⟨rfl, rest, hev⟩))

/-- Settles O55, by the four ways ACCERR can go. -/
theorem accErrIsSticky : Obligations.AccErrIsSticky := by
  intro s t hstep
  rcases (steps_of_step hstep).accErr_cases with hsame | ⟨hset, hbus⟩ | ⟨v, rest, hev, hack⟩ | ⟨hclear, hreset⟩
  · exact ⟨fun hold hnew => by simp [hsame, hold] at hnew, fun hold hnew => by simp [hsame, hold] at hnew⟩
  · exact ⟨by simp [hset], fun _ _ => hbus⟩
  · refine ⟨fun hold hnew => .inl ⟨v, rest, hev, ?_⟩, fun hold hnew => ?_⟩
    · simpa [hold, hnew] using hack
    · simp [hold, hnew] at hack
  · exact ⟨fun _ _ => .inr hreset, by simp [hclear]⟩

/-- The words stay, or the source offers one more, or a running MRTEST takes a first part (R36, R213, R232). -/
theorem Steps.stream_cases {s t : State} (h : Steps s t) :
    SameStream s t ∨
    (∃ w rest, s.events = .rngOffer w :: rest ∧ t.rngQueue = s.rngQueue ++ [w] ∧ t.rngpos = s.rngpos) ∨
    ((EngineTurn s ∧ s.status.busy = true ∧ ∃ ra, decode s.cmd = .ok (.mrtest ra)) ∧
      ∃ taken, s.rngQueue = taken ++ t.rngQueue ∧ t.rngpos = s.rngpos + taken.length) := by
  cases h with
  | idle | illegal | reset => exact .inl ⟨rfl, rfl⟩
  | command i t hturn hb hd hends =>
    rcases hends.stream_cases with ⟨hpos, hqueue⟩ | ⟨⟨ra, rfl⟩, htaken⟩
    · exact .inl ⟨hpos, hqueue⟩
    · exact .inr (.inr ⟨⟨hturn, hb, ra, hd⟩, htaken⟩)
  | read addr n rest =>
    obtain ⟨-, -, -, -, hpos, hqueue⟩ := memRead_frame (s.tail rest) addr n
    exact .inl ⟨hpos, hqueue⟩
  | write addr n v rest =>
    obtain ⟨-, -, hpos, hqueue⟩ := (memWrite_writes (s.tail rest) addr n v).frame
    exact .inl ⟨hpos, hqueue⟩
  | offer w rest hev => exact .inr (.inl ⟨w, rest, hev, rfl, rfl⟩)

/-- No step changes the parameter (R39). -/
theorem Steps.cfg_eq {s t : State} (h : Steps s t) : t.cfg = s.cfg := by
  cases h with
  | idle | illegal | offer | reset => rfl
  | command i t _ _ _ hends => exact hends.sameControl.cfg
  | read addr n rest => exact (memRead_frame (s.tail rest) addr n).1
  | write addr n v rest => exact (memWrite_writes (s.tail rest) addr n v).frame.1

/-- Settles O57, by the three ways the stream can go. -/
theorem streamOnlyGoesForward : Obligations.StreamOnlyGoesForward := by
  intro s t hstep
  have h := steps_of_step hstep
  refine ⟨h.cfg_eq, ?_⟩
  rcases h.stream_cases with ⟨hpos, hqueue⟩ | ⟨w, rest, hev, hqueue, hpos⟩ | ⟨hrun, taken, hqueue, hpos⟩
  · exact ⟨hpos.ge, fun hne => absurd hpos hne, .inr ⟨[], hqueue.symm, hpos⟩⟩
  · exact ⟨hpos.ge, fun hne => absurd hpos hne, .inl ⟨w, rest, hev, hqueue, hpos⟩⟩
  · exact ⟨hpos ▸ Nat.le_add_right _ _, fun _ => hrun, .inr ⟨taken, hqueue, hpos⟩⟩

end Sys2Proof.Machine

/-! PROOFS. Which host accesses are refused, what they leave of a running command (20_memory.md R57, R58, R60), and
the load and the read of a whole big register on an idle block (30_encoding.md R90). -/

namespace Sys2Proof.Machine

/-! ### SETBIG (R52, R90) -/

/-- The SIGN write of SETBIG puts the sign of `Bk` to `b` and leaves the other fifteen (R32). -/
theorem State.reg_setSigns_withSign (s : State) (k : RegNum) (b : Bool) (j : RegNum) :
    (s.setSigns (withSign s.signWord k b)).reg j = ⟨if j = k then b else (s.reg j).sign, (s.reg j).mag⟩ := by
  rw [State.reg_setSigns, withSign_bit, State.signWord_bit]

/-- The end of SETBIG: with the limbs loaded, SIGN is read and written back with its bit `k` changed. -/
theorem State.setBig_eq {s u : State} {k : RegNum} {v : Int} (hu : s.setLimbs k v s.cfg.nlimbs = u)
    (hb : u.status.busy = false) :
    s.setBig k v = ((u.answer (.read .ok u.signWord)).setSigns
      (withSign u.signWord k (decide (v < 0)))).answer (.write .ok) := by
  simp only [State.setBig, hu, State.rd_sign]
  exact State.wr_sign hb _

/-- SETBIG makes the register what `x[k] <- v` stores (R22), and leaves the other registers and STATUS. -/
theorem State.setBig_spec {s : State} {k : RegNum} {v : Int} (hc : s.cfg.legal = true) (hb : s.status.busy = false)
    (hr : s.regsInRange) (hv : v.natAbs < 2 ^ s.width) :
    (s.setBig k v).reg k = BigReg.ofInt v ∧ SameRegsBut [k] s (s.setBig k v) ∧ (s.setBig k v).status = s.status := by
  obtain ⟨-, hstatus, hother, hlt, hlimbs⟩ := s.setLimbs_spec hc hb hr k v _ le_rfl
  generalize hu : s.setLimbs k v s.cfg.nlimbs = u at hstatus hother hlt hlimbs
  have heq := State.setBig_eq hu (by rw [hstatus]; exact hb)
  have hreg : ∀ j, (s.setBig k v).reg j = ⟨if j = k then decide (v < 0) else (u.reg j).sign, (u.reg j).mag⟩ := by
    rw [heq]
    exact u.reg_setSigns_withSign k _
  have hmag : (u.reg k).mag = v.natAbs := mag_eq_of_limbs s.cfg.nlimbs _ _ hlt hv fun i hi => by
    rw [← BigReg.toNat_limb, hlimbs i hi, limbOf, BitVec.toNat_ofNat]
  refine ⟨?_, fun j hj => ?_, ?_⟩
  · rw [hreg, hmag, if_pos rfl, BigReg.ofInt]
  · have hne : j ≠ k := List.ne_of_not_mem_cons hj
    rw [hreg, if_neg hne, hother j hne]
  · rw [heq]
    exact hstatus

/-! ### GETBIG (R52, R90) -/

/-- GETBIG puts the limbs and the sign bit together, and its reads change no register and no status. -/
theorem State.getBig_spec {s : State} {k : RegNum} (hc : s.cfg.legal = true) (hb : s.status.busy = false)
    (hr : s.regsInRange) :
    (s.getBig k).1 = s.x k ∧ (s.getBig k).2.regs = s.regs ∧ (s.getBig k).2.status = s.status := by
  obtain ⟨hlimbs, hregs, hstatus, -⟩ := s.getLimbs_spec hc hb k _ le_rfl
  have hmag : (s.getLimbs k s.cfg.nlimbs).1 = (s.reg k).mag := hlimbs.trans (Nat.mod_eq_of_lt (hr k))
  simp only [State.getBig, State.rd_sign]
  refine ⟨?_, hregs, hstatus⟩
  rw [State.signWord_bit, hmag, State.reg_congr hregs]
  rfl

/-- Settles O58, by what the limb writes and the SIGN write of SETBIG leave, and what the reads of GETBIG give. -/
theorem setBigLoadsAndGetBigReads : Obligations.SetBigLoadsAndGetBigReads := by
  refine ⟨fun s k v hc hb hr hv => ?_, fun s k => State.getBig_spec⟩
  obtain ⟨hreg, hother, hstatus⟩ := State.setBig_spec (k := k) hc hb hr hv
  exact ⟨(congrArg BigReg.value hreg).trans (BigReg.value_ofInt v), hother, hstatus⟩

/-! ### The refused accesses (R57) -/

/-- Settles O41, by the lists of refused reads and writes. -/
theorem refusedAccessesAreThoseOfTheList : Obligations.RefusedAccessesAreThoseOfTheList := by
  refine ⟨fun s addr n rest hev => ?_, fun s addr n v rest hev => ?_⟩ <;> rw [step_event hev]
  · have hlist := readRefused_iff (s.tail rest) addr n
    refine ⟨fun h => congrArg Host.Outcome.next (memRead_refused (hlist.mpr h)), fun h => ⟨s.readTarget (s.target addr), ?_⟩⟩
    rw [← s.readTarget_tail rest]
    exact congrArg Host.Outcome.next (memRead_ok (Bool.eq_false_iff.mpr (mt hlist.mp h)))
  · have hlist := writeRefused_iff (s.tail rest) addr n
    refine ⟨fun h => congrArg Host.Outcome.next (memWrite_refused v (hlist.mpr h)), fun h => ⟨_, rfl, ?_⟩⟩
    rw [memWrite_ok v (Bool.eq_false_iff.mpr (mt hlist.mp h))]
    rfl

/-! ### A running command (R58) -/

/-- What R58 keeps from the host while a command runs: the registers, CMD, FLAGS, and the engine's own state. -/
structure SameEngine (s t : State) : Prop where
  regs : t.regs = s.regs
  cmd : t.cmd = s.cmd
  flags : t.flags = s.flags
  roundsL : t.roundsL = s.roundsL
  work : t.work = s.work
  busy : t.status.busy = s.status.busy
  stream : SameStream s t

theorem memRead_sameEngine (s : State) (addr : Addr) (n : Nat) : SameEngine s (s.memRead addr n) := by
  obtain ⟨b, a, he, -⟩ := memRead_spec s addr n
  rw [he]
  exact ⟨rfl, rfl, rfl, rfl, rfl, rfl, rfl, rfl⟩

/-- While BUSY the writes of CMD, SIGN and the limbs are refused, and no other write reaches the engine. -/
theorem Writes.sameEngine {s t : State} {addr : Addr} {n : Nat} {v : Word} (h : Writes s addr n v t)
    (hb : s.status.busy = true) : SameEngine s t := by
  cases h with
  | cmd _ hidle | sign _ hidle | limb _ _ _ hidle => simp [hb] at hidle
  | refused | ignored | status | ctrl | rounds => exact ⟨rfl, rfl, rfl, rfl, rfl, rfl, rfl, rfl⟩

/-- While BUSY a read of a limb is not answered OK (R57 (d)). -/
theorem memRead_limb_busy {s : State} {addr : Addr} (hb : s.status.busy = true) (ha : LimbAddress s.cfg addr)
    (n : Nat) : (s.memRead addr n).bus = some (.read .err 0#32) := by
  rw [memRead_refused ((readRefused_iff s addr n).mpr (.inr (.inr (.inr ⟨hb, ha⟩))))]
  rfl

/-- Settles O47: a read and a write each keep what R58 lists, and the limb read is refused. -/
theorem runningCommandIsOutOfReach : Obligations.RunningCommandIsOutOfReach := by
  intro s t e hb hacc ⟨rest, hev⟩ hstep
  rw [step_event hev] at hstep
  have hsame : SameEngine (s.tail rest) t := by
    rcases hacc with ⟨addr, n, rfl⟩ | ⟨addr, n, v, rfl⟩ <;> cases hstep
    · exact memRead_sameEngine (s.tail rest) addr n
    · exact (memWrite_writes (s.tail rest) addr n v).sameEngine hb
  refine ⟨hsame.regs, hsame.cmd, hsame.flags, hsame.roundsL, hsame.work, hsame.busy.trans hb,
    ⟨hsame.stream.rngpos, hsame.stream.rngQueue⟩, ?_⟩
  rintro addr d rfl ha
  cases hstep
  simp [memRead_limb_busy (s := s.tail rest) hb ha]

end Sys2Proof.Machine

/-! PROOFS. The decoder and the encoder agree, the opcode table's match and mask, and what the engine does with an
illegal word (30_encoding.md R84 to R87, R91). -/

namespace Sys2Proof.Machine

/-! ### What the decoder answers (R91) -/

/-- The six ways `Decode` answers a command (R91): the opcode, the must-be-zero bits, the fields that become operands. -/
inductive Decodes (w : Word) : Instr → Prop where
  | cmp : opcodeField w = 0x01 → lowBits w 16 = 0 → Decodes w (.cmp (regField w 20) (regField w 16))
  | mul : opcodeField w = 0x02 → lowBits w 12 = 0 →
      Decodes w (.mul (regField w 20) (regField w 16) (regField w 12))
  | modexp : opcodeField w = 0x03 → lowBits w 8 = 0 →
      Decodes w (.modexp (regField w 20) (regField w 16) (regField w 12) (regField w 8))
  | egcd : opcodeField w = 0x04 → lowBits w 4 = 0 →
      regField w 20 ≠ regField w 16 ∧ regField w 20 ≠ regField w 12 ∧ regField w 16 ≠ regField w 12 →
      Decodes w (.egcd (regField w 20) (regField w 16) (regField w 12) (regField w 8) (regField w 4))
  | modinv : opcodeField w = 0x05 → lowBits w 12 = 0 →
      Decodes w (.modinv (regField w 20) (regField w 16) (regField w 12))
  | mrtest : opcodeField w = 0x06 → lowBits w 20 = 0 → Decodes w (.mrtest (regField w 20))

/-- `Decode` answers a command in these ways and no other (R86). -/
theorem decode_eq_ok_iff {w : Word} {i : Instr} : decode w = .ok i ↔ Decodes w i := by
  constructor
  · intro h
    simp only [decode] at h
    split_ifs at h with h1 z1 h2 z2 h3 z3 h4 z4 hne h5 z5 h6 z6 <;> cases h
    · exact .cmp h1 z1
    · exact .mul h2 z2
    · exact .modexp h3 z3
    · exact .egcd h4 z4 hne
    · exact .modinv h5 z5
    · exact .mrtest h6 z6
  · intro h
    cases h with
    | cmp hop hz | mul hop hz | modexp hop hz | modinv hop hz | mrtest hop hz => simp [decode, hop, hz]
    | egcd hop hz hne => simp [decode, hop, hz, hne]

/-- No bit of a legal word is dropped: the fields that become no operand are 0 (R84, R85). -/
theorem Decodes.encode_eq {w : Word} {i : Instr} (h : Decodes w i) : encode i = w := by
  obtain ⟨low8, low12, low16, low20⟩ := fields_of_lowBits w
  cases h with
  | cmp hop hz =>
    obtain ⟨hz, hf5, hf4, hf3⟩ := low16 hz
    simpa [encode, hop, hf5, hf4, hf3] using assemble_fields w hz
  | mul hop hz | modinv hop hz =>
    obtain ⟨hz, hf5, hf4⟩ := low12 hz
    simpa [encode, hop, hf5, hf4] using assemble_fields w hz
  | modexp hop hz =>
    obtain ⟨hz, hf5⟩ := low8 hz
    simpa [encode, hop, hf5] using assemble_fields w hz
  | egcd hop hz => simpa [encode, hop] using assemble_fields w hz
  | mrtest hop hz =>
    obtain ⟨hz, hf5, hf4, hf3, hf2⟩ := low20 hz
    simpa [encode, hop, hf5, hf4, hf3, hf2] using assemble_fields w hz

/-- The decoder never gives EGCD with two equal destinations (R87). -/
theorem Decodes.wellFormed {w : Word} {i : Instr} (h : Decodes w i) : i.wellFormed = true := by
  cases h with
  | cmp | mul | modexp | modinv | mrtest => rfl
  | egcd _ _ hne => simpa [Instr.wellFormed, and_assoc] using hne

/-! ### The round trips -/

/-- Settles O1, by the fields of an assembled word. -/
theorem decodeOfEncodeIsTheCommand : Obligations.DecodeOfEncodeIsTheCommand :=
  fun _ => decode_encode

/-- Settles O2, by the six ways the decoder answers a command. -/
theorem encodeOfDecodeIsTheWord : Obligations.EncodeOfDecodeIsTheWord := by
  intro w i h
  have hi : Decodes w i := decode_eq_ok_iff.mp h
  exact ⟨hi.encode_eq, hi.wellFormed⟩

/-! ### The opcode table (R84) -/

/-- A legal word has the opcode and the must-be-zero bits of its command's row (R82, R84). -/
theorem Decodes.row {w : Word} {i : Instr} (h : Decodes w i) :
    opcodeField w = Laws.EncodedWord.opcode i ∧ lowBits w (Laws.EncodedWord.zeroBits i) = 0 := by
  cases h with
  | cmp hop hz | mul hop hz | modexp hop hz | egcd hop hz | modinv hop hz | mrtest hop hz => exact ⟨hop, hz⟩

/-- Settles O3: each row's match and mask fix the opcode and the must-be-zero bits, which is what the decoder asks. -/
theorem commandsAreTheMaskedWords : Obligations.CommandsAreTheMaskedWords := by
  intro w
  simp only [decode_eq_ok_iff, shifted_field_ne_iff]
  refine ⟨.trans ?cmp (mask_match_iff w _ _ 0x01 16 (by decide) (by decide) (by decide) (by decide)).symm,
    .trans ?mul (mask_match_iff w _ _ 0x02 12 (by decide) (by decide) (by decide) (by decide)).symm,
    .trans ?modexp (mask_match_iff w _ _ 0x03 8 (by decide) (by decide) (by decide) (by decide)).symm,
    .trans ?egcd (and_congr_left'
      (mask_match_iff w _ _ 0x04 4 (by decide) (by decide) (by decide) (by decide)).symm),
    .trans ?modinv (mask_match_iff w _ _ 0x05 12 (by decide) (by decide) (by decide) (by decide)).symm,
    .trans ?mrtest (mask_match_iff w _ _ 0x06 20 (by decide) (by decide) (by decide) (by decide)).symm⟩
  case cmp => exact ⟨fun ⟨_, _, h⟩ => h.row, fun ⟨hop, hz⟩ => ⟨_, _, .cmp hop hz⟩⟩
  case mul => exact ⟨fun ⟨_, _, _, h⟩ => h.row, fun ⟨hop, hz⟩ => ⟨_, _, _, .mul hop hz⟩⟩
  case modexp => exact ⟨fun ⟨_, _, _, _, h⟩ => h.row, fun ⟨hop, hz⟩ => ⟨_, _, _, _, .modexp hop hz⟩⟩
  case egcd =>
    refine ⟨?_, fun ⟨⟨hop, hz⟩, hne⟩ => ⟨_, _, _, _, _, .egcd hop hz hne⟩⟩
    rintro ⟨_, _, _, _, _, h⟩
    cases h with
    | egcd hop hz hne => exact ⟨⟨hop, hz⟩, hne⟩
  case modinv => exact ⟨fun ⟨_, _, _, h⟩ => h.row, fun ⟨hop, hz⟩ => ⟨_, _, _, .modinv hop hz⟩⟩
  case mrtest => exact ⟨fun ⟨_, h⟩ => h.row, fun ⟨hop, hz⟩ => ⟨_, .mrtest hop hz⟩⟩

/-- Settles O4, by running the decoder on the nine words. -/
theorem writtenOutWordsDecode : Obligations.WrittenOutWordsDecode := by
  unfold Obligations.WrittenOutWordsDecode
  decide

/-! ### The engine and the illegal words (R85 to R87) -/

/-- Settles O7: the engine's turn with a rejected word is the error completion. -/
theorem illegalWordEndsWithIllegalCommand : Obligations.IllegalWordEndsWithIllegalCommand := by
  intro s r hturn hb hd
  refine ⟨_, ?_, State.raise_completion_self _ .illegalCommand⟩
  rw [step_engine hturn]
  exact engineEvent_illegal hb hd

/-- Settles O9, by the list of what one step can do. -/
theorem everyStepGoesOn : Obligations.EveryStepGoesOn := by
  intro s
  obtain ⟨t, ht, -⟩ := step_steps s
  exact ⟨t, ht⟩

end Sys2Proof.Machine

/-! PROOFS. CMP: the three answers of Compare as relations of the signed values, and the flags they become
(40_bigint_comparator.md R100, R101, R103). -/

namespace Sys2Proof.Machine

/-! ### Compare is the order of the values (R100) -/

theorem compareRegs_eq_lt_iff {a b : BigReg} : compareRegs a b = .lt ↔ a.value < b.value := by
  rw [compareRegs_eq]
  split_ifs with hlt
  · exact iff_of_true rfl hlt
  all_goals exact iff_of_false nofun hlt

theorem compareRegs_eq_eq_iff {a b : BigReg} : compareRegs a b = .eq ↔ a.value = b.value := by
  rw [compareRegs_eq]
  split_ifs with hlt heq
  · exact iff_of_false nofun hlt.ne
  · exact iff_of_true rfl heq
  · exact iff_of_false nofun heq

theorem compareRegs_eq_gt_iff {a b : BigReg} : compareRegs a b = .gt ↔ b.value < a.value := by
  rw [compareRegs_eq]
  split_ifs with hlt heq
  · exact iff_of_false nofun hlt.not_gt
  · exact iff_of_false nofun heq.not_gt
  · exact iff_of_true rfl (lt_of_le_of_ne (not_lt.mp hlt) (Ne.symm heq))

/-! ### The flags of CMP (R101) -/

/-- Each flag is the truth of its relation between the two values. -/
theorem Flags.setCompare_compareRegs (f : Flags) (a b : BigReg) :
    f.setCompare (compareRegs a b) = { f with
      eq := decide (a.value = b.value), lt := decide (a.value < b.value), gt := decide (b.value < a.value) } := by
  simp only [flags_setCompare, compareRegs_eq_lt_iff, compareRegs_eq_eq_iff, compareRegs_eq_gt_iff]

theorem Flags.setCompare_sum (f : Flags) (c : Cmp) :
    (f.setCompare c).eq.toNat + (f.setCompare c).lt.toNat + (f.setCompare c).gt.toNat = 1 := by
  cases c <;> rfl

/-- CMP completes on every state: it checks no operand. -/
theorem exec_cmp (ra rb : RegNum) (s : State) :
    exec (.cmp ra rb) s = .next (s.setCompare (compareRegs (s.reg ra) (s.reg rb))).finish := rfl

/-- Settles O10: the flags are Compare's relations of the values, and completion and the flag write leave the rest. -/
theorem cmpWritesTheSignedComparison : Obligations.CmpWritesTheSignedComparison := by
  intro ra rb s
  have hexec := exec_cmp ra rb s
  exact ⟨_, hexec, s.flags.setCompare_compareRegs (s.reg ra) (s.reg rb), rfl, State.finish_completed _,
    (ends_of_exec hexec).sameControl, rfl, rfl⟩

/-! ### The laws (R103) -/

/-- Every answer of Compare is transitive, as the relation of values it stands for is. -/
theorem compareRegs_trans {a b c : BigReg} {o : Cmp} (hab : compareRegs a b = o) (hbc : compareRegs b c = o) :
    compareRegs a c = o := by
  cases o with
  | lt => exact compareRegs_eq_lt_iff.mpr ((compareRegs_eq_lt_iff.mp hab).trans (compareRegs_eq_lt_iff.mp hbc))
  | eq => exact compareRegs_eq_eq_iff.mpr ((compareRegs_eq_eq_iff.mp hab).trans (compareRegs_eq_eq_iff.mp hbc))
  | gt => exact compareRegs_eq_gt_iff.mpr ((compareRegs_eq_gt_iff.mp hbc).trans (compareRegs_eq_gt_iff.mp hab))

/-- Settles O11, by the order of the values and by the one flag that each answer sets. -/
theorem compareLaws : Obligations.CompareLaws := by
  refine ⟨fun a => compareRegs_eq_eq_iff.mpr rfl, fun a b => ?_, fun a b c o => compareRegs_trans, ?_⟩
  · rw [compareRegs_eq_lt_iff, compareRegs_eq_gt_iff]
  · intro ra rb s t hexec
    rw [exec_cmp] at hexec
    cases hexec
    exact s.flags.setCompare_sum _

end Sys2Proof.Machine

/-! PROOFS. MUL: its two ends, the bit lengths of a product, and the laws (41_bigint_multiplier.md R110 to R112,
R115). -/

namespace Sys2Proof.Machine

/-! ### The bit lengths of a product (00_scope.md R12, R112) -/

theorem mul_lt_two_pow_of_bitlen_add_le {u v k : Nat} (h : bitlen u + bitlen v ≤ k) : u * v < 2 ^ k :=
  calc u * v < 2 ^ bitlen u * 2 ^ bitlen v := Nat.mul_lt_mul'' (lt_two_pow_bitlen u) (lt_two_pow_bitlen v)
    _ = 2 ^ (bitlen u + bitlen v) := (pow_add ..).symm
    _ ≤ 2 ^ k := Nat.pow_le_pow_right Nat.two_pos h

/-- Each factor needs all its bits but one, so the product needs all their bits but one. -/
theorem two_pow_le_mul_of_le_bitlen_add {u v k : Nat} (hu : u ≠ 0) (hv : v ≠ 0) (h : k + 2 ≤ bitlen u + bitlen v) :
    2 ^ k ≤ u * v :=
  calc 2 ^ k ≤ 2 ^ ((bitlen u - 1) + (bitlen v - 1)) := Nat.pow_le_pow_right Nat.two_pos (by omega)
    _ = 2 ^ (bitlen u - 1) * 2 ^ (bitlen v - 1) := pow_add ..
    _ ≤ u * v := Nat.mul_le_mul (two_pow_bitlen_le hu) (two_pow_bitlen_le hv)

/-- A register in its width holds a value of at most W bits (R21). -/
theorem State.bitlen_x_le {s : State} (h : s.regsInRange) (k : RegNum) : bitlen (s.x k).natAbs ≤ s.width := by
  rw [bitlen_le_iff, State.natAbs_x]
  exact h k

/-! ### The two ends of MUL (R111, R112) -/

/-- How MUL ends, with the test on the exact product that decides it. -/
inductive MulEnds (rd ra rb : RegNum) (s : State) : State → Prop where
  | wrote : (s.x ra * s.x rb).natAbs < 2 ^ s.width → MulEnds rd ra rb s (s.writeX rd (s.x ra * s.x rb)).finish
  | overflowed : 2 ^ s.width ≤ (s.x ra * s.x rb).natAbs → MulEnds rd ra rb s (s.raise .overflow)

section
variable {rd ra rb : RegNum} {s t : State}

theorem mulEnds_of_exec (h : exec (.mul rd ra rb) s = .next t) : MulEnds rd ra rb s t := by
  change execMul rd ra rb s = .next t at h
  rcases lt_or_ge (s.x ra * s.x rb).natAbs (2 ^ s.width) with hfits | hover
  · cases (execMul_fits rd hfits).symm.trans h
    exact .wrote hfits
  · cases (execMul_overflow rd hover).symm.trans h
    exact .overflowed hover

theorem MulEnds.err_eq_noError_iff (h : MulEnds rd ra rb s t) :
    t.status.err = .noError ↔ (s.x ra * s.x rb).natAbs < 2 ^ s.width := by
  cases h with
  | wrote hfits => exact iff_of_true rfl hfits
  | overflowed hover => exact iff_of_false nofun hover.not_gt

theorem MulEnds.err_eq_overflow_iff (h : MulEnds rd ra rb s t) :
    t.status.err = .overflow ↔ 2 ^ s.width ≤ (s.x ra * s.x rb).natAbs := by
  cases h with
  | wrote hfits => exact iff_of_false nofun hfits.not_ge
  | overflowed hover => exact iff_of_true rfl hover

/-- A normal MUL leaves the product in its destination, also where that is a source. -/
theorem MulEnds.x_eq_mul (h : MulEnds rd ra rb s t) (herr : t.status.err = .noError) :
    t.x rd = s.x ra * s.x rb := by
  cases h with
  | wrote => exact s.x_writeX_same rd _
  | overflowed => cases herr

theorem MulEnds.eq_raise (h : MulEnds rd ra rb s t) (herr : t.status.err = .overflow) :
    t = s.raise .overflow := by
  cases h with
  | wrote => cases herr
  | overflowed => rfl

end

theorem exec_mul_comm (rd ra rb : RegNum) (s : State) : exec (.mul rd ra rb) s = exec (.mul rd rb ra) s := by
  change execMul rd ra rb s = execMul rd rb ra s
  unfold execMul mulExact
  rw [mul_comm]

/-! ### The obligations -/

/-- Settles O12: the product fits, so MUL takes its normal end, which writes the destination alone. -/
theorem mulWritesTheExactProduct : Obligations.MulWritesTheExactProduct := by
  intro rd ra rb s hfits
  have hexec : exec (.mul rd ra rb) s = .next (s.writeX rd (s.x ra * s.x rb)).finish := execMul_fits rd hfits
  refine ⟨_, hexec, s.x_writeX_same rd _, ?_, sameRegsBut_writeX s rd _, rfl, State.finish_completed _,
    (ends_of_exec hexec).sameControl, rfl, rfl⟩
  rw [State.finish_reg, State.reg_writeX_same, BigReg.sign_ofInt, decide_eq_true_iff]

/-- Settles O13, by the two ends of MUL and the bit lengths of the product of the magnitudes. -/
theorem mulOverflows : Obligations.MulOverflows := by
  refine ⟨fun rd ra rb s hover => ⟨_, execMul_overflow rd hover, s.raise_completion_self _⟩,
    fun rd ra rb s t hexec => (mulEnds_of_exec hexec).err_eq_overflow_iff, fun rd ra rb s t hlen hexec => ?_,
    fun rd ra rb s t hrange hlen hexec => ?_⟩
  · rw [(mulEnds_of_exec hexec).err_eq_noError_iff, Int.natAbs_mul]
    exact mul_lt_two_pow_of_bitlen_add_le hlen
  · have ha := State.bitlen_x_le hrange ra
    have hb := State.bitlen_x_le hrange rb
    -- neither source is 0: the other one alone has at most W bits
    have hane : (s.x ra).natAbs ≠ 0 := fun h0 => by rw [h0, bitlen_zero] at hlen; omega
    have hbne : (s.x rb).natAbs ≠ 0 := fun h0 => by rw [h0, bitlen_zero] at hlen; omega
    rw [(mulEnds_of_exec hexec).err_eq_overflow_iff, Int.natAbs_mul]
    exact two_pow_le_mul_of_le_bitlen_add hane hbne hlen

/-- Settles O14, by the commutativity of the exact product and the two ends of MUL. -/
theorem mulLaws : Obligations.MulLaws := by
  refine ⟨exec_mul_comm, fun rd ra rb s t hexec herr => ?_, fun rd ra rb s t hexec herr => ?_⟩
  · have hx := (mulEnds_of_exec hexec).x_eq_mul herr
    exact ⟨hx, by rw [hx, mul_eq_zero]⟩
  · rw [(mulEnds_of_exec hexec).eq_raise herr]
    exact ⟨rfl, rfl, rfl⟩

end Sys2Proof.Machine

/-! PROOFS. MODEXP: the course of the loop (42_modular_exponentiation.md R122, R127), the three ends of the command
(R121, R124, R125), and the RSA round trip (45_host_sequences.md R196). -/

namespace Sys2Proof.Machine

/-! ### The course of the loop (R120, R127) -/

theorem modExpLoop_eq_self {w : Work} (he : w.modexp.e = 0) (k : Nat) : modExpLoop k w = w := by
  cases k with
  | zero => rfl
  | succ k => rw [modExpLoop_succ, if_neg (by omega)]

theorem modExpLoop_add (j k : Nat) (w : Work) : modExpLoop (j + k) w = modExpLoop k (modExpLoop j w) := by
  induction j generalizing w with
  | zero => rw [Nat.zero_add, modExpLoop]
  | succ j ih =>
    rw [Nat.succ_add, modExpLoop_succ, modExpLoop_succ]
    split
    · exact ih (modExpStep w)
    · next he => exact (modExpLoop_eq_self (Nat.eq_zero_of_not_pos he) k).symm

/-- Each iteration takes one binary digit off the exponent. -/
theorem modExpLoop_e_eq_div (k : Nat) (w : Work) : (modExpLoop k w).modexp.e = w.modexp.e / 2 ^ k := by
  induction k generalizing w with
  | zero => rw [pow_zero, Nat.div_one, modExpLoop]
  | succ k ih =>
    rw [modExpLoop_succ]
    split
    · rw [ih, modExpStep_e, Nat.div_div_eq_div_mul, ← pow_succ']
    · next he => rw [Nat.eq_zero_of_not_pos he, Nat.zero_div]

theorem modExpLoop_e_pos {w : Work} {k : Nat} (h : k < bitlen w.modexp.e) : 0 < (modExpLoop k w).modexp.e := by
  have hle : 2 ^ k ≤ w.modexp.e := not_lt.mp (mt (bitlen_le_iff _ k).mpr h.not_ge)
  rw [modExpLoop_e_eq_div]
  exact Nat.div_pos hle (Nat.two_pow_pos k)

/-- The loop has ended after as many iterations as the exponent has digits. -/
theorem modExpLoop_eq_of_bitlen_le {w : Work} {k : Nat} (h : bitlen w.modexp.e ≤ k) :
    modExpLoop k w = modExpLoop (bitlen w.modexp.e) w := by
  obtain ⟨j, rfl⟩ := Nat.exists_eq_add_of_le h
  rw [modExpLoop_add]
  exact modExpLoop_eq_self (modExpLoop_e _ w le_rfl) j

/-- Settles O17: an iteration halves the exponent, and a loop with exponent 0 stays as it is. -/
theorem modExpRunsBitlenIterations : Obligations.ModExpRunsBitlenIterations := by
  intro b e m w
  exact ⟨fun _ hk => modExpLoop_e_pos (w := modExpInit b e m w) hk,
    fun _ hk => modExpLoop_eq_of_bitlen_le (w := modExpInit b e m w) hk,
    modExpLoop_e _ (modExpInit b e m w) le_rfl⟩

/-! ### What the loop computes, and its bounds (R122, R126) -/

/-- Settles O16, by the value `res * b^e mod m` that every iteration keeps. -/
theorem modExpIsThePowerResidue : Obligations.ModExpIsThePowerResidue :=
  fun b e m w hm => ⟨modExp_res b e m hm w, modExp_res_lt b e m hm w⟩

theorem modExpStep_res_lt {w : Work} (h : w.modexp.res < w.modexp.m) : (modExpStep w).modexp.res < w.modexp.m := by
  rw [modExpStep_res]
  split
  · exact Nat.mod_lt _ (Nat.zero_lt_of_lt h)
  · exact h

theorem modExpStep_b_lt {w : Work} (hm : 0 < w.modexp.m) : (modExpStep w).modexp.b < w.modexp.m := by
  rw [modExpStep_b]
  exact Nat.mod_lt _ hm

theorem modExpLoop_res_lt (k : Nat) {w : Work} (h : w.modexp.res < w.modexp.m) :
    (modExpLoop k w).modexp.res < w.modexp.m := by
  have hkeep := modExpLoop_keeps (fun v => v.modexp.res < v.modexp.m)
    (fun v _ hv => (modExpStep_res_lt hv).trans_eq (modExpStep_m v).symm) k w h
  rwa [modExpLoop_m] at hkeep

theorem modExpLoop_b_lt (k : Nat) {w : Work} (h : w.modexp.b < w.modexp.m) :
    (modExpLoop k w).modexp.b < w.modexp.m := by
  have hkeep := modExpLoop_keeps (fun v => v.modexp.b < v.modexp.m)
    (fun v _ hv => (modExpStep_b_lt (Nat.zero_lt_of_lt hv)).trans_eq (modExpStep_m v).symm) k w h
  rwa [modExpLoop_m] at hkeep

/-- The first iteration squares the base, which need not be below the modulus before (R122). -/
theorem modExpLoop_b_lt_of_pos {k : Nat} (hk : 0 < k) {w : Work} (he : 0 < w.modexp.e) (hm : 0 < w.modexp.m) :
    (modExpLoop k w).modexp.b < w.modexp.m := by
  obtain ⟨j, rfl⟩ := Nat.exists_eq_add_of_lt hk
  rw [Nat.zero_add, modExpLoop_succ, if_pos he, ← modExpStep_m w]
  exact modExpLoop_b_lt j ((modExpStep_b_lt hm).trans_eq (modExpStep_m w).symm)

/-! ### The three ends of MODEXP (R121, R124, R125) -/

/-- The operands with which MODEXP completes normally. -/
structure ModexpOperands (ra rb rc : RegNum) (s : State) : Prop where
  modulus : 0 < s.x rc
  base : 0 ≤ s.x ra
  exponent : 0 ≤ s.x rb

/-- The value MODEXP computes, on the signed values of its sources (R121). -/
def modexpResult (ra rb rc : RegNum) (s : State) : Int := s.x ra ^ (s.x rb).toNat % s.x rc

/-- How MODEXP ends, with the tests that decide it in their order. -/
inductive ModexpEnds (rd ra rb rc : RegNum) (s : State) : State → Prop where
  | invalidModulus : s.x rc ≤ 0 → ModexpEnds rd ra rb rc s (s.raise .invalidModulus)
  | operandRange : 0 < s.x rc → s.x ra < 0 ∨ s.x rb < 0 → ModexpEnds rd ra rb rc s (s.raise .operandRange)
  | wrote : ModexpOperands ra rb rc s → ModexpEnds rd ra rb rc s
      ((s.withWork (modexpWork ra rb rc s)).writeX rd (modexpResult ra rb rc s)).finish

section
variable {ra rb rc : RegNum} {s t : State}

theorem modexpWork_res (h : ModexpOperands ra rb rc s) :
    ((modexpWork ra rb rc s).modexp.res : Int) = modexpResult ra rb rc s := by
  have hm : 0 < s.xNat rc := Int.pos_iff_toNat_pos.mp h.modulus
  have hbase : (s.xNat ra : Int) = s.x ra := Int.toNat_of_nonneg h.base
  have hmod : (s.xNat rc : Int) = s.x rc := Int.toNat_of_nonneg h.modulus.le
  rw [modexpWork, modExp_res _ _ _ hm, Int.natCast_mod, Int.natCast_pow, hbase, hmod]
  rfl

theorem modexpResult_nonneg (h : ModexpOperands ra rb rc s) : 0 ≤ modexpResult ra rb rc s :=
  Int.emod_nonneg _ h.modulus.ne'

/-- With such operands MODEXP writes its destination, also where that is a source. -/
theorem exec_modexp (rd : RegNum) (h : ModexpOperands ra rb rc s) :
    exec (.modexp rd ra rb rc) s =
      .next ((s.withWork (modexpWork ra rb rc s)).writeX rd (modexpResult ra rb rc s)).finish := by
  change execModexp rd ra rb rc s = _
  rw [execModexp_ok rd h.modulus h.base h.exponent, modexpWork_res h]

theorem modexpEnds_of_exec {rd : RegNum} (h : exec (.modexp rd ra rb rc) s = .next t) :
    ModexpEnds rd ra rb rc s t := by
  rcases le_or_gt (s.x rc) 0 with hm | hm
  · cases (execModexp_modulus rd ra rb hm).symm.trans h
    exact .invalidModulus hm
  · by_cases hneg : s.x ra < 0 ∨ s.x rb < 0
    · cases (execModexp_range rd hm hneg).symm.trans h
      exact .operandRange hm hneg
    · have hop : ModexpOperands ra rb rc s := ⟨hm, by omega, by omega⟩
      cases (exec_modexp rd hop).symm.trans h
      exact .wrote hop

end

/-- Settles O18: every iteration keeps the bounds, and no end of MODEXP raises Overflow. -/
theorem modexpNeverOverflows : Obligations.ModexpNeverOverflows := by
  refine ⟨fun b e m width k w hb he hm hmw hp => ⟨?_, ?_, ?_, fun hk hne => ?_⟩, fun rd ra rb rc s t hexec => ?_⟩
  · exact modExpLoop_inRange k (modExpInit_inRange hb he hm hmw hp) hm
  · rw [modExpLoop_e_eq_div]
    exact Nat.div_le_self e _
  · exact modExpLoop_res_lt k (w := modExpInit b e m w) (Nat.mod_lt 1 hm)
  · exact modExpLoop_b_lt_of_pos hk (w := modExpInit b e m w) (Nat.pos_of_ne_zero hne) hm
  · cases modexpEnds_of_exec hexec with
    | invalidModulus | operandRange | wrote => exact nofun

/-- Settles O15: MODEXP takes its normal end, which writes the destination and the working registers alone. -/
theorem modexpWritesThePowerResidue : Obligations.ModexpWritesThePowerResidue := by
  intro rd ra rb rc s hm ha hb
  have hop : ModexpOperands ra rb rc s := ⟨hm, ha, hb⟩
  have hexec := exec_modexp rd hop
  refine ⟨_, hexec, State.x_writeX_same _ rd _, ?_, sameRegsBut_writeX _ rd _, rfl, State.finish_completed _,
    (ends_of_exec hexec).sameControl, rfl, rfl⟩
  rw [State.finish_reg, State.reg_writeX_same, BigReg.sign_ofInt, decide_eq_false_iff_not, not_lt]
  exact modexpResult_nonneg hop

/-! ### The RSA round trip (R196) -/

/-- Fermat's theorem for an exponent that is 1 modulo `p - 1`, also on the multiples of `p`. -/
theorem pow_modEq_self_of_prime {p k : Nat} (hp : p.Prime) (hk : k ≠ 0) (h : k ≡ 1 [MOD p - 1]) (x : Int) :
    x ^ k ≡ x [ZMOD p] := by
  have : Fact p.Prime := ⟨hp⟩
  obtain ⟨j, hj⟩ : p - 1 ∣ k - 1 := (Nat.modEq_iff_dvd' (Nat.one_le_iff_ne_zero.mpr hk)).mp h.symm
  have hkj : k = (p - 1) * j + 1 := by omega
  rw [← ZMod.intCast_eq_intCast_iff, Int.cast_pow]
  rcases eq_or_ne (x : ZMod p) 0 with hx | hx
  · rw [hx, zero_pow hk]
  · rw [hkj, pow_succ, pow_mul, ZMod.pow_card_sub_one_eq_one hx, one_pow, one_mul]

/-- For two different primes `(p-1)(q-1)` is above 1, so an exponent that is 1 modulo it is not 0. -/
theorem ne_zero_of_modEq_one {p q k : Nat} (hp : p.Prime) (hq : q.Prime) (hpq : p ≠ q)
    (h : k ≡ 1 [MOD (p - 1) * (q - 1)]) : k ≠ 0 := by
  rintro rfl
  have hdvd : (p - 1) * (q - 1) ∣ 1 - 0 := (Nat.modEq_iff_dvd' (Nat.zero_le 1)).mp h
  obtain ⟨hp1, hq1⟩ := mul_eq_one.mp (Nat.dvd_one.mp hdvd)
  have := hp.two_le
  have := hq.two_le
  omega

theorem pow_modEq_self_of_two_primes {p q k : Nat} (hp : p.Prime) (hq : q.Prime) (hpq : p ≠ q)
    (h : k ≡ 1 [MOD (p - 1) * (q - 1)]) (x : Int) : x ^ k ≡ x [ZMOD (p : Int) * q] := by
  have hk := ne_zero_of_modEq_one hp hq hpq h
  have hcop : (p : Int).natAbs.Coprime (q : Int).natAbs := (Nat.coprime_primes hp hq).mpr hpq
  exact (Int.modEq_and_modEq_iff_modEq_mul hcop).mp
    ⟨pow_modEq_self_of_prime hp hk (h.of_mul_right _) x, pow_modEq_self_of_prime hq hk (h.of_mul_left _) x⟩

/-- Settles O60: the two commands leave `x^(e*d) mod n`, which is `x` by Fermat's theorem for each prime. -/
theorem rsaRoundTrip : Obligations.RsaRoundTrip := by
  intro p q e d s r1 r2 rx re rd rn hp hq hpq hed hn he hd hx0 hxn hrd hrn
  obtain ⟨t, ht, hpower, -, hother, -⟩ :=
    modexpWritesThePowerResidue r1 rx re rn s (hx0.trans_lt hxn) hx0 (he ▸ Int.natCast_nonneg e)
  have htd : t.x rd = s.x rd := congrArg BigReg.value (hother rd (by simpa using hrd.symm))
  have htn : t.x rn = s.x rn := congrArg BigReg.value (hother rn (by simpa using hrn.symm))
  have hmod : 0 < t.x rn := htn ▸ hx0.trans_lt hxn
  have hbase : 0 ≤ t.x r1 := hpower ▸ Int.emod_nonneg _ (hx0.trans_lt hxn).ne'
  obtain ⟨u, hu, hback, -⟩ :=
    modexpWritesThePowerResidue r2 r1 rd rn t hmod hbase (htd ▸ hd ▸ Int.natCast_nonneg d)
  refine ⟨t, u, ht, hu, ?_⟩
  have hround : (s.x rx ^ e % s.x rn) ^ d ≡ s.x rx [ZMOD s.x rn] :=
    calc (s.x rx ^ e % s.x rn) ^ d ≡ (s.x rx ^ e) ^ d [ZMOD s.x rn] := (Int.mod_modEq _ _).pow d
      _ = s.x rx ^ (e * d) := (pow_mul ..).symm
      _ ≡ s.x rx [ZMOD s.x rn] := hn ▸ pow_modEq_self_of_two_primes hp hq hpq hed (s.x rx)
  calc u.x r2 = (s.x rx ^ e % s.x rn) ^ d % s.x rn := by
        rw [hback, hpower, htd, htn, he, hd, Int.toNat_natCast, Int.toNat_natCast]
    _ = s.x rx % s.x rn := hround
    _ = s.x rx := Int.emod_eq_of_lt hx0 hxn

end Sys2Proof.Machine

/-! PROOFS. EGCD and MODINV: the Euclidean loop against its laws and its recursive form (43_extended_gcd_modinv.md R138,
R139, R145), the ends of EGCD (R136, R137) and the modular inverse (R140, R141). -/

namespace Sys2Proof.Machine

/-! ### The Euclidean loop (R135, R138, R139, R145) -/

/-- Settles O21, by the loop's invariant, whose remainder is 0 at the end. -/
theorem extGcdLaws : Obligations.ExtGcdLaws := by
  refine ⟨fun a b w => ⟨(extGcd_inv a b w).bezoutOld, extGcd_gcd a b w, extGcd_r a b w⟩, fun a w => ⟨?_, ?_⟩,
    fun w hr => ?_⟩
  · rw [extGcd_gcd, Nat.gcd_zero_right]
  · rw [extGcd_gcd, Nat.gcd_zero_left]
  · rw [egcdStep_r]
    exact Nat.mod_lt _ (Nat.pos_of_ne_zero hr)

/-- Settles O22, by the bounds that every iteration keeps. -/
theorem extGcdCoefficientsAreBounded : Obligations.ExtGcdCoefficientsAreBounded := by
  intro a b k w
  have h := egcdLoop_inv a b k w
  exact ⟨h.boundOldS, h.boundS, h.boundOldT, h.boundT, h.boundOldR, h.boundR, egcdLoop_q_le a b k w,
    egcdLoop_q_old a b k w⟩

theorem euclidTriple_extGcd (a b : Nat) (w : Work) :
    EuclidTriple a b (extGcd a b w).egcd.oldR (extGcd a b w).egcd.oldS (extGcd a b w).egcd.oldT := by
  induction b using Nat.strong_induction_on generalizing a with
  | _ b ih =>
    rcases Nat.eq_zero_or_pos b with rfl | hb
    · exact .base a
    · obtain ⟨hg, hx, hy⟩ := extGcd_rec a b hb w w
      rw [hg, hx, hy]
      exact .step a b _ _ _ hb (ih (a % b) (Nat.mod_lt a hb) b)

theorem EuclidTriple.unique {a b g g' : Nat} {x x' y y' : Int} (h : EuclidTriple a b g x y)
    (h' : EuclidTriple a b g' x' y') : g = g' ∧ x = x' ∧ y = y' := by
  induction h generalizing g' x' y' with
  | base a =>
    cases h' with
    | base => exact ⟨rfl, rfl, rfl⟩
    | step _ _ _ _ _ hb => exact absurd hb (lt_irrefl 0)
  | step a b g x1 y1 hb _ ih =>
    cases h' with
    | base => exact absurd hb (lt_irrefl 0)
    | step _ _ _ _ _ _ hrec =>
      obtain ⟨rfl, rfl, rfl⟩ := ih hrec
      exact ⟨rfl, rfl, rfl⟩

/-- Settles O23, by induction on the second operand and on the recursion. -/
theorem extGcdLoopIsTheRecursion : Obligations.ExtGcdLoopIsTheRecursion :=
  ⟨euclidTriple_extGcd, fun _ _ _ _ _ _ _ _ h h' => h.unique h'⟩

/-- The Bézout identity on the signed values of the two sources (R138 (a)). -/
theorem egcdWork_bezout {ra rb : RegNum} {s : State} (ha : 0 ≤ s.x ra) (hb : 0 ≤ s.x rb) :
    ((egcdWork ra rb s).egcd.oldR : Int) =
      s.x ra * (egcdWork ra rb s).egcd.oldS + s.x rb * (egcdWork ra rb s).egcd.oldT := by
  have hbez := (extGcd_inv (s.xNat ra) (s.xNat rb) s.work).bezoutOld
  have hxa : (s.xNat ra : Int) = s.x ra := Int.toNat_of_nonneg ha
  have hxb : (s.xNat rb : Int) = s.x rb := Int.toNat_of_nonneg hb
  rwa [hxa, hxb] at hbez

/-! ### The three destination writes of EGCD (R22, R87, R136) -/

theorem wellFormed_egcd_iff {rg rx ry ra rb : RegNum} :
    (Instr.egcd rg rx ry ra rb).wellFormed = true ↔ rg ≠ rx ∧ rg ≠ ry ∧ rx ≠ ry := by
  rw [Instr.wellFormed, Bool.and_eq_true, Bool.and_eq_true, decide_eq_true_iff, decide_eq_true_iff,
    decide_eq_true_iff, and_assoc]

/-- The result of the Euclidean loop written to `rg`, `rx`, `ry`. -/
def State.writeTriple (s : State) (rg rx ry : RegNum) (e : EgcdRegs) : State :=
  ((s.writeX rg (e.oldR : Int)).writeX rx e.oldS).writeX ry e.oldT

/-- With three different destinations no write of the triple undoes another. -/
theorem State.reg_writeTriple {rg rx ry : RegNum} (hgx : rg ≠ rx) (hgy : rg ≠ ry) (hxy : rx ≠ ry) (s : State)
    (e : EgcdRegs) :
    (s.writeTriple rg rx ry e).reg rg = BigReg.ofInt e.oldR ∧ (s.writeTriple rg rx ry e).reg rx = BigReg.ofInt e.oldS ∧
      (s.writeTriple rg rx ry e).reg ry = BigReg.ofInt e.oldT := by
  refine ⟨?_, ?_, State.reg_writeX_same _ ry _⟩
  · rw [State.writeTriple, State.reg_writeX_ne _ hgy, State.reg_writeX_ne _ hgx, State.reg_writeX_same]
  · rw [State.writeTriple, State.reg_writeX_ne _ hxy, State.reg_writeX_same]

theorem sameRegsBut_writeTriple (s : State) (rg rx ry : RegNum) (e : EgcdRegs) :
    SameRegsBut [rg, rx, ry] s (s.writeTriple rg rx ry e) := by
  intro k hk
  obtain ⟨hg, hx, hy⟩ : k ≠ rg ∧ k ≠ rx ∧ k ≠ ry := by simpa using hk
  rw [State.writeTriple, State.reg_writeX_ne _ hy, State.reg_writeX_ne _ hx, State.reg_writeX_ne _ hg]

theorem State.x_of_reg_ofInt {s : State} {k : RegNum} {v : Int} (h : s.reg k = BigReg.ofInt v) : s.x k = v := by
  rw [State.x_eq, h, BigReg.value_ofInt]

/-- A written register has sign bit 1 exactly for a negative value (R22). -/
theorem State.sign_of_reg_ofInt {s : State} {k : RegNum} {v : Int} (h : s.reg k = BigReg.ofInt v) :
    (s.reg k).sign = true ↔ s.x k < 0 := by
  rw [State.x_of_reg_ofInt h, h, BigReg.sign_ofInt, decide_eq_true_iff]

theorem State.sign_eq_false_of_reg_ofInt {s : State} {k : RegNum} {v : Int} (h : s.reg k = BigReg.ofInt v)
    (hv : 0 ≤ v) : (s.reg k).sign = false := by
  rw [h, BigReg.sign_ofInt, decide_eq_false hv.not_gt]

/-! ### The ends of EGCD (R87, R136, R137) -/

/-- The destinations and operands with which EGCD completes normally. -/
structure EgcdOperands (rg rx ry ra rb : RegNum) (s : State) : Prop where
  wellFormed : (Instr.egcd rg rx ry ra rb).wellFormed = true
  first : 0 ≤ s.x ra
  second : 0 ≤ s.x rb

/-- How EGCD ends, with the tests that decide it in their order. -/
inductive EgcdEnds (rg rx ry ra rb : RegNum) (s : State) : State → Prop where
  | illegalCommand : (Instr.egcd rg rx ry ra rb).wellFormed = false →
      EgcdEnds rg rx ry ra rb s (s.raise .illegalCommand)
  | operandRange : (Instr.egcd rg rx ry ra rb).wellFormed = true → s.x ra < 0 ∨ s.x rb < 0 →
      EgcdEnds rg rx ry ra rb s (s.raise .operandRange)
  | wrote : EgcdOperands rg rx ry ra rb s → EgcdEnds rg rx ry ra rb s
      ((s.withWork (egcdWork ra rb s)).writeTriple rg rx ry (egcdWork ra rb s).egcd).finish

section
variable {rg rx ry ra rb : RegNum} {s t : State}

/-- With such operands EGCD writes its triple, also where a destination is a source. -/
theorem exec_egcd (h : EgcdOperands rg rx ry ra rb s) :
    exec (.egcd rg rx ry ra rb) s =
      .next ((s.withWork (egcdWork ra rb s)).writeTriple rg rx ry (egcdWork ra rb s).egcd).finish :=
  execEgcd_ok h.wellFormed h.first h.second

theorem egcdEnds_of_exec (h : exec (.egcd rg rx ry ra rb) s = .next t) : EgcdEnds rg rx ry ra rb s t := by
  cases hwf : (Instr.egcd rg rx ry ra rb).wellFormed with
  | false =>
    cases (execEgcd_illegal ra rb s hwf).symm.trans h
    exact .illegalCommand hwf
  | true =>
    by_cases hneg : s.x ra < 0 ∨ s.x rb < 0
    · cases (execEgcd_range hwf hneg).symm.trans h
      exact .operandRange hwf hneg
    · have hop : EgcdOperands rg rx ry ra rb s := ⟨hwf, by omega, by omega⟩
      cases (exec_egcd hop).symm.trans h
      exact .wrote hop

/-- What the three destinations of a normal EGCD hold. -/
theorem EgcdOperands.reg_writeTriple (h : EgcdOperands rg rx ry ra rb s) (u : State) (e : EgcdRegs) :
    (u.writeTriple rg rx ry e).finish.reg rg = BigReg.ofInt e.oldR ∧
      (u.writeTriple rg rx ry e).finish.reg rx = BigReg.ofInt e.oldS ∧
      (u.writeTriple rg rx ry e).finish.reg ry = BigReg.ofInt e.oldT := by
  obtain ⟨hgx, hgy, hxy⟩ := wellFormed_egcd_iff.mp h.wellFormed
  exact State.reg_writeTriple hgx hgy hxy u e

end

/-- Settles O19: EGCD takes its normal end, and the loop's result is the triple of the recursion. -/
theorem egcdWritesTheEuclidTriple : Obligations.EgcdWritesTheEuclidTriple := by
  intro rg rx ry ra rb s hwf ha hb
  have hop : EgcdOperands rg rx ry ra rb s := ⟨hwf, ha, hb⟩
  have hexec := exec_egcd hop
  obtain ⟨hg, hx, hy⟩ := hop.reg_writeTriple (s.withWork (egcdWork ra rb s)) (egcdWork ra rb s).egcd
  refine ⟨_, hexec, ?_, ?_, State.sign_eq_false_of_reg_ofInt hg (Int.natCast_nonneg _), State.sign_of_reg_ofInt hx,
    State.sign_of_reg_ofInt hy, sameRegsBut_writeTriple _ rg rx ry _, rfl, State.finish_completed _,
    (ends_of_exec hexec).sameControl, rfl, rfl⟩
  · rw [State.x_of_reg_ofInt hg, State.x_of_reg_ofInt hx, State.x_of_reg_ofInt hy, Int.toNat_natCast]
    exact euclidTriple_extGcd _ _ s.work
  · rw [State.x_of_reg_ofInt hg]
    exact Int.natCast_nonneg _

/-- Settles O20: an EGCD without error has taken its normal end, and the loop's invariant is about its operands. -/
theorem egcdGivesBezoutCoefficients : Obligations.EgcdGivesBezoutCoefficients := by
  intro rg rx ry ra rb s t hexec herr
  cases egcdEnds_of_exec hexec with
  | illegalCommand | operandRange => cases herr
  | wrote hop =>
    obtain ⟨hg, hx, hy⟩ := hop.reg_writeTriple (s.withWork (egcdWork ra rb s)) (egcdWork ra rb s).egcd
    rw [State.x_of_reg_ofInt hg, State.x_of_reg_ofInt hx, State.x_of_reg_ofInt hy]
    exact ⟨egcdWork_bezout hop.first hop.second,
      congrArg Nat.cast (egcdWork_oldR ra rb s hop.first hop.second)⟩

/-! ### The modular inverse (R140, R141) -/

/-- The value MODINV writes where the gcd is 1. -/
def modinvResult (ra rb : RegNum) (s : State) : Int := ((egcdWork ra rb s).egcd.oldS + s.x rb) % s.x rb

/-- The Bézout identity read modulo the second operand. -/
theorem mul_modinvResult_modEq_one {ra rb : RegNum} {s : State} (hm : 0 < s.x rb) (ha : 0 ≤ s.x ra)
    (hg : Int.gcd (s.x ra) (s.x rb) = 1) : s.x ra * modinvResult ra rb s ≡ 1 [ZMOD s.x rb] := by
  have hbez := egcdWork_bezout ha hm.le
  rw [egcdWork_oldR ra rb s ha hm.le, hg, Nat.cast_one] at hbez
  have hcoef : modinvResult ra rb s ≡ (egcdWork ra rb s).egcd.oldS [ZMOD s.x rb] :=
    (Int.mod_modEq _ _).trans Int.add_modEq_right
  calc s.x ra * modinvResult ra rb s ≡ s.x ra * (egcdWork ra rb s).egcd.oldS [ZMOD s.x rb] := hcoef.mul_left _
    _ ≡ s.x ra * (egcdWork ra rb s).egcd.oldS + s.x rb * (egcdWork ra rb s).egcd.oldT [ZMOD s.x rb] :=
        (Int.modEq_add_fac_self).symm
    _ = 1 := hbez.symm

/-- Two inverses of `a` modulo `m` agree: `y = (a*z)*y = (a*y)*z = z`. -/
theorem inverse_modEq_inverse {a m y z : Int} (hy : a * y ≡ 1 [ZMOD m]) (hz : a * z ≡ 1 [ZMOD m]) :
    y ≡ z [ZMOD m] :=
  calc y = 1 * y := (one_mul y).symm
    _ ≡ a * z * y [ZMOD m] := (hz.mul_right y).symm
    _ = a * y * z := mul_right_comm a z y
    _ ≡ 1 * z [ZMOD m] := hy.mul_right z
    _ = z := one_mul z

/-- Settles O24: MODINV takes its normal end, which writes the inverse that the Bézout identity gives. -/
theorem modinvWritesTheInverse : Obligations.ModinvWritesTheInverse := by
  intro rd ra rb s hm ha hg
  have hexec : exec (.modinv rd ra rb) s =
      .next ((s.withWork (egcdWork ra rb s)).writeX rd (modinvResult ra rb s)).finish := execModinv_ok rd hm ha hg
  have hreg : ((s.withWork (egcdWork ra rb s)).writeX rd (modinvResult ra rb s)).finish.reg rd =
      BigReg.ofInt (modinvResult ra rb s) := State.reg_writeX_same _ rd _
  have hnonneg : 0 ≤ modinvResult ra rb s := Int.emod_nonneg _ hm.ne'
  have hlt : modinvResult ra rb s < s.x rb := Int.emod_lt_of_pos _ hm
  have hinv := mul_modinvResult_modEq_one hm ha hg
  refine ⟨_, hexec, ?_⟩
  rw [State.x_of_reg_ofInt hreg]
  refine ⟨hnonneg, hlt, hinv, fun y hy0 hym hy => ?_, State.sign_eq_false_of_reg_ofInt hreg hnonneg,
    sameRegsBut_writeX _ rd _, rfl, State.finish_completed _, (ends_of_exec hexec).sameControl, rfl, rfl⟩
  calc y = y % s.x rb := (Int.emod_eq_of_lt hy0 hym).symm
    _ = modinvResult ra rb s % s.x rb := inverse_modEq_inverse hy hinv
    _ = modinvResult ra rb s := Int.emod_eq_of_lt hnonneg hlt

end Sys2Proof.Machine

/-! PROOFS. MRTEST: its ends, the rounds it plays against the relations on the word stream, and the order in which it
reads the stream (44_miller_rabin.md R156 to R166, 70_reset_and_hazards.md R243). -/

namespace Sys2Proof.Machine

/-! ### The decomposition (R157) -/

/-- `2^r` divides `n - 1`, so `r` is below its bit length. -/
theorem decomposed_r_lt_bitlen {n r s : Nat} (h : Decomposed n r s) : r < bitlen (n - 1) := by
  obtain ⟨hval, hodd⟩ := h
  have hle : 2 ^ r ≤ n - 1 := hval ▸ Nat.le_mul_of_pos_right _ (by omega)
  by_contra hge
  exact absurd ((bitlen_le_iff _ _).mp (not_lt.mp hge)) hle.not_gt

/-- Settles O26, by the decomposition's laws and the bit length of an `n` that fits a register. -/
theorem decompositionIsExact : Obligations.DecompositionIsExact := by
  intro n m hn hodd
  obtain ⟨r, s, hm, hd⟩ := decompose_spec n (by omega) m
  have hr := decomposed_r_lt_bitlen hd
  rw [hm]
  refine ⟨hd.1, hd.2, decomposed_r_pos (by omega) hodd hd, ?_, Nat.le_sub_one_of_lt hr, fun c hc hw => ?_⟩
  · have hs := hd.2
    change 1 ≤ s
    omega
  · have hbits : bitlen (n - 1) ≤ c.width := (bitlen_le_iff _ _).mpr (by omega)
    have hwidth := Config.width_le hc
    change bitlen (n - 1) - 1 < c.width ∧ r < 2 ^ 32
    omega

/-! ### The ends of MRTEST (R156, R160 to R162, R243) -/

/-- MRTEST has rounds to play: its operand passes the early decisions, and not all rounds are passed. -/
structure RoundsToPlay (ra : RegNum) (s : State) : Prop where
  three_le : 3 ≤ s.x ra
  odd : s.x ra % 2 = 1
  turn : s.work.mr.i < s.roundsL.toNat

/-- How MRTEST ends, with what decides it. -/
inductive MrtestEnds (ra : RegNum) (s : State) : State → Prop where
  | early : (s.x ra < 2 ∨ s.x ra = 2 ∨ s.x ra % 2 = 0) → MrtestEnds ra s (s.answerPrime (decide (s.x ra = 2)))
  | passed : 3 ≤ s.x ra → s.x ra % 2 = 1 → s.roundsL.toNat ≤ (mrWork ra s).mr.i →
      MrtestEnds ra s ((s.withWork (mrWork ra s)).answerPrime true)
  | answered (b : Bool) : RoundsToPlay ra s → (mrRun ra s).answer = some b →
      MrtestEnds ra s ((mrState ra s).answerPrime b)
  | waits : RoundsToPlay ra s → (mrRun ra s).answer = none → MrtestEnds ra s (mrState ra s)

/-- The state with the answer of the rounds, if they came to one. -/
def State.conclude (s : State) : Option Bool → State
  | some b => s.answerPrime b
  | none => s

section
variable {ra : RegNum} {s t : State}

theorem mrtestEnds_of_exec (h : exec (.mrtest ra) s = .next t) : MrtestEnds ra s t := by
  change execMrtest ra s = .next t at h
  rcases execMrtest_cases ra s with ⟨hearly, he⟩ | ⟨h3, hodd, ⟨hi, he⟩ | ⟨hi, hrun⟩⟩
  · cases he.symm.trans h
    exact .early hearly
  · cases he.symm.trans h
    exact .passed h3 hodd hi
  · rw [mrWork_i h3] at hi
    rcases hrun with ⟨b, ha, he⟩ | ⟨ha, he⟩ <;> cases he.symm.trans h
    · exact .answered b ⟨h3, hodd, hi⟩ ha
    · exact .waits ⟨h3, hodd, hi⟩ ha

/-- Where there are rounds to play, MRTEST plays them on the words offered. -/
theorem RoundsToPlay.exec_eq (h : RoundsToPlay ra s) :
    exec (.mrtest ra) s = .next ((mrState ra s).conclude (mrRun ra s).answer) := by
  have hi : (mrWork ra s).mr.i < s.roundsL.toNat := by rw [mrWork_i h.three_le]; exact h.turn
  change execMrtest ra s = _
  cases ha : (mrRun ra s).answer with
  | some b => exact execMrtest_answer h.three_le h.odd hi ha
  | none => exact execMrtest_wait h.three_le h.odd hi ha

/-- A MRTEST that has not completed waits for words (R243). -/
theorem MrtestEnds.waits_of_busy (h : MrtestEnds ra s t) (hb : t.status.busy = true) :
    RoundsToPlay ra s ∧ (mrRun ra s).answer = none ∧ t = mrState ra s := by
  cases h with
  | early | passed | answered => cases hb
  | waits hplay ha => exact ⟨hplay, ha, rfl⟩

/-- A MRTEST that waits has taken all words offered. -/
theorem mrState_of_waiting (ha : (mrRun ra s).answer = none) :
    (mrState ra s).rngQueue = [] ∧ (mrState ra s).rngpos = s.rngpos + s.rngQueue.length := by
  obtain ⟨-, hrest, hused⟩ := runRounds_append_of_wait s.roundsL.toNat [] s.rngQueue (mrWork ra s) ha
  exact ⟨hrest, congrArg (s.rngpos + ·) hused⟩

end

/-- Settles O25: MRTEST takes its early end. -/
theorem mrtestEarlyDecisions : Obligations.MrtestEarlyDecisions := by
  intro ra s hearly
  have hexec : exec (.mrtest ra) s = .next (s.answerPrime (decide (s.x ra = 2))) := execMrtest_early hearly
  exact ⟨_, hexec, rfl, rfl, State.finish_completed _, (ends_of_exec hexec).sameControl, rfl, rfl⟩

/-- Settles O29: no round is left to play, whatever the round counter. -/
theorem mrtestWithZeroRounds : Obligations.MrtestWithZeroRounds := by
  intro ra s h3 hodd hrounds
  have hexec : exec (.mrtest ra) s = .next ((s.withWork (mrWork ra s)).answerPrime true) :=
    execMrtest_passed h3 hodd (by rw [hrounds]; exact Nat.zero_le _)
  exact ⟨_, hexec, rfl, rfl, State.finish_completed _, (ends_of_exec hexec).sameControl, rfl, rfl⟩

/-! ### A test at its start, against the relations on the stream (R158 to R161, R164) -/

/-- MRTEST on the odd `n >= 3` stands at its start, with at least one round to play. -/
structure FreshTest (ra : RegNum) (s : State) (n : Nat) : Prop where
  x_eq : s.x ra = (n : Int)
  three_le : 3 ≤ n
  odd : n % 2 = 1
  fresh : s.mrFresh
  rounds : 1 ≤ s.roundsL.toNat

/-- The working registers hold the decomposition of `n` and stand at the start of the first draw. -/
structure FirstDraw (n : Nat) (m : MrRegs) : Prop where
  n_eq : m.n = n
  decomposed : Decomposed n m.r m.s
  i_eq : m.i = 0
  c_eq : m.c = 0
  l_eq : m.l = 0

section
variable {ra : RegNum} {s : State} {n : Nat}

theorem FreshTest.roundsToPlay (h : FreshTest ra s n) : RoundsToPlay ra s := by
  obtain ⟨hx, h3, hodd, ⟨hi, -, -⟩, hrounds⟩ := h
  exact ⟨by omega, by omega, by omega⟩

theorem FreshTest.firstDraw (h : FreshTest ra s n) : FirstDraw n (mrWork ra s).mr := by
  obtain ⟨r, u, hm, hd⟩ := mrWork_spec h.roundsToPlay.three_le
  have hn : s.xNat ra = n := by rw [State.xNat, h.x_eq, Int.toNat_natCast]
  obtain ⟨hi, hc, hl⟩ := h.fresh
  rw [hn] at hm hd
  rw [hm]
  exact ⟨rfl, hd, hi, hc, hl⟩

/-- Rounds of the relation are the rounds the engine plays. -/
theorem FreshTest.mrRun_of_rounds (h : FreshTest ra s n) {b : Bool} {rest : List Word}
    (hr : Rounds n s.roundsL.toNat s.rngQueue b rest) :
    ∃ v u, s.rngQueue.length = u + rest.length ∧
      mrRun ra s = { work := v, rest := rest, used := u, answer := some b } := by
  obtain ⟨hn, hd, hi, hc, hl⟩ := h.firstDraw
  have h3 := h.three_le
  exact runRounds_rounds _ hr _ hn (by omega) hd hc hl h.rounds (by rw [hi, Nat.zero_add])

/-- An answer of the engine is an answer of the relation. -/
theorem FreshTest.rounds_of_answer (h : FreshTest ra s n) {b : Bool} (ha : (mrRun ra s).answer = some b) :
    Rounds n s.roundsL.toNat s.rngQueue b (mrRun ra s).rest := by
  obtain ⟨hn, hd, hi, hc, hl⟩ := h.firstDraw
  have h3 := h.three_le
  exact rounds_of_runRounds _ n b _ _ _ _ le_rfl hn (by omega) hd hc hl h.rounds (by rw [hi, Nat.zero_add]) ha

/-- On rejected candidates the engine takes all words and stands where it began. -/
theorem FreshTest.mrRun_of_allRejected (h : FreshTest ra s n) (hrej : AllRejected n s.rngQueue) :
    mrRun ra s = { work := mrWork ra s, rest := [], used := s.rngQueue.length, answer := none } := by
  obtain ⟨hn, -, -, hc, hl⟩ := h.firstDraw
  have h3 := h.three_le
  exact runRounds_allRejected _ hrej _ hn (by omega) hc hl

end

/-- Settles O27: the engine plays the rounds of the relation, and takes their words. -/
theorem mrtestAnswersByItsRounds : Obligations.MrtestAnswersByItsRounds := by
  intro ra s n b rest hx h3 hodd hfresh hrounds hr
  have h : FreshTest ra s n := ⟨hx, h3, hodd, hfresh, hrounds⟩
  obtain ⟨v, u, hu, hrun⟩ := h.mrRun_of_rounds hr
  have hexec := h.roundsToPlay.exec_eq
  have hcontrol := (ends_of_exec hexec).sameControl
  refine ⟨_, hexec, ?_⟩
  rw [mrState, hrun] at hcontrol ⊢
  refine ⟨rfl, rfl, ?_, rfl, State.finish_completed _, hcontrol⟩
  change s.rngpos + u + rest.length = _
  omega

/-- Settles O28: of the four ends of MRTEST only the answer of the rounds is possible. -/
theorem mrtestCompletesOnlyByItsRounds : Obligations.MrtestCompletesOnlyByItsRounds := by
  intro ra s t n hx h3 hodd hfresh hrounds hbusy hexec hdone
  have h : FreshTest ra s n := ⟨hx, h3, hodd, hfresh, hrounds⟩
  have hplay := h.roundsToPlay
  cases mrtestEnds_of_exec hexec with
  | early hearly =>
    obtain ⟨h3', hodd', -⟩ := hplay
    omega
  | passed h3' _ hi => exact absurd (mrWork_i h3' ▸ hi) hplay.turn.not_ge
  | answered b _ ha => exact h.rounds_of_answer ha
  | waits => exact absurd (hbusy.symm.trans hdone) (by decide)

/-- Settles O30: the prime 2 is decided early, and on an odd prime no round gives `composite`. -/
theorem mrtestNeverRejectsAPrime : Obligations.MrtestNeverRejectsAPrime := by
  intro ra s t p hp hx hfresh hbusy hexec hdone
  cases mrtestEnds_of_exec hexec with
  | early hearly =>
    have hp2 := hp.two_le
    have heven : p % 2 = 0 → p = 2 := fun h0 => hp.eq_two_or_odd.resolve_right (by omega)
    change decide (s.x ra = 2) = true
    rw [decide_eq_true_iff]
    omega
  | passed => rfl
  | answered b hplay ha =>
    obtain ⟨h3, hodd, hturn⟩ := hplay
    have h : FreshTest ra s p := ⟨hx, by omega, by omega, hfresh, by omega⟩
    exact rounds_of_prime hp (by omega) (h.rounds_of_answer ha)
  | waits => exact absurd (hbusy.symm.trans hdone) (by decide)

/-- Settles O31: of the four ends of MRTEST only waiting leaves BUSY 1, and rejected candidates give no answer. -/
theorem mrtestWaitsForAcceptableWords : Obligations.MrtestWaitsForAcceptableWords := by
  refine ⟨fun ra s t _ hexec hbusy => ?_, fun ra s n hx h3 hodd hfresh hrounds hrej => ?_⟩
  · have hcontrol := (ends_of_exec hexec).sameControl
    obtain ⟨hplay, ha, rfl⟩ := (mrtestEnds_of_exec hexec).waits_of_busy hbusy
    obtain ⟨hqueue, hpos⟩ := mrState_of_waiting ha
    exact ⟨rfl, rfl, rfl, hcontrol, hqueue, hpos, hplay.three_le, hplay.odd, hplay.turn⟩
  · have h : FreshTest ra s n := ⟨hx, h3, hodd, hfresh, hrounds⟩
    have hexec := h.roundsToPlay.exec_eq
    have hcontrol := (ends_of_exec hexec).sameControl
    have hdraw := h.firstDraw
    refine ⟨_, hexec, ?_⟩
    rw [mrState, h.mrRun_of_allRejected hrej] at hcontrol ⊢
    exact ⟨rfl, rfl, rfl, hcontrol, rfl, rfl, hdraw.i_eq, hdraw.c_eq, hdraw.l_eq⟩

/-! ### The order of the stream (R163) -/

/-- The source offers more words. -/
def State.offerWords (s : State) (ws : List Word) : State := { s with rngQueue := s.rngQueue ++ ws }

section
variable {ra : RegNum} {s : State}

/-- The words offered do not decide whether there are rounds to play. -/
theorem RoundsToPlay.offerWords (h : RoundsToPlay ra s) (ws : List Word) : RoundsToPlay ra (s.offerWords ws) :=
  ⟨h.three_le, h.odd, h.turn⟩

/-- A test that waits for words still has rounds to play. -/
theorem RoundsToPlay.mrState (h : RoundsToPlay ra s) (ha : (mrRun ra s).answer = none) :
    RoundsToPlay ra (mrState ra s) := by
  refine ⟨h.three_le, h.odd, runRounds_turn _ _ _ ?_ ha⟩
  rw [mrWork_i h.three_le]
  exact h.turn

/-- Words behind the last word taken do not change the rounds. -/
theorem mrRun_offerWords_of_answer {b : Bool} (ha : (mrRun ra s).answer = some b) (ws : List Word) :
    mrRun ra (s.offerWords ws) = { mrRun ra s with rest := (mrRun ra s).rest ++ ws } :=
  runRounds_append_of_answer _ ws b _ _ ha

/-- A test that waited goes on where the run on all the words would be. -/
theorem mrRun_offerWords_of_waiting (h : RoundsToPlay ra s) (ha : (mrRun ra s).answer = none) (ws : List Word) :
    mrRun ra (s.offerWords ws) = (mrRun ra ((mrState ra s).offerWords ws)).addUsed s.rngQueue.length := by
  have hwork : mrWork ra ((mrState ra s).offerWords ws) = (mrRun ra s).work :=
    mrWork_of_waiting h.three_le rfl rfl
  have hqueue : ((mrState ra s).offerWords ws).rngQueue = ws := by
    rw [State.offerWords, (mrState_of_waiting ha).1, List.nil_append]
  have hgo := (runRounds_append_of_wait s.roundsL.toNat ws s.rngQueue (mrWork ra s) ha).1
  rw [mrRun, mrRun, hwork, hqueue]
  exact hgo

/-- The state the rounds leave does not depend on when the words came. -/
theorem mrState_offerWords_of_waiting (h : RoundsToPlay ra s) (ha : (mrRun ra s).answer = none) (ws : List Word) :
    mrState ra ((mrState ra s).offerWords ws) = mrState ra (s.offerWords ws) := by
  have hpos := (mrState_of_waiting ha).2
  conv => rhs; rw [mrState, mrRun_offerWords_of_waiting h ha ws]
  conv => lhs; rw [mrState]
  generalize mrRun ra ((mrState ra s).offerWords ws) = m
  change ({ s with work := m.work, rngQueue := m.rest, rngpos := (mrState ra s).rngpos + m.used } : State) =
    { s with work := m.work, rngQueue := m.rest, rngpos := s.rngpos + (m.used + s.rngQueue.length) }
  rw [hpos, Nat.add_assoc, Nat.add_comm m.used]

end

/-- Settles O32: a waiting test plays on from the words taken, and a completed one has read none ahead. -/
theorem mrtestReadsTheStreamInOrder : Obligations.MrtestReadsTheStreamInOrder := by
  intro ra s t more hbusy hexec
  refine ⟨fun hwait => ?_, fun hdone => ?_⟩
  · obtain ⟨hplay, ha, rfl⟩ := (mrtestEnds_of_exec hexec).waits_of_busy hwait
    have hresumed := ((hplay.mrState ha).offerWords more).exec_eq
    have hwhole := (hplay.offerWords more).exec_eq
    rw [mrRun_offerWords_of_waiting hplay ha] at hwhole
    rw [mrState_offerWords_of_waiting hplay ha] at hresumed
    exact hresumed.trans hwhole.symm
  · cases mrtestEnds_of_exec hexec with
    | early hearly => exact execMrtest_early (s := s.offerWords more) hearly
    | passed h3 hodd hi => exact execMrtest_passed (s := s.offerWords more) h3 hodd hi
    | answered b hplay ha =>
      have hwhole := (hplay.offerWords more).exec_eq
      rw [mrState, mrRun_offerWords_of_answer ha, ha] at hwhole
      exact hwhole
    | waits => exact absurd (hbusy.symm.trans hdone) (by decide)

end Sys2Proof.Machine

/-! PROOFS. The key generator's candidates: the size of a candidate and of the product of two
(45_host_sequences.md R181, R187). -/

namespace Sys2Proof.Machine

/-- The highest of `k + 1` digits has weight `2^k` (00_scope.md R12). -/
theorem bitlen_eq_succ_iff (v k : Nat) : bitlen v = k + 1 ↔ 2 ^ k ≤ v ∧ v < 2 ^ (k + 1) := by
  rw [← bitlen_le_iff, ← not_lt, ← bitlen_le_iff]
  omega

/-- The two forced high bits weigh three quarters of the next power of two (R181). -/
theorem three_mul_two_pow_le_candidateOf (k r : Nat) : 3 * 2 ^ k ≤ candidateOf (k + 2) r := by
  have htop : 2 ^ (k + 1) + 2 ^ k ≤ candidateOf (k + 2) r := (candidateOf_spec (k + 2) r (by omega)).1
  rw [pow_succ] at htop
  omega

theorem candidateOf_lt (k r : Nat) : candidateOf (k + 2) r < 2 ^ (k + 2) :=
  (candidateOf_spec (k + 2) r (by omega)).2.1

theorem candidateOf_odd (k r : Nat) : candidateOf (k + 2) r % 2 = 1 :=
  (candidateOf_spec (k + 2) r (by omega)).2.2

theorem bitlen_candidateOf (k r : Nat) : bitlen (candidateOf (k + 2) r) = k + 2 := by
  have hlow := three_mul_two_pow_le_candidateOf k r
  refine (bitlen_eq_succ_iff _ (k + 1)).mpr ⟨?_, candidateOf_lt k r⟩
  rw [pow_succ]
  omega

/-- No digit is lost, since `3 * 3 ≥ 2 ^ 3` (the derivation in R187). -/
theorem bitlen_candidateOf_mul (k l r q : Nat) :
    bitlen (candidateOf (k + 2) r * candidateOf (l + 2) q) = k + 2 + (l + 2) := by
  refine (bitlen_eq_succ_iff _ (k + 2 + (l + 1))).mpr ⟨?_, ?_⟩
  · calc 2 ^ (k + 2 + (l + 1)) = 8 * (2 ^ k * 2 ^ l) := by ring
      _ ≤ 9 * (2 ^ k * 2 ^ l) := by omega
      _ = 3 * 2 ^ k * (3 * 2 ^ l) := by ring
      _ ≤ candidateOf (k + 2) r * candidateOf (l + 2) q :=
        Nat.mul_le_mul (three_mul_two_pow_le_candidateOf k r) (three_mul_two_pow_le_candidateOf l q)
  · calc candidateOf (k + 2) r * candidateOf (l + 2) q < 2 ^ (k + 2) * 2 ^ (l + 2) :=
          Nat.mul_lt_mul'' (candidateOf_lt k r) (candidateOf_lt l q)
      _ = 2 ^ (k + 2 + (l + 2)) := (pow_add ..).symm

/-- Settles O59, by the bounds that the forced bits give a candidate and the product of two. -/
theorem candidateProductHasAllItsBits : Obligations.CandidateProductHasAllItsBits := by
  intro s1 s2 r1 r2 h1 h2
  obtain ⟨k, rfl⟩ := Nat.exists_eq_add_of_le' h1
  obtain ⟨l, rfl⟩ := Nat.exists_eq_add_of_le' h2
  exact ⟨bitlen_candidateOf k r1, candidateOf_odd k r1, bitlen_candidateOf_mul k l r1 r2⟩

end Sys2Proof.Machine

/-! PROOFS. Errors and completion: how every command ends, which error it reports, and what raises the interrupt output
(60_exceptions.md R202, R203, R205, R207, R216, 70_reset_and_hazards.md R234, R243). -/

namespace Sys2Proof.Machine

/-! ### Every command (R202, R203, R243) -/

section
variable {i : Instr} {s t : State}

/-- A command reports no error, or ends with an error completion, or waits with STATUS as it was. -/
theorem Ends.err_cases (h : Ends i s t) :
    t.status.err = .noError ∨ ErrorCompletion s t t.status.err ∨ t.status = s.status := by
  cases h with
  | error w e => exact .inr (.inl (s.raise_completion w e))
  | compared | wrote | early | passed | answered => exact .inl rfl
  | waits => exact .inr (.inr rfl)

/-- Only MRTEST waits (R243). -/
theorem Ends.busy_done_of_ne_mrtest (h : Ends i s t) (hi : ∀ ra, i ≠ .mrtest ra) :
    t.status.busy = false ∧ t.status.done = true := by
  cases h with
  | waits ra hra => exact absurd hra (hi ra)
  | error | compared | wrote | early | passed | answered => exact ⟨rfl, rfl⟩

end

/-- Settles O33: no end but the error completion brings in an error code. -/
theorem errorsChangeNothingElse : Obligations.ErrorsChangeNothingElse := by
  intro i s t hs hexec hne
  rcases (ends_of_exec hexec).err_cases with hnone | herror | hstatus
  · exact absurd hnone hne
  · exact herror
  · exact absurd (hstatus ▸ hs) hne

/-- Settles O35: every end of such a command is a completion. -/
theorem allButMrtestAlwaysComplete : Obligations.AllButMrtestAlwaysComplete := by
  intro i s hi
  obtain ⟨t, hexec, hends⟩ := exec_ends i s
  exact ⟨t, hexec, hends.busy_done_of_ne_mrtest hi⟩

/-- Settles O36, by the frame that all ends of a command share. -/
theorem commandsLeaveControlAlone : Obligations.CommandsLeaveControlAlone :=
  fun _ _ _ hexec => (ends_of_exec hexec).sameControl

/-! ### Which error each command reports (R205) -/

/-- How MODINV ends, with the tests that decide it in their order (R137, R141 to R143). -/
inductive ModinvEnds (rd ra rb : RegNum) (s : State) : State → Prop where
  | invalidModulus : s.x rb ≤ 0 → ModinvEnds rd ra rb s (s.raise .invalidModulus)
  | operandRange : 0 < s.x rb → s.x ra < 0 → ModinvEnds rd ra rb s (s.raise .operandRange)
  | notInvertible : 0 < s.x rb → 0 ≤ s.x ra → Int.gcd (s.x ra) (s.x rb) ≠ 1 →
      ModinvEnds rd ra rb s ((s.withWork (egcdWork ra rb s)).raise .notInvertible)
  | wrote : 0 < s.x rb → 0 ≤ s.x ra → Int.gcd (s.x ra) (s.x rb) = 1 →
      ModinvEnds rd ra rb s ((s.withWork (egcdWork ra rb s)).writeX rd (modinvResult ra rb s)).finish

section
variable {rd rg rx ry ra rb rc : RegNum} {s t : State}

theorem modinvEnds_of_exec (h : exec (.modinv rd ra rb) s = .next t) : ModinvEnds rd ra rb s t := by
  rcases le_or_gt (s.x rb) 0 with hm | hm
  · cases (execModinv_modulus rd ra hm).symm.trans h
    exact .invalidModulus hm
  · rcases lt_or_ge (s.x ra) 0 with ha | ha
    · cases (execModinv_range rd hm ha).symm.trans h
      exact .operandRange hm ha
    · by_cases hg : Int.gcd (s.x ra) (s.x rb) = 1
      · cases (execModinv_ok rd hm ha hg).symm.trans h
        exact .wrote hm ha hg
      · cases (execModinv_notInvertible rd hm ha hg).symm.trans h
        exact .notInvertible hm ha hg

theorem MulEnds.err_eq (h : MulEnds rd ra rb s t) :
    t.status.err = if 2 ^ s.width ≤ (s.x ra * s.x rb).natAbs then .overflow else .noError := by
  cases h with
  | wrote hfits => exact (if_neg hfits.not_ge).symm
  | overflowed hover => exact (if_pos hover).symm

theorem ModexpEnds.err_eq (h : ModexpEnds rd ra rb rc s t) :
    t.status.err = if s.x rc ≤ 0 then .invalidModulus
      else if s.x ra < 0 ∨ s.x rb < 0 then .operandRange else .noError := by
  cases h with
  | invalidModulus hm => exact (if_pos hm).symm
  | operandRange hm hneg => rw [if_neg hm.not_ge, if_pos hneg]; rfl
  | wrote hop =>
    have hneg : ¬(s.x ra < 0 ∨ s.x rb < 0) := not_or.mpr ⟨hop.base.not_gt, hop.exponent.not_gt⟩
    rw [if_neg hop.modulus.not_ge, if_neg hneg]
    rfl

/-- The EGCD terms without a word are those with two equal destinations (R87). -/
theorem wellFormed_egcd_eq_false_iff :
    (Instr.egcd rg rx ry ra rb).wellFormed = false ↔ rg = rx ∨ rg = ry ∨ rx = ry := by
  rw [← Bool.not_eq_true, wellFormed_egcd_iff]
  tauto

theorem EgcdEnds.err_eq (h : EgcdEnds rg rx ry ra rb s t) :
    t.status.err = if rg = rx ∨ rg = ry ∨ rx = ry then .illegalCommand
      else if s.x ra < 0 ∨ s.x rb < 0 then .operandRange else .noError := by
  simp only [← wellFormed_egcd_eq_false_iff (ra := ra) (rb := rb)]
  cases h with
  | illegalCommand hwf => exact (if_pos hwf).symm
  | operandRange hwf hneg => rw [if_neg (by simp [hwf]), if_pos hneg]; rfl
  | wrote hop =>
    have hneg : ¬(s.x ra < 0 ∨ s.x rb < 0) := not_or.mpr ⟨hop.first.not_gt, hop.second.not_gt⟩
    rw [if_neg (by simp [hop.wellFormed]), if_neg hneg]
    rfl

theorem ModinvEnds.err_eq (h : ModinvEnds rd ra rb s t) :
    t.status.err = if s.x rb ≤ 0 then .invalidModulus
      else if s.x ra < 0 then .operandRange
      else if Int.gcd (s.x ra) (s.x rb) ≠ 1 then .notInvertible else .noError := by
  cases h with
  | invalidModulus hm => exact (if_pos hm).symm
  | operandRange hm ha => rw [if_neg hm.not_ge, if_pos ha]; rfl
  | notInvertible hm ha hg => rw [if_neg hm.not_ge, if_neg ha.not_gt, if_pos hg]; rfl
  | wrote hm ha hg => rw [if_neg hm.not_ge, if_neg ha.not_gt, if_neg (not_not.mpr hg)]; rfl

/-- MRTEST completes without an error, or waits with ERR as it was (R160, R243). -/
theorem MrtestEnds.err_eq (h : MrtestEnds ra s t) (hs : s.status.err = .noError) : t.status.err = .noError := by
  cases h with
  | early | passed | answered => rfl
  | waits => exact hs

end

/-- Settles O34, by the ends of each command with the tests that decide them. -/
theorem errorsInTheOrderOfChecks : Obligations.ErrorsInTheOrderOfChecks := by
  refine ⟨fun ra rb s t hexec => ?_, fun _ _ _ _ _ hexec => (mulEnds_of_exec hexec).err_eq,
    fun _ _ _ _ _ _ hexec => (modexpEnds_of_exec hexec).err_eq,
    fun _ _ _ _ _ _ _ hexec => (egcdEnds_of_exec hexec).err_eq,
    fun _ _ _ _ _ hexec => (modinvEnds_of_exec hexec).err_eq,
    fun _ _ _ hs hexec => (mrtestEnds_of_exec hexec).err_eq hs⟩
  cases (exec_cmp ra rb s).symm.trans hexec
  rfl

/-! ### The interrupt output (R207) -/

theorem State.irq_eq_true_iff (s : State) : s.irq = true ↔ s.ie = true ∧ s.status.done = true := Bool.and_eq_true_iff

/-- Where irq is 1 after a write, it was 1 before, or the write enables it while DONE is 1. -/
theorem Writes.irq_cases {s t : State} {addr : Addr} {n : Nat} {v : Word} (h : Writes s addr n v t)
    (hirq : t.irq = true) :
    s.irq = true ∨ (n = 4 ∧ addr = 0x00008#17 ∧ v.getLsbD 0 = true ∧ s.status.done = true) := by
  obtain ⟨hie, hdone⟩ := t.irq_eq_true_iff.mp hirq
  cases h with
  | refused | ignored | rounds | sign | limb => exact .inl hirq
  | status => exact .inl (s.irq_eq_true_iff.mpr ⟨hie, (Bool.and_eq_true_iff.mp hdone).1⟩)
  | ctrl hn ha => exact .inr ⟨hn, ha, hie, hdone⟩
  | cmd => cases hdone

/-- No read changes irq (R60). -/
theorem memRead_irq (s : State) (addr : Addr) (n : Nat) : (s.memRead addr n).irq = s.irq := by
  obtain ⟨b, a, he, -⟩ := memRead_spec s addr n
  rw [he]
  rfl

/-- Where irq is 1 after a step, it was 1 before, or the engine has completed a command, or a CTRL write enables it. -/
theorem Steps.irq_cases {s t : State} (h : Steps s t) (hirq : t.irq = true) :
    s.irq = true ∨ (EngineTurn s ∧ s.status.busy = true ∧ t.status.busy = false) ∨
      ∃ v rest, s.events = .memWrite 0x00008#17 4 v :: rest ∧ v.getLsbD 0 = true ∧ s.status.done = true := by
  cases h with
  | idle | offer => exact .inl hirq
  | illegal r hturn hb => exact .inr (.inl ⟨hturn, hb, rfl⟩)
  | command i t hturn hb _ hends =>
    rcases hends.done_or_waiting with ⟨hbusy, -⟩ | hstatus
    · exact .inr (.inl ⟨hturn, hb, hbusy⟩)
    · rw [State.irq, hends.sameControl.ie, hstatus] at hirq
      exact .inl hirq
  | read addr n rest => exact .inl ((memRead_irq (s.tail rest) addr n).symm.trans hirq)
  | write addr n v rest hev =>
    rcases (memWrite_writes (s.tail rest) addr n v).irq_cases hirq with hold | ⟨rfl, rfl, hv, hdone⟩
    · exact .inl hold
    · exact .inr (.inr ⟨v, rest, hev, hv, hdone⟩)
  | reset => cases hirq

/-- Settles O56, by the ways irq can come to be 1 after a step. -/
theorem irqRisesOnlyByCompletionOrEnable : Obligations.IrqRisesOnlyByCompletionOrEnable := by
  intro s t hstep hlow hirq
  obtain ⟨hie, hdone⟩ := t.irq_eq_true_iff.mp hirq
  rcases (steps_of_step hstep).irq_cases hirq with hold | ⟨hturn, hb, hbusy⟩ | henable
  · exact absurd hold (by simp [hlow])
  · exact .inl ⟨hturn, hb, hbusy, hdone, hie⟩
  · exact .inr henable

/-! ### The idle engine (R216, R234) -/

/-- Settles O8: the engine's turn of an idle block. -/
theorem idleEngineWaits : Obligations.IdleEngineWaits := by
  intro s hturn hb
  rw [step_engine hturn]
  exact engineEvent_idle hb

end Sys2Proof.Machine
